-- ==== Sys2Proof/Word.lean ====
section
/-! DEFINITION. The word types of the machine: bytes, opcode words, register names, addresses in an
instruction and instants of the host's clock. -/

namespace Sys2Proof

/-- An 8-bit value: a register, a byte of memory, an immediate `kk`, a timer counter (R22, R33, R60). -/
abbrev Byte := BitVec 8

/-- A 16-bit opcode word (R90). -/
abbrev Word := BitVec 16

/-- The number of a general register, `V0` to `VF` (R22): the value of an `x` or `y` field (R93). -/
abbrev Reg := Fin 16

/-- The row count `n` of `DRW`, 0 to 15 (R93). -/
abbrev RowCount := Fin 16

/-- The 12-bit absolute address `nnn` of an instruction (R93). -/
abbrev Addr12 := BitVec 12

/-- An instant of the host's monotonic clock, in seconds, an exact rational (R34). That it is not
negative is part of the invariant `Safety.Inv`, kept because the clock only moves forward (R326). -/
abbrev Instant := Rat

/-- `VF`, the register that is also the flag register (R23). -/
abbrev flagReg : Reg := 0xF

/-- `V0`, the index register of `JP V0,addr` (R177). -/
abbrev reg0 : Reg := 0

end Sys2Proof
end

