-- ==== Sys2Proof/Config.lean ====
section
/-! DEFINITION. What an implementation fixes before initialisation: the constants of R7, the parameters
of R8 as a record, the constraint of R341 on them, and the free values of the model. -/

namespace Sys2Proof

/-- One past the last address of the address space, MEM_END of R7. -/
@[simp] abbrev memEnd : Nat := 0x1000

/-- The first address of the Program region, PROGRAM_START of R7. -/
@[simp] abbrev programStart : Nat := 0x200

/-- The step of a cursor in bytes, CURSOR_STEP of R7. -/
@[simp] abbrev cursorStep : Nat := 2

/-- Columns of the display, DISPLAY_W of R7. -/
@[simp] abbrev displayW : Nat := 64

/-- Rows of the display, DISPLAY_H of R7. -/
@[simp] abbrev displayH : Nat := 32

/-- Bytes of the inline framebuffer: 64 × 32 pixels, eight to a byte (R39). -/
@[simp] abbrev framebufferBytes : Nat := 256

/-- Timer intervals in a second, TIMER_HZ of R7. -/
@[simp] abbrev timerHz : Nat := 60

/-- Bytes of one glyph (GLYPHS of R7, R65). -/
@[simp] abbrev glyphBytes : Nat := 5

/-- Bytes of the whole glyph table: 16 glyphs of 5 bytes (R65). -/
@[simp] abbrev fontTableBytes : Nat := 80

/-- DISPLAY_MODE of R8: the framebuffer is memory `[D, 0x1000)`, or a bit plane owned by a sink. -/
inductive DisplayMode where
  | inline
  | external
  deriving DecidableEq, Repr

/-- INDEX_RANGE of R8: the range of the index cursor, Font ∪ Program ∪ Display or everything (R31). -/
inductive IndexRange where
  | union
  | whole
  deriving DecidableEq, Repr

/-- SHIFT_SOURCE of R8: the register `SHR` and `SHL` shift (R151, R152). -/
inductive ShiftSource where
  | vy
  | vx
  deriving DecidableEq, Repr

/-- FONT_DIGIT_POLICY of R8: `LD I,FONT(Vx)` with `Vx > 0xF` is fatal, or uses the low nibble (R196). -/
inductive FontDigitPolicy where
  | fault
  | mask
  deriving DecidableEq, Repr

/-- SYS_POLICY of R8: `SYS addr` does nothing, or is an unknown opcode (R98, R178). -/
inductive SysPolicy where
  | noop
  | fault
  deriving DecidableEq, Repr

/-- The parameters of R8, in the order of its table. Fixed before initialisation and for the whole life
of a machine (R341); the values of the default column are `Machine.defaultConfig`. -/
structure Config where
  /-- STACK_START, `S`. -/
  stackStart : Nat
  /-- DISPLAY_START, `D`. -/
  displayStart : Nat
  /-- DISPLAY_MODE. -/
  displayMode : DisplayMode
  /-- FONT_BASE, the address of glyph 0. -/
  fontBase : Nat
  /-- FONT_TABLE, 80 bytes. -/
  fontTable : List Byte
  /-- INDEX_RANGE. -/
  indexRange : IndexRange
  /-- SHIFT_SOURCE. -/
  shiftSource : ShiftSource
  /-- LOGIC_VF_RESET. -/
  logicVfReset : Bool
  /-- BLOCK_INCREMENTS_I. -/
  blockIncrementsI : Bool
  /-- FONT_DIGIT_POLICY. -/
  fontDigitPolicy : FontDigitPolicy
  /-- BNNN_SELF_JUMP_HALTS. -/
  bnnnSelfJumpHalts : Bool
  /-- SYS_POLICY. -/
  sysPolicy : SysPolicy
  /-- STRICT_5_9. -/
  strict59 : Bool
  deriving DecidableEq, Repr

/-- The constraint of R341 (and of R8's table) on a configuration, with the table's 80 bytes. "A
configuration that fails is not a machine: no step is defined for it." -/
abbrev Config.Valid (c : Config) : Prop :=
  programStart < c.stackStart ∧ c.stackStart + 4 ≤ c.displayStart ∧ c.displayStart ≤ memEnd ∧
    c.stackStart % 2 = 0 ∧ c.displayStart % 2 = 0 ∧
    (c.displayMode = .inline → c.displayStart = 0xF00) ∧
    c.fontBase + fontTableBytes ≤ programStart ∧ c.fontTable.length = fontTableBytes

/-- FREE VALUE (assumption 3): how long after the last tick the host's next step executes, in the
`n`-th step whose inputs the host has not written down. Not negative, by its type (R326). -/
opaque Config.freeExecWait : Nat → NNRat

/-- FREE VALUE (assumption 3): how long after its execution instant such a step ticks the timers. -/
opaque Config.freeTickWait : Nat → NNRat

/-- FREE VALUE (assumption 3): the random byte of such a step (R330, U4: any value). -/
opaque Config.freeRnd : Nat → Byte

end Sys2Proof
end

