-- ==== Sys2Proof/Machine/Defaults.lean ====
section
/-! DEFINITION. The default column of R8: the parameter values of the machine that `State.reset` builds,
with the default FONT_TABLE of R66. -/

namespace Sys2Proof.Machine

/-- Glyphs 0 to 7 of R66. -/
def fontLow : List Byte :=
  [0xF0, 0x90, 0x90, 0x90, 0xF0] ++ [0x20, 0x60, 0x20, 0x20, 0x70] ++
  [0xF0, 0x10, 0xF0, 0x80, 0xF0] ++ [0xF0, 0x10, 0xF0, 0x10, 0xF0] ++
  [0x90, 0x90, 0xF0, 0x10, 0x10] ++ [0xF0, 0x80, 0xF0, 0x10, 0xF0] ++
  [0xF0, 0x80, 0xF0, 0x90, 0xF0] ++ [0xF0, 0x10, 0x20, 0x40, 0x40]

/-- Glyphs 8 to F of R66. -/
def fontHigh : List Byte :=
  [0xF0, 0x90, 0xF0, 0x90, 0xF0] ++ [0xF0, 0x90, 0xF0, 0x10, 0xF0] ++
  [0xF0, 0x90, 0xF0, 0x90, 0x90] ++ [0xE0, 0x90, 0xE0, 0x90, 0xE0] ++
  [0xF0, 0x80, 0x80, 0x80, 0xF0] ++ [0xE0, 0x90, 0x90, 0x90, 0xE0] ++
  [0xF0, 0x80, 0xF0, 0x80, 0xF0] ++ [0xF0, 0x80, 0xF0, 0x80, 0x80]

/-- The default FONT_TABLE (R66). -/
def defaultFont : List Byte := fontLow ++ fontHigh

/-- The default column of R8's table. -/
def defaultConfig : Config where
  stackStart := 0xEA0
  displayStart := 0xF00
  displayMode := .inline
  fontBase := 0x000
  fontTable := defaultFont
  indexRange := .union
  shiftSource := .vy
  logicVfReset := false
  blockIncrementsI := false
  fontDigitPolicy := .fault
  bnnnSelfJumpHalts := false
  sysPolicy := .noop
  strict59 := false

end Sys2Proof.Machine
end

