-- ==== Sys2Proof/Syntax.lean ====
section
/-! DEFINITION. The 35 instructions (R103), one constructor for each row of spec/opcode_table.json, in the
table's order. The fields are those of the instruction's format (R92, R93), already in the types they
select from. -/

namespace Sys2Proof

/-- An instruction. A field the rule calls ignored (the address of `SYS`, the register of the key
instructions) is kept: it is an operand of the encoding. The low nibble of `5xyN` and `9xyN` is no
operand of the format XY (R92, R99), so it is not. -/
inductive Instr where
  /-- `0nnn` `SYS addr` (R178). -/
  | sys (nnn : Addr12)
  /-- `00E0` `CLS` (R241). -/
  | cls
  /-- `00EE` `RET` (R175). -/
  | ret
  /-- `1nnn` `JP addr` (R171). -/
  | jp (nnn : Addr12)
  /-- `2nnn` `CALL addr` (R174). -/
  | call (nnn : Addr12)
  /-- `3xkk` `SE Vx,byte` (R121). -/
  | seImm (x : Reg) (kk : Byte)
  /-- `4xkk` `SNE Vx,byte` (R122). -/
  | sneImm (x : Reg) (kk : Byte)
  /-- `5xy0` `SE Vx,Vy` (R123). -/
  | seReg (x y : Reg)
  /-- `6xkk` `LD Vx,byte` (R142). -/
  | ldImm (x : Reg) (kk : Byte)
  /-- `7xkk` `ADD Vx,byte` (R143). -/
  | addImm (x : Reg) (kk : Byte)
  /-- `8xy0` `LD Vx,Vy` (R144). -/
  | ldReg (x y : Reg)
  /-- `8xy1` `OR Vx,Vy` (R145). -/
  | orReg (x y : Reg)
  /-- `8xy2` `AND Vx,Vy` (R146). -/
  | andReg (x y : Reg)
  /-- `8xy3` `XOR Vx,Vy` (R147). -/
  | xorReg (x y : Reg)
  /-- `8xy4` `ADD Vx,Vy` (R148). -/
  | addReg (x y : Reg)
  /-- `8xy5` `SUB Vx,Vy` (R149). -/
  | subReg (x y : Reg)
  /-- `8xy6` `SHR Vx,Vy` (R151). -/
  | shr (x y : Reg)
  /-- `8xy7` `SUBN Vx,Vy` (R150). -/
  | subn (x y : Reg)
  /-- `8xyE` `SHL Vx,Vy` (R152). -/
  | shl (x y : Reg)
  /-- `9xy0` `SNE Vx,Vy` (R124). -/
  | sneReg (x y : Reg)
  /-- `Annn` `LD I,addr` (R191). -/
  | ldI (nnn : Addr12)
  /-- `Bnnn` `JP V0,addr` (R177). -/
  | jpV0 (nnn : Addr12)
  /-- `Cxkk` `RND Vx,byte` (R197). -/
  | rnd (x : Reg) (kk : Byte)
  /-- `Dxyn` `DRW Vx,Vy,n` (R240). -/
  | drw (x y : Reg) (n : RowCount)
  /-- `Ex9E` `SKP Vx` (R261). -/
  | skp (x : Reg)
  /-- `ExA1` `SKNP Vx` (R262). -/
  | sknp (x : Reg)
  /-- `Fx07` `LD Vx,DT` (R192). -/
  | ldVxDt (x : Reg)
  /-- `Fx0A` `LD Vx,K` (R263). -/
  | ldVxK (x : Reg)
  /-- `Fx15` `LD DT,Vx` (R193). -/
  | ldDtVx (x : Reg)
  /-- `Fx18` `LD ST,Vx` (R194). -/
  | ldStVx (x : Reg)
  /-- `Fx1E` `ADD I,Vx` (R195). -/
  | addI (x : Reg)
  /-- `Fx29` `LD I,FONT(Vx)` (R196). -/
  | ldFont (x : Reg)
  /-- `Fx33` `LD B,Vx` (R211). -/
  | ldB (x : Reg)
  /-- `Fx55` `LD [I],Vx` (R212). -/
  | ldMemVx (x : Reg)
  /-- `Fx65` `LD Vx,[I]` (R213). -/
  | ldVxMem (x : Reg)
  deriving DecidableEq, Repr

end Sys2Proof
end

