-- ==== Sys2Proof/Decode.lean ====
section
/-! DEFINITION. Decoding, total on every word (R94 to R102), the encoder, and the opcode table as data.
Every bit pattern is the standard CHIP-8 one the spec gives (R94 to R98; G2, assumption 12). -/

namespace Sys2Proof

/-! ## The fields of a word (R91) -/

/-- `op[15:12]`. -/
def Word.family (op : Word) : BitVec 4 := op.extractLsb' 12 4

/-- `op[11:8]`, a register number. -/
def Word.x (op : Word) : Reg := (op.extractLsb' 8 4).toFin

/-- `op[7:4]`, a register number. -/
def Word.y (op : Word) : Reg := (op.extractLsb' 4 4).toFin

/-- `op[3:0]`, as bits: the sub-operation of family 8 (R95). -/
def Word.low (op : Word) : BitVec 4 := op.extractLsb' 0 4

/-- `op[3:0]`, as a row count. -/
def Word.n (op : Word) : RowCount := op.low.toFin

/-- `op[7:0]`. -/
def Word.kk (op : Word) : Byte := op.extractLsb' 0 8

/-- `op[11:0]`. -/
def Word.nnn (op : Word) : Addr12 := op.extractLsb' 0 12

/-! ## The decoder -/

/-- What a word is: one of the 35 instructions, or an unknown opcode, by its word (R102). -/
inductive Decoded where
  | known (i : Instr)
  | unknown (op : Word)
  deriving DecidableEq, Repr

/-- Family 0 decodes on `nnn` (R98). -/
def decodeFamily0 (c : Config) (op : Word) : Decoded :=
  if op.nnn = 0x0E0#12 then .known .cls
  else if op.nnn = 0x0EE#12 then .known .ret
  else match c.sysPolicy with
    | .noop => .known (.sys op.nnn)
    | .fault => .unknown op

/-- Families 5 and 9 ignore the low nibble, or want it 0 under STRICT_5_9 (R99). -/
def decodeStrict (c : Config) (op : Word) (i : Instr) : Decoded :=
  if c.strict59 = true ∧ op.low ≠ 0x0#4 then .unknown op else .known i

/-- Family 8 decodes on `n` (R95). -/
def decodeFamily8 (op : Word) : Decoded :=
  match op.low with
  | 0x0#4 => .known (.ldReg op.x op.y)
  | 0x1#4 => .known (.orReg op.x op.y)
  | 0x2#4 => .known (.andReg op.x op.y)
  | 0x3#4 => .known (.xorReg op.x op.y)
  | 0x4#4 => .known (.addReg op.x op.y)
  | 0x5#4 => .known (.subReg op.x op.y)
  | 0x6#4 => .known (.shr op.x op.y)
  | 0x7#4 => .known (.subn op.x op.y)
  | 0xE#4 => .known (.shl op.x op.y)
  | _ => .unknown op

/-- Family E decodes on `kk` (R96). -/
def decodeFamilyE (op : Word) : Decoded :=
  match op.kk with
  | 0x9E#8 => .known (.skp op.x)
  | 0xA1#8 => .known (.sknp op.x)
  | _ => .unknown op

/-- Family F decodes on `kk` (R97). -/
def decodeFamilyF (op : Word) : Decoded :=
  match op.kk with
  | 0x07#8 => .known (.ldVxDt op.x)
  | 0x0A#8 => .known (.ldVxK op.x)
  | 0x15#8 => .known (.ldDtVx op.x)
  | 0x18#8 => .known (.ldStVx op.x)
  | 0x1E#8 => .known (.addI op.x)
  | 0x29#8 => .known (.ldFont op.x)
  | 0x33#8 => .known (.ldB op.x)
  | 0x55#8 => .known (.ldMemVx op.x)
  | 0x65#8 => .known (.ldVxMem op.x)
  | _ => .unknown op

/-- The dispatcher, on the family (R94). The last arm is family F: a family is one of sixteen. -/
def decode (c : Config) (op : Word) : Decoded :=
  match op.family with
  | 0x0#4 => decodeFamily0 c op
  | 0x1#4 => .known (.jp op.nnn)
  | 0x2#4 => .known (.call op.nnn)
  | 0x3#4 => .known (.seImm op.x op.kk)
  | 0x4#4 => .known (.sneImm op.x op.kk)
  | 0x5#4 => decodeStrict c op (.seReg op.x op.y)
  | 0x6#4 => .known (.ldImm op.x op.kk)
  | 0x7#4 => .known (.addImm op.x op.kk)
  | 0x8#4 => decodeFamily8 op
  | 0x9#4 => decodeStrict c op (.sneReg op.x op.y)
  | 0xA#4 => .known (.ldI op.nnn)
  | 0xB#4 => .known (.jpV0 op.nnn)
  | 0xC#4 => .known (.rnd op.x op.kk)
  | 0xD#4 => .known (.drw op.x op.y op.n)
  | 0xE#4 => decodeFamilyE op
  | _ => decodeFamilyF op

/-- The word of two bytes in the order they lie in memory, the high byte first (R71). -/
def wordOfBytes (hi lo : Byte) : Word := hi ++ lo

/-- The high byte of a word, the one at the lower address (R71). -/
def Word.hiByte (op : Word) : Byte := op.extractLsb' 8 8

/-- The low byte of a word, the one at the higher address (R71). -/
def Word.loByte (op : Word) : Byte := op.extractLsb' 0 8

/-- What two bytes of memory are (R71, R102). -/
def decodeBytes (c : Config) (hi lo : Byte) : Decoded := decode c (wordOfBytes hi lo)

/-! ## The encoder -/

/-- A word of format NNN (R92). -/
def encodeNNN (family : BitVec 4) (nnn : Addr12) : Word := family ++ nnn

/-- A word of format XKK (R92); of format X with its sub-operation as `kk`. -/
def encodeXKK (family : BitVec 4) (x : Reg) (kk : Byte) : Word :=
  family ++ (⟨x⟩ : BitVec 4) ++ kk

/-- A word of format XYN (R92); of format XY with its sub-operation as `n`. -/
def encodeXYN (family : BitVec 4) (x y : Reg) (n : Fin 16) : Word :=
  family ++ (⟨x⟩ : BitVec 4) ++ (⟨y⟩ : BitVec 4) ++ (⟨n⟩ : BitVec 4)

/-- The word of an instruction (R103). The ignored nibble of `SE Vx,Vy` and `SNE Vx,Vy` is 0 ("5xy0",
"9xy0"). -/
def encode : Instr → Word
  | .sys nnn => encodeNNN 0x0#4 nnn
  | .cls => 0x00E0#16
  | .ret => 0x00EE#16
  | .jp nnn => encodeNNN 0x1#4 nnn
  | .call nnn => encodeNNN 0x2#4 nnn
  | .seImm x kk => encodeXKK 0x3#4 x kk
  | .sneImm x kk => encodeXKK 0x4#4 x kk
  | .seReg x y => encodeXYN 0x5#4 x y 0x0
  | .ldImm x kk => encodeXKK 0x6#4 x kk
  | .addImm x kk => encodeXKK 0x7#4 x kk
  | .ldReg x y => encodeXYN 0x8#4 x y 0x0
  | .orReg x y => encodeXYN 0x8#4 x y 0x1
  | .andReg x y => encodeXYN 0x8#4 x y 0x2
  | .xorReg x y => encodeXYN 0x8#4 x y 0x3
  | .addReg x y => encodeXYN 0x8#4 x y 0x4
  | .subReg x y => encodeXYN 0x8#4 x y 0x5
  | .shr x y => encodeXYN 0x8#4 x y 0x6
  | .subn x y => encodeXYN 0x8#4 x y 0x7
  | .shl x y => encodeXYN 0x8#4 x y 0xE
  | .sneReg x y => encodeXYN 0x9#4 x y 0x0
  | .ldI nnn => encodeNNN 0xA#4 nnn
  | .jpV0 nnn => encodeNNN 0xB#4 nnn
  | .rnd x kk => encodeXKK 0xC#4 x kk
  | .drw x y n => encodeXYN 0xD#4 x y n
  | .skp x => encodeXKK 0xE#4 x 0x9E#8
  | .sknp x => encodeXKK 0xE#4 x 0xA1#8
  | .ldVxDt x => encodeXKK 0xF#4 x 0x07#8
  | .ldVxK x => encodeXKK 0xF#4 x 0x0A#8
  | .ldDtVx x => encodeXKK 0xF#4 x 0x15#8
  | .ldStVx x => encodeXKK 0xF#4 x 0x18#8
  | .addI x => encodeXKK 0xF#4 x 0x1E#8
  | .ldFont x => encodeXKK 0xF#4 x 0x29#8
  | .ldB x => encodeXKK 0xF#4 x 0x33#8
  | .ldMemVx x => encodeXKK 0xF#4 x 0x55#8
  | .ldVxMem x => encodeXKK 0xF#4 x 0x65#8

/-! ## The opcode table as data (R102, R103) -/

/-- A row of spec/opcode_table.json: a word matches when its bits under the mask are the match bits. -/
structure OpcodeRow where
  matchBits : Word
  maskBits : Word
  deriving DecidableEq, Repr

/-- A word matches a row. -/
def OpcodeRow.covers (r : OpcodeRow) (op : Word) : Bool := op &&& r.maskBits == r.matchBits

/-- The row of an instruction. The mask of families 5 and 9 grows under STRICT_5_9 (R99, R123, R124). -/
def Instr.row (c : Config) : Instr → OpcodeRow
  | .sys _ => ⟨0x0000, 0xF000⟩
  | .cls => ⟨0x00E0, 0xFFFF⟩
  | .ret => ⟨0x00EE, 0xFFFF⟩
  | .jp _ => ⟨0x1000, 0xF000⟩
  | .call _ => ⟨0x2000, 0xF000⟩
  | .seImm _ _ => ⟨0x3000, 0xF000⟩
  | .sneImm _ _ => ⟨0x4000, 0xF000⟩
  | .seReg _ _ => ⟨0x5000, if c.strict59 then 0xF00F else 0xF000⟩
  | .ldImm _ _ => ⟨0x6000, 0xF000⟩
  | .addImm _ _ => ⟨0x7000, 0xF000⟩
  | .ldReg _ _ => ⟨0x8000, 0xF00F⟩
  | .orReg _ _ => ⟨0x8001, 0xF00F⟩
  | .andReg _ _ => ⟨0x8002, 0xF00F⟩
  | .xorReg _ _ => ⟨0x8003, 0xF00F⟩
  | .addReg _ _ => ⟨0x8004, 0xF00F⟩
  | .subReg _ _ => ⟨0x8005, 0xF00F⟩
  | .shr _ _ => ⟨0x8006, 0xF00F⟩
  | .subn _ _ => ⟨0x8007, 0xF00F⟩
  | .shl _ _ => ⟨0x800E, 0xF00F⟩
  | .sneReg _ _ => ⟨0x9000, if c.strict59 then 0xF00F else 0xF000⟩
  | .ldI _ => ⟨0xA000, 0xF000⟩
  | .jpV0 _ => ⟨0xB000, 0xF000⟩
  | .rnd _ _ => ⟨0xC000, 0xF000⟩
  | .drw _ _ _ => ⟨0xD000, 0xF000⟩
  | .skp _ => ⟨0xE09E, 0xF0FF⟩
  | .sknp _ => ⟨0xE0A1, 0xF0FF⟩
  | .ldVxDt _ => ⟨0xF007, 0xF0FF⟩
  | .ldVxK _ => ⟨0xF00A, 0xF0FF⟩
  | .ldDtVx _ => ⟨0xF015, 0xF0FF⟩
  | .ldStVx _ => ⟨0xF018, 0xF0FF⟩
  | .addI _ => ⟨0xF01E, 0xF0FF⟩
  | .ldFont _ => ⟨0xF029, 0xF0FF⟩
  | .ldB _ => ⟨0xF033, 0xF0FF⟩
  | .ldMemVx _ => ⟨0xF055, 0xF0FF⟩
  | .ldVxMem _ => ⟨0xF065, 0xF0FF⟩

/-- One instruction of each row of families 0 to 7 but `SYS`, with operands 0. -/
def tableLow : List Instr :=
  [.cls, .ret, .jp 0, .call 0, .seImm 0 0, .sneImm 0 0, .seReg 0 0, .ldImm 0 0, .addImm 0 0]

/-- One instruction of each row of families 8 and 9, with operands 0. -/
def tableMid : List Instr :=
  [.ldReg 0 0, .orReg 0 0, .andReg 0 0, .xorReg 0 0, .addReg 0 0, .subReg 0 0, .shr 0 0, .subn 0 0,
    .shl 0 0, .sneReg 0 0]

/-- One instruction of each row of families A to F, with operands 0. -/
def tableHigh : List Instr :=
  [.ldI 0, .jpV0 0, .rnd 0 0, .drw 0 0 0, .skp 0, .sknp 0, .ldVxDt 0, .ldVxK 0, .ldDtVx 0, .ldStVx 0,
    .addI 0, .ldFont 0, .ldB 0, .ldMemVx 0, .ldVxMem 0]

/-- One instruction of each row but `SYS`, in the table's order. -/
def tableInstrs : List Instr := tableLow ++ tableMid ++ tableHigh

/-- The rows of the table under a configuration: `SYS` is one of them under SYS_POLICY = `noop` only
(R98). -/
def opcodeTable (c : Config) : List OpcodeRow :=
  (match c.sysPolicy with
    | .noop => [(Instr.sys 0).row c]
    | .fault => []) ++ tableInstrs.map (Instr.row c)

/-! ## Words as the opcode table numbers them -/

/-- The word of a table row whose bits are `w`, the bits above `nbits` zero: one 16-bit word, so the
table's bit numbers are the word's own (R10, R90). -/
def tableWord (nbits w : Nat) : Word := BitVec.ofNat 16 (w % 2 ^ nbits)

/-- The instruction the decoder reads from such a word under the default configuration, laid out as the
hardware stores it: the high byte first (R71). -/
def decodeTableWord (nbits w : Nat) : Option Instr :=
  match decodeBytes Machine.defaultConfig (tableWord nbits w).hiByte (tableWord nbits w).loByte with
  | .known i => some i
  | .unknown _ => none

end Sys2Proof
end

