-- ==== Sys2Proof/Machine/HostEnv.lean ====
section
/-! DEFINITION. The host's side of a step as plain data: the calls of `step(t_exec, t_tick, rnd)` the host
is about to make (R330, R331), the instant of its last one (R326), and the free inputs of the calls it has
not written down. None of it is state of the core (R21); it stands here because a step is a function of
the state alone (assumption 2). -/

namespace Sys2Proof.Machine

/-- The inputs of one call of `step` (R9, R330). -/
structure StepInput where
  tExec : Instant
  tTick : Instant
  rnd : Byte
  deriving DecidableEq, Repr

/-- The host: the inputs of its next calls, oldest first; the tick instant of its last call, or of
initialisation; and how many calls had free inputs. -/
structure HostEnv where
  pending : List StepInput
  clock : Instant
  draws : Nat
  deriving DecidableEq, Repr

/-- Free inputs of a call: any instants the monotonic clock allows (R326) and any byte (R330), the
free values of Config applied to the number of free calls before it. -/
def HostEnv.freeInput (e : HostEnv) : StepInput where
  tExec := e.clock + (Config.freeExecWait e.draws : Rat)
  tTick := e.clock + (Config.freeExecWait e.draws : Rat) + (Config.freeTickWait e.draws : Rat)
  rnd := Config.freeRnd e.draws

/-- The inputs of the step under way. -/
def HostEnv.current (e : HostEnv) : StepInput :=
  match e.pending with
  | input :: _ => input
  | [] => e.freeInput

/-- The next call obeys the clock constraint of R326. Free inputs do by their form. -/
def HostEnv.admissible (e : HostEnv) : Bool :=
  match e.pending with
  | input :: _ => decide (e.clock ≤ input.tExec) && decide (input.tExec ≤ input.tTick)
  | [] => true

/-- The host after the call of the step under way has returned. -/
def HostEnv.consumed (e : HostEnv) : HostEnv :=
  match e.pending with
  | input :: rest => { pending := rest, clock := input.tTick, draws := e.draws }
  | [] => { pending := [], clock := e.freeInput.tTick, draws := e.draws + 1 }

end Sys2Proof.Machine
end

