-- ==== Sys2Proof/Machine/Memory.lean ====
section
/-! DEFINITION. The address space as plain data: what every address holds at initialisation, and reads
and writes of one byte over the list of the bytes that differ from it (R60, R61, R65). -/

namespace Sys2Proof.Machine

/-- The bytes that differ from the contents at initialisation, by address. -/
abbrev Memory := List Host.Cell

/-- What an address that no cell lists reads as: the contents at initialisation before an image is
loaded, that is, FONT_TABLE at FONT_BASE and 0x00 elsewhere (R42, R65, R340). -/
def Memory.background (c : Config) (a : Nat) : Byte :=
  if c.fontBase ≤ a ∧ a < c.fontBase + fontTableBytes then c.fontTable.getD (a - c.fontBase) 0#8 else 0#8

/-- The byte a list of cells gives for an address, if it lists one. -/
def Memory.lookup (a : Nat) : Memory → Option Byte
  | [] => none
  | (k, b) :: cells => if a = k then some b else lookup a cells

/-- The byte at an address (R61, `read`). -/
def Memory.read (c : Config) (m : Memory) (a : Nat) : Byte :=
  (m.lookup a).getD (background c a)

/-- The cells with the byte at an address listed as `b`, in rising order. -/
def Memory.insert (a : Nat) (b : Byte) : Memory → Memory
  | [] => [(a, b)]
  | (k, v) :: cells =>
    if a < k then (a, b) :: (k, v) :: cells
    else if a = k then (a, b) :: cells
    else (k, v) :: insert a b cells

/-- The cells with an address not listed. -/
def Memory.erase (a : Nat) (m : Memory) : Memory := m.filter (fun cell => cell.1 ≠ a)

/-- Writing one byte (R61, `write`). A byte that an unlisted address reads as is not listed. -/
def Memory.write (c : Config) (m : Memory) (a : Nat) (b : Byte) : Memory :=
  if b = background c a then m.erase a else m.insert a b

/-- Writing bytes at an address and those after it, the first byte at the lowest address. -/
def Memory.writeRange (c : Config) (m : Memory) (a : Nat) : List Byte → Memory
  | [] => m
  | b :: bytes => writeRange c (m.write c a b) (a + 1) bytes

/-- The bulk `load` of R61 into a range of `size` bytes: none if the data exceeds the range. -/
def Memory.load (c : Config) (m : Memory) (start size : Nat) (data : List Byte) : Option Memory :=
  if size < data.length then none else some (m.writeRange c start data)

/-- The canonical form: addresses of the address space (R60), strictly rising, none listed with the byte
that an unlisted address reads as. Equal memories are then equal lists. -/
abbrev Memory.wf (c : Config) (m : Memory) : Prop :=
  m.Pairwise (fun p q => p.1 < q.1) ∧ ∀ cell ∈ m, cell.1 < memEnd ∧ cell.2 ≠ background c cell.1

end Sys2Proof.Machine
end

