-- ==== Sys2Proof/Machine/Timer.lean ====
section
/-! DEFINITION. The timer engine: a counter with the instant it counts from, setting it and ticking it
(R33, R320 to R325). -/

namespace Sys2Proof.Machine

/-- A timer: its counter, and the instant the next tick counts elapsed intervals from (R33). -/
structure Timer where
  count : Byte
  anchor : Instant
  deriving DecidableEq, Repr

/-- Whole 60 Hz intervals from one instant to a later one (the `k` of R321). -/
def wholeIntervals (start stop : Instant) : Nat := ⌊(stop - start) * (timerHz : Rat)⌋₊

/-- `TimerSet(T, v, t)` (R320). -/
def Timer.set (v : Byte) (t : Instant) : Timer := { count := v, anchor := t }

/-- The counter less `k` intervals, never below 0 (R321); a counter at 0 stays there (R325). -/
def Timer.decay (count : Byte) (k : Nat) : Byte :=
  if count = 0#8 then 0#8 else BitVec.ofNat 8 (count.toNat - k)

/-- `TimerTick(T, t)` (R321): the fraction of an interval not yet counted stays in the anchor. -/
def Timer.tick (T : Timer) (t : Instant) : Timer where
  count := decay T.count (wholeIntervals T.anchor t)
  anchor := T.anchor + (wholeIntervals T.anchor t : Rat) / (timerHz : Rat)

/-- `active(T)`, derived and not stored (R35). -/
def Timer.active (T : Timer) : Bool := decide (0#8 < T.count)

end Sys2Proof.Machine
end

