-- ==== Sys2Proof/Machine/State.lean ====
section
/-! DEFINITION. The state of the machine (R20) as plain data, the reasons it can stop, and the state after
initialisation (R42, R340). -/

namespace Sys2Proof.Machine

/-- The three cursors (R25). -/
inductive CursorName where
  | pc
  | sp
  | i
  deriving DecidableEq, Repr

/-- The fatal errors, each with the information R300 records. `pc` is the address of the instruction.
The attempted value of a cursor is an integer: a retreat is evaluated over the integers (R13). -/
inductive Fatal where
  /-- A cursor set outside its range. -/
  | cursorRange (cursor : CursorName) (value : Int) (pc : Nat)
  /-- A word that is none of the 35 instructions. -/
  | unknownOpcode (op : Word) (pc : Nat)
  /-- An image longer than the Program region, at initialisation. -/
  | oversizedLoad (imageLength regionSize : Nat)
  /-- A byte address of 0x1000 or more. -/
  | memBounds (address pc : Nat)
  /-- `LD I,FONT(Vx)` with a `Vx` that is no digit, under FONT_DIGIT_POLICY = `fault`. -/
  | fontDigit (digit : Byte) (pc : Nat)
  deriving DecidableEq, Repr

/-- STATUS (R37): the machine runs, or a fatal error has stopped it for good. -/
inductive Status where
  | running
  | faulted (cause : Fatal)
  deriving DecidableEq, Repr

/-- The complete architectural state of the core, field by field the tuple of R20. It stores neither the
opcode, nor the predicate `active`, nor a parameter, nor an input of a step (R21). -/
structure CoreState where
  /-- V0 to VF (R22). -/
  v : Vector Byte 16
  /-- PC, the address of the instruction to run (R26, R27). -/
  pc : Nat
  /-- SP, the address of the next free stack slot (R29). -/
  sp : Nat
  /-- I, the index cursor (R31). -/
  i : Nat
  /-- DT, the delay timer (R33). -/
  dt : Timer
  /-- ST, the sound timer (R33). -/
  st : Timer
  /-- M, the address space (R60). -/
  mem : Memory
  /-- FB, the bit plane of DISPLAY_MODE = `external`: pixel (px, py) is bit `py*64 + px` (R38, R39). In
  `inline` mode the display is memory and this plane is unused. -/
  fb : BitVec 2048
  /-- EXIT (R36). -/
  exit : Bool
  /-- STATUS (R37). -/
  status : Status
  deriving DecidableEq, Repr

/-- What a step of the host's type takes: the state of the core, and beside it the two things the spec's
`step(t_exec, t_tick, rnd)` of a machine takes as arguments. They are no state of the core (R21): no
instruction writes them (assumptions 1 and 2), and `coreStep` takes them as the arguments they are. -/
structure State extends CoreState where
  /-- The configuration the machine was built with, fixed (R8, R341). -/
  cfg : Config
  /-- The host's side: the calls it is about to make, its clock and the free inputs drawn (R9, R326). -/
  env : HostEnv
  deriving DecidableEq, Repr

/-- Why a machine has no next state: only because it had stopped before, or was never built. The fatal
error that stops a machine is itself a NEXT state, with STATUS = Faulted and the earlier writes of the
instruction in place (R301, R302). -/
inductive Fault where
  /-- Raised by `step` on a machine that a fatal error has stopped: "A machine with STATUS = Faulted has
  no step" (R106, R301). Safe: the spec gives that machine no further behaviour. -/
  | stopped (cause : Fatal)
  /-- Raised by `init`: a fatal error at initialisation, so no machine (R344). Safe: the spec says so. -/
  | initFailed (cause : Fatal)
  deriving DecidableEq, Repr

/-- Why the model has no meaning for a step. -/
inductive Refusal where
  /-- Raised by a refused arm of `exec`: an instruction without a meaning yet. No arm of this model is
  one. Safe: nothing is claimed of such an instruction. -/
  | notModelled (mnemonic : String)
  /-- Raised by `step` and `init` on a configuration that fails R341: "no step is defined for it" (O21).
  Safe: such a configuration is not a machine. -/
  | illegalConfig
  /-- Raised by `step` when the host's written call breaks the clock constraint of R326: "outside the
  model's inputs" (O24). Safe: the spec admits no such call. -/
  | clockBackwards
  deriving DecidableEq, Repr

/-- The core after `init` with the empty image, for any configuration and instant (R42, R340). Memory
lists nothing: an unlisted address reads as its contents at initialisation. -/
def CoreState.initial (c : Config) (t0 : Instant) : CoreState where
  v := Vector.replicate 16 0x00#8
  pc := programStart
  sp := c.stackStart
  i := 0x000
  dt := Timer.set 0#8 t0
  st := Timer.set 0#8 t0
  mem := []
  fb := 0#2048
  exit := false
  status := .running

/-- That core in its configuration, with a host that has written no call down and whose clock is at the
instant of initialisation. -/
def State.initial (c : Config) (t0 : Instant) : State where
  toCoreState := CoreState.initial c t0
  cfg := c
  env := { pending := [], clock := t0, draws := 0 }

/-- The machine right after reset: the default column of R8, initialised at instant 0 (assumption 4). -/
def State.reset : State := State.initial defaultConfig 0

end Sys2Proof.Machine
end

