-- ==== Sys2Proof/Machine/Ops.lean ====
section
/-! DEFINITION. The named operations every meaning is written with: registers, bytes of memory, the three
cursors, and the fatal error, the machine's only exception (R300, R301). -/

namespace Sys2Proof.Machine

/-- What a step or a meaning answers. -/
abbrev Outcome := Host.Outcome State Fault Refusal

/-! ## Sequencing and the fatal error -/

/-- A run through the statements of a rule: it goes on, or a fatal error has ended it, in which case the
state has STATUS = Faulted and keeps the earlier writes (R301, R302). -/
inductive Flow where
  | go (s : State)
  | fatal (s : State)
  deriving DecidableEq, Repr

/-- The next statement, which runs unless a fatal error came before it: "nothing after it in the
pseudocode runs" (R14). -/
def Flow.andThen (r : Flow) (next : State → Flow) : Flow :=
  match r with
  | .go s => next s
  | .fatal s => .fatal s

/-- What a rule answers when its statements are done: a next state either way. -/
def Flow.finish (r : Flow) : Outcome :=
  match r with
  | .go s => .next s
  | .fatal s => .next s

/-- The state after a fatal error: STATUS records the cause, and nothing else changes. There is no trap
entry: no register is saved, no mode changes and no handler exists (R301, R304). -/
def State.faultedWith (f : Fatal) (s : State) : State := { s with status := .faulted f }

/-- `raise Fatal(cause, info)` (R14, R301): taking the machine's one kind of exception. There is no
return from it (R305). -/
def raiseFatal (f : Fatal) (s : State) : Flow := .fatal (s.faultedWith f)

/-! ## Registers (R22) -/

/-- `V[x]` (R11). -/
def State.getV (s : State) (x : Reg) : Byte := s.v[x.val]

/-- `V[x] <- b` (R11). Every register can be written; none is hardwired (R22). -/
def State.setV (x : Reg) (b : Byte) (s : State) : State := { s with v := s.v.set x.val b }

/-! ## Memory (R12, R61, R62) -/

/-- The byte at an address, unchecked. -/
def State.readMem (s : State) (a : Nat) : Byte := s.mem.read s.cfg a

/-- Write the byte at an address, unchecked. -/
def State.writeMem (a : Nat) (b : Byte) (s : State) : State := { s with mem := s.mem.write s.cfg a b }

/-- `MemRead(addr, 1)` (R12): fatal at an address of 0x1000 or more (R62). `ipc` is the address of the
instruction, which the error records (R300). -/
def loadByte (ipc a : Nat) (s : State) : Except Fatal Byte :=
  if a < memEnd then .ok (s.readMem a) else .error (.memBounds a ipc)

/-- `MemRead(addr, n)` (R12): the bytes at `addr`, `addr + 1`, …, and the error of the first address that
has none. -/
def loadBytes (ipc a : Nat) (s : State) : Nat → Except Fatal (List Byte)
  | 0 => .ok []
  | n + 1 =>
    match loadByte ipc a s with
    | .error f => .error f
    | .ok b =>
      match loadBytes ipc (a + 1) s n with
      | .error f => .error f
      | .ok bytes => .ok (b :: bytes)

/-- `MemWrite(addr, 1, b)` (R12). -/
def storeByte (ipc a : Nat) (b : Byte) (s : State) : Flow :=
  if a < memEnd then .go (s.writeMem a b) else raiseFatal (.memBounds a ipc) s

/-- `MemWrite` of bytes at `addr`, `addr + 1`, … in rising order; the bytes before an address that does
not exist have been written (R12, R302). -/
def storeBytes (ipc a : Nat) (bytes : List Byte) (s : State) : Flow :=
  match bytes with
  | [] => .go s
  | b :: rest => (storeByte ipc a b s).andThen (storeBytes ipc (a + 1) rest)

/-! ## Cursors (R13, R25) -/

/-- `Range(c)`: of PC the Program region (R26), of SP the Stack region (R29), of I what INDEX_RANGE says
(R31). -/
def cursorInRange (c : Config) (k : CursorName) (a : Nat) : Bool :=
  match k with
  | .pc => decide (programStart ≤ a) && decide (a < c.stackStart)
  | .sp => decide (c.stackStart ≤ a) && decide (a < c.displayStart)
  | .i =>
    match c.indexRange with
    | .union => decide (a < c.stackStart) || (decide (c.displayStart ≤ a) && decide (a < memEnd))
    | .whole => decide (a < memEnd)

/-- The current value of a cursor. -/
def State.getCursor (s : State) (k : CursorName) : Nat :=
  match k with
  | .pc => s.pc
  | .sp => s.sp
  | .i => s.i

/-- The state with a cursor at a value, unchecked. -/
def State.putCursor (k : CursorName) (a : Nat) (s : State) : State :=
  match k with
  | .pc => { s with pc := a }
  | .sp => { s with sp := a }
  | .i => { s with i := a }

/-- `CursorSet(c, a)`: fatal outside the range, never wrapped and never clamped (R13). -/
def cursorSet (ipc : Nat) (k : CursorName) (a : Nat) (s : State) : Flow :=
  if cursorInRange s.cfg k a then .go (s.putCursor k a) else raiseFatal (.cursorRange k a ipc) s

/-- `CursorAdvance(c)` (R13). -/
def cursorAdvance (ipc : Nat) (k : CursorName) (s : State) : Flow :=
  cursorSet ipc k (s.getCursor k + cursorStep) s

/-- `CursorRetreat(c)`, over the integers: "a value below 0 is out of range" (R13). -/
def cursorRetreat (ipc : Nat) (k : CursorName) (s : State) : Flow :=
  if cursorStep ≤ s.getCursor k then cursorSet ipc k (s.getCursor k - cursorStep) s
  else raiseFatal (.cursorRange k ((s.getCursor k : Int) - (cursorStep : Int)) ipc) s

/-- The end of every instruction that is not a skip, a jump, a call or a return (R27): advance PC. PC
still holds the address of the instruction. -/
def advancePc (s : State) : Flow := cursorAdvance s.pc .pc s

end Sys2Proof.Machine
end

