-- ==== Sys2Proof/Machine/Operands.lean ====
section
/-! DEFINITION. The operand forms: what the fields of an instruction stand for beyond a register or an
immediate (R93, R151, R177, R195, R196, R210, R240). -/

namespace Sys2Proof.Machine

/-- An absolute 12-bit address as a cursor value, zero-extended (R93). -/
def absolute (nnn : Addr12) : Nat := nnn.toNat

/-- The target of `JP V0,addr`: the exact sum, no wrap (R177). -/
def indexedTarget (nnn : Addr12) (s : State) : Nat := nnn.toNat + (s.getV reg0).toNat

/-- The value `SHR` and `SHL` shift, of Vx or Vy as SHIFT_SOURCE says (R151, R152). -/
def shiftOperand (x y : Reg) (s : State) : Byte :=
  match s.cfg.shiftSource with
  | .vy => s.getV y
  | .vx => s.getV x

/-- The sum `ADD I,Vx` sets I to: exact, never reduced (R195). -/
def indexSum (x : Reg) (s : State) : Nat := s.i + (s.getV x).toNat

/-- The address of a digit's glyph (R196, R65). -/
def glyphAddress (c : Config) (d : Nat) : Nat := c.fontBase + glyphBytes * d

/-- The digit `LD I,FONT(Vx)` takes from Vx, or the fatal error of a value above 0xF (R196). -/
def fontDigit (x : Reg) (s : State) : Except Fatal Nat :=
  if (s.getV x).toNat ≤ 0xF then .ok (s.getV x).toNat
  else match s.cfg.fontDigitPolicy with
    | .fault => .error (.fontDigit (s.getV x) s.pc)
    | .mask => .ok (s.getV x &&& 0x0F#8).toNat

/-- The registers V0 to Vx inclusive, ascending (R212, R213). -/
def regsUpTo (x : Reg) : List Reg := (List.finRange 16).take (x.val + 1)

/-- The three decimal digits of a byte, hundreds first (R211). -/
def bcdDigits (b : Byte) : List Byte :=
  [BitVec.ofNat 8 (b.toNat / 100), BitVec.ofNat 8 (b.toNat / 10 % 10), BitVec.ofNat 8 (b.toNat % 10)]

/-- A cursor value as the two bytes of a stack entry, the high byte first (R68, R174). -/
def stackEntry (a : Nat) : List Byte := [BitVec.ofNat 8 (a / 256), BitVec.ofNat 8 a]

/-- The 16-bit value of two bytes, the high byte first (R12). -/
def bigEndian (hi lo : Byte) : Nat := hi.toNat * 256 + lo.toNat

/-- The column `DRW` starts at (R240). -/
def drawColumn (x : Reg) (s : State) : Nat := (s.getV x).toNat % displayW

/-- The row `DRW` starts at (R240). -/
def drawRow (y : Reg) (s : State) : Nat := (s.getV y).toNat % displayH

end Sys2Proof.Machine
end

