-- ==== Sys2Proof/Machine/Cycle.lean ====
section
/-! DEFINITION. What a step does around its instruction (R104): the fetch before it, the two timer ticks
and the return to the host after it. -/

namespace Sys2Proof.Machine

/-- `op <- MemRead(PC, 2)`, the high byte first (R71, R104). Only PC itself is range-checked, so a fetch
at `S − 1` reads its second byte from address `S` (R74). -/
def fetch (s : State) : Except Fatal Word :=
  match loadByte s.pc s.pc s, loadByte s.pc (s.pc + 1) s with
  | .error f, _ => .error f
  | .ok _, .error f => .error f
  | .ok hi, .ok lo => .ok (wordOfBytes hi lo)

/-- An unknown opcode: fatal before any state changes (R100). -/
def rejectWord (op : Word) (s : State) : Outcome := (raiseFatal (.unknownOpcode op s.pc) s).finish

/-- A fetch that fails: fatal, and nothing else (R62). -/
def rejectFetch (f : Fatal) (s : State) : Outcome := (raiseFatal f s).finish

/-- The ticks that end a step: the delay timer, then the sound timer (R104, R307). -/
def tickTimers (t : Instant) (s : State) : State := { s with dt := s.dt.tick t, st := s.st.tick t }

/-- The end of a step: the ticks, unless a fatal error ended the step before them (R106), and the host's
call returns. -/
def endStep (s : State) : State :=
  match s.status with
  | .running => { tickTimers s.env.current.tTick s with env := s.env.consumed }
  | .faulted _ => { s with env := s.env.consumed }

/-- The state with a word placed where the next step fetches, the high byte at PC (R71). -/
def placeWord (op : Word) (s : State) : State := (s.writeMem s.pc op.hiByte).writeMem (s.pc + 1) op.loByte

end Sys2Proof.Machine
end

