-- ==== Sys2Proof/Machine/Block.lean ====
section
/-! DEFINITION. BCD and block transfer (R210 to R213): the address of byte `k` is `I + k`, exact. -/

namespace Sys2Proof.Machine

/-- `V[k] <- MemRead(I + k, 1)` for each register of a list in turn; the registers before an address that
does not exist have been loaded (R213, R302). -/
def loadRegs (ipc : Nat) (ks : List Reg) (s : State) : Flow :=
  match ks with
  | [] => .go s
  | k :: rest =>
    match loadByte ipc (s.i + k.val) s with
    | .error f => raiseFatal f s
    | .ok b => loadRegs ipc rest (s.setV k b)

/-- `CursorSet(I, I + x + 1)` when BLOCK_INCREMENTS_I (R212, R213). -/
def blockIncrement (x : Reg) (s : State) : Flow :=
  if s.cfg.blockIncrementsI then cursorSet s.pc .i (s.i + x.val + 1) s else .go s

/-- `LD B,Vx` (R211). -/
def execLdB (x : Reg) (s : State) : Outcome :=
  ((storeBytes s.pc s.i (bcdDigits (s.getV x)) s).andThen advancePc).finish

/-- `LD [I],Vx`: store V0 to Vx (R212). -/
def execLdMemVx (x : Reg) (s : State) : Outcome :=
  (((storeBytes s.pc s.i ((regsUpTo x).map s.getV) s).andThen (blockIncrement x)).andThen advancePc).finish

/-- `LD Vx,[I]`: load V0 to Vx (R213). -/
def execLdVxMem (x : Reg) (s : State) : Outcome :=
  (((loadRegs s.pc (regsUpTo x) s).andThen (blockIncrement x)).andThen advancePc).finish

end Sys2Proof.Machine
end

