-- ==== Sys2Proof/Machine/ControlFlow.lean ====
section
/-! DEFINITION. Control flow: `JP`, `CALL`, `RET`, `JP V0`, `SYS` (R170 to R179). -/

namespace Sys2Proof.Machine

/-- `EXIT <- 1` when the condition holds; nothing ever clears EXIT (R36). -/
def exitWhen (cond : Bool) (s : State) : State := if cond then { s with exit := true } else s

/-- `JP addr`: a jump to itself is the halt signal (R171). -/
def execJp (nnn : Addr12) (s : State) : Outcome :=
  (cursorSet s.pc .pc (absolute nnn) (exitWhen (decide (absolute nnn = s.pc)) s)).finish

/-- `CALL addr`: push the CALL's own address at SP, advance SP, jump (R174). -/
def execCall (nnn : Addr12) (s : State) : Outcome :=
  (((storeBytes s.pc s.sp (stackEntry s.pc) s).andThen (cursorAdvance s.pc .sp)).andThen
    (cursorSet s.pc .pc (absolute nnn))).finish

/-- The end of `RET`: take the two bytes at SP, set PC to them and advance it (R175). -/
def popPc (ipc : Nat) (s : State) : Flow :=
  match loadByte ipc s.sp s, loadByte ipc (s.sp + 1) s with
  | .error f, _ => raiseFatal f s
  | .ok _, .error f => raiseFatal f s
  | .ok hi, .ok lo => (cursorSet ipc .pc (bigEndian hi lo) s).andThen (cursorAdvance ipc .pc)

/-- `RET`: retreat SP, then pop (R175). -/
def execRet (s : State) : Outcome := ((cursorRetreat s.pc .sp s).andThen (popPc s.pc)).finish

/-- `JP V0,addr`: the target is `nnn + V0`, exact; a self-jump halts only under BNNN_SELF_JUMP_HALTS
(R177). -/
def execJpV0 (nnn : Addr12) (s : State) : Outcome :=
  (cursorSet s.pc .pc (indexedTarget nnn s)
    (exitWhen (s.cfg.bnnnSelfJumpHalts && decide (indexedTarget nnn s = s.pc)) s)).finish

/-- `SYS addr`: nothing but the advance under SYS_POLICY = `noop`. Under `fault` the word is an unknown
opcode, which the decoder says before this meaning is reached (R178). -/
def execSys (nnn : Addr12) (s : State) : Outcome :=
  match s.cfg.sysPolicy with
  | .noop => (advancePc s).finish
  | .fault => (raiseFatal (.unknownOpcode (encode (.sys nnn)) s.pc) s).finish

end Sys2Proof.Machine
end

