-- ==== Sys2Proof/Machine/Flags.lean ====
section
/-! DEFINITION. The results of 8-bit arithmetic and every flag VF receives (R23, R140, R141, R153). -/

namespace Sys2Proof.Machine

/-- A condition as the byte a flag is: 1 or 0. -/
def flagByte (b : Bool) : Byte := if b then 1#8 else 0#8

/-- The carry of `ADD Vx,Vy`: the exact sum is over 255 (R148). -/
def carryFlag (a b : Byte) : Byte := flagByte (decide (255 < a.toNat + b.toNat))

/-- The flag of a subtraction `a - b`: 1 iff NO borrow occurred, `a >= b` (R149, R150, C9). -/
def noBorrowFlag (a b : Byte) : Byte := flagByte (decide (b.toNat ≤ a.toNat))

/-- The flag of `SHR`: the least significant bit of the value before the shift (R151). -/
def shiftRightFlag (src : Byte) : Byte := flagByte (src.getLsbD 0)

/-- The flag of `SHL`: the most significant bit of the value before the shift (R152). -/
def shiftLeftFlag (src : Byte) : Byte := flagByte (src.getLsbD 7)

/-- The flag of `DRW`: some pixel went from on to off (R234). -/
def collisionFlag (hit : Bool) : Byte := flagByte hit

/-- `V[x] <- r`, then `VF <- f`: the flag is written last, so it is what VF holds when x = 0xF (R24). -/
def writeResultAndFlag (x : Reg) (r f : Byte) (s : State) : State := (s.setV x r).setV flagReg f

/-- `V[x] <- r` of a logical operation, then `VF <- 0` when LOGIC_VF_RESET (R145 to R147). -/
def writeLogicResult (x : Reg) (r : Byte) (s : State) : State :=
  if s.cfg.logicVfReset then writeResultAndFlag x r 0#8 s else s.setV x r

end Sys2Proof.Machine
end

