-- ==== Sys2Proof/Machine/Display.lean ====
section
/-! DEFINITION. The display engine (R230 to R248): pixels in either output mode, the XOR blit with
collision, `DRW` and `CLS`. A picture is reached only through the three operations of the sink, `pixel`
(read), `xorPixel` (xor_update) and `clearDisplay` (clear), in external mode on the bit plane the sink
owns (R245) and in inline mode on the framebuffer bytes (R39). -/

namespace Sys2Proof.Machine

/-- The address of the framebuffer byte of pixel (px, py) (R39). -/
def pixelByte (c : Config) (px py : Nat) : Nat := c.displayStart + 8 * py + px / 8

/-- The bit of that byte: bit 7 is the leftmost (R39). -/
def pixelBit (px : Nat) : Nat := 7 - px % 8

/-- The index of a pixel in the row-major order of the snapshot and the sink (R38). -/
def pixelIndex (px py : Nat) : Nat := py * displayW + px

/-- `Pixel(px, py)` (R11, R39): the sink's `read` (R245). -/
def State.pixel (s : State) (px py : Nat) : Bool :=
  match s.cfg.displayMode with
  | .inline => (s.readMem (pixelByte s.cfg px py)).getLsbD (pixelBit px)
  | .external => s.fb.getLsbD (pixelIndex px py)

/-- `Pixel(px, py) <- Pixel(px, py) XOR 1` (R231). -/
def State.flipPixel (px py : Nat) (s : State) : State :=
  match s.cfg.displayMode with
  | .inline =>
    s.writeMem (pixelByte s.cfg px py) (s.readMem (pixelByte s.cfg px py) ^^^ (1#8 <<< pixelBit px))
  | .external => { s with fb := s.fb ^^^ (1#2048 <<< pixelIndex px py) }

/-- PixelXor: flip the pixel and answer its old value, which is 1 on a collision (R231): the sink's
`xor_update` (R245). -/
def xorPixel (p : Nat × Nat) (s : State) : Bool × State := (s.pixel p.1 p.2, s.flipPixel p.1 p.2)

/-- The pixels a sprite row lights from column `xs` in row `py`, left to right, wrapping at the right
edge: bit 7 − c of the row is the pixel c columns on (R232). -/
def rowPixels (xs py : Nat) (row : Byte) : List (Nat × Nat) :=
  ((List.range 8).filter (fun c => row.getLsbD (7 - c))).map (fun c => ((xs + c) % displayW, py))

/-- The pixels a sprite lights, in the order of R240: row by row from `ys` down, wrapping at the bottom
edge. These are the `xor_update` calls of a DRW (R245). -/
def spritePixels (xs ys : Nat) : List Byte → List (Nat × Nat)
  | [] => []
  | row :: rows => rowPixels xs (ys % displayH) row ++ spritePixels xs (ys + 1) rows

/-- PixelXor at each pixel in turn; the answer is whether any of them collided (R234). -/
def blit : List (Nat × Nat) → State → Bool × State
  | [], s => (false, s)
  | p :: ps, s =>
    let rest := blit ps (xorPixel p s).2
    ((xorPixel p s).1 || rest.1, rest.2)

/-- BlitRow: the same row in inline mode as whole framebuffer bytes, split by a right and a left shift
where it straddles two (R233). `DRW` is defined by the pixels; that this is equal is a claim. -/
def blitRowBytes (xs py : Nat) (row : Byte) (s : State) : Bool × State :=
  let a := s.cfg.displayStart + 8 * py + xs / 8
  let part1 := row >>> (xs % 8)
  let hit1 := decide (s.readMem a &&& part1 ≠ 0#8)
  let s1 := s.writeMem a (s.readMem a ^^^ part1)
  if xs % 8 = 0 then (hit1, s1)
  else
    let b := s.cfg.displayStart + 8 * py + (xs / 8 + 1) % 8
    let part2 := row <<< (8 - xs % 8)
    (hit1 || decide (s1.readMem b &&& part2 ≠ 0#8), s1.writeMem b (s1.readMem b ^^^ part2))

/-- The rows of a sprite one after another as framebuffer bytes (R233). -/
def blitSpriteBytes (xs ys : Nat) : List Byte → State → Bool × State
  | [], s => (false, s)
  | row :: rows, s =>
    let r := blitRowBytes xs (ys % displayH) row s
    let rest := blitSpriteBytes xs (ys + 1) rows r.2
    (r.1 || rest.1, rest.2)

/-- The framebuffer of a clear display. -/
def blankFramebuffer : List Byte := List.replicate framebufferBytes 0x00#8

/-- ClearDisplay (R241): the framebuffer bytes to 0x00, or the sink's `clear` (R245). -/
def clearDisplay (s : State) : State :=
  match s.cfg.displayMode with
  | .inline => { s with mem := s.mem.writeRange s.cfg s.cfg.displayStart blankFramebuffer }
  | .external => { s with fb := 0#2048 }

/-- `DRW Vx,Vy,n`: the sprite bytes are read first, all of them; then the pixels; then VF (R240). -/
def execDrw (x y : Reg) (n : RowCount) (s : State) : Outcome :=
  (match loadBytes s.pc s.i s n.val with
    | .error f => raiseFatal f s
    | .ok rows =>
      let drawn := blit (spritePixels (drawColumn x s) (drawRow y s) rows) s
      advancePc (drawn.2.setV flagReg (collisionFlag drawn.1))).finish

/-- `CLS` (R241). -/
def execCls (s : State) : Outcome := (advancePc (clearDisplay s)).finish

end Sys2Proof.Machine
end

