-- ==== Sys2Proof/Machine/IndexTimerRnd.lean ====
section
/-! DEFINITION. Index, timer and random instructions (R190 to R197). The execution instant and the random
byte are the inputs of the step under way (R330). -/

namespace Sys2Proof.Machine

/-- `LD I,addr` (R191). -/
def execLdI (nnn : Addr12) (s : State) : Outcome :=
  ((cursorSet s.pc .i (absolute nnn) s).andThen advancePc).finish

/-- `LD Vx,DT`: the stored counter, not recomputed from the clock (R192). -/
def execLdVxDt (x : Reg) (s : State) : Outcome := (advancePc (s.setV x s.dt.count)).finish

/-- `LD DT,Vx` (R193). -/
def execLdDtVx (x : Reg) (s : State) : Outcome :=
  (advancePc { s with dt := Timer.set (s.getV x) s.env.current.tExec }).finish

/-- `LD ST,Vx` (R194). -/
def execLdStVx (x : Reg) (s : State) : Outcome :=
  (advancePc { s with st := Timer.set (s.getV x) s.env.current.tExec }).finish

/-- `ADD I,Vx`: the exact sum through CursorSet, no flag (R195). -/
def execAddI (x : Reg) (s : State) : Outcome :=
  ((cursorSet s.pc .i (indexSum x s) s).andThen advancePc).finish

/-- `LD I,FONT(Vx)` (R196). -/
def execLdFont (x : Reg) (s : State) : Outcome :=
  (match fontDigit x s with
    | .error f => raiseFatal f s
    | .ok d => (cursorSet s.pc .i (glyphAddress s.cfg d) s).andThen advancePc).finish

/-- `RND Vx,byte` (R197). -/
def execRnd (x : Reg) (kk : Byte) (s : State) : Outcome :=
  (advancePc (s.setV x (s.env.current.rnd &&& kk))).finish

end Sys2Proof.Machine
end

