-- ==== Sys2Proof/Machine/Input.lean ====
section
/-! DEFINITION. The key instructions, which are inert: each advances PC by one step and does nothing else
(R260). -/

namespace Sys2Proof.Machine

/-- `SKP Vx`: never skips (R261). -/
def execSkp (_x : Reg) (s : State) : Outcome := (advancePc s).finish

/-- `SKNP Vx`: never skips (R262). -/
def execSknp (_x : Reg) (s : State) : Outcome := (advancePc s).finish

/-- `LD Vx,K`: never waits, and does not write Vx (R263). -/
def execLdVxK (_x : Reg) (s : State) : Outcome := (advancePc s).finish

end Sys2Proof.Machine
end

