-- ==== Sys2Proof/Machine/LoadArith.lean ====
section
/-! DEFINITION. The load and arithmetic family (R140 to R154). Operands are read before any write, the
flag is written after the result, and PC advances last (R140). -/

namespace Sys2Proof.Machine

/-- `LD Vx,byte` (R142). -/
def execLdImm (x : Reg) (kk : Byte) (s : State) : Outcome := (advancePc (s.setV x kk)).finish

/-- `ADD Vx,byte`: modulo 256, no flag (R143). -/
def execAddImm (x : Reg) (kk : Byte) (s : State) : Outcome :=
  (advancePc (s.setV x (s.getV x + kk))).finish

/-- `LD Vx,Vy` (R144). -/
def execLdReg (x y : Reg) (s : State) : Outcome := (advancePc (s.setV x (s.getV y))).finish

/-- `OR Vx,Vy` (R145). -/
def execOrReg (x y : Reg) (s : State) : Outcome :=
  (advancePc (writeLogicResult x (s.getV x ||| s.getV y) s)).finish

/-- `AND Vx,Vy` (R146). -/
def execAndReg (x y : Reg) (s : State) : Outcome :=
  (advancePc (writeLogicResult x (s.getV x &&& s.getV y) s)).finish

/-- `XOR Vx,Vy` (R147). -/
def execXorReg (x y : Reg) (s : State) : Outcome :=
  (advancePc (writeLogicResult x (s.getV x ^^^ s.getV y) s)).finish

/-- `ADD Vx,Vy` (R148). -/
def execAddReg (x y : Reg) (s : State) : Outcome :=
  (advancePc (writeResultAndFlag x (s.getV x + s.getV y) (carryFlag (s.getV x) (s.getV y)) s)).finish

/-- `SUB Vx,Vy`: Vx − Vy (R149). -/
def execSubReg (x y : Reg) (s : State) : Outcome :=
  (advancePc (writeResultAndFlag x (s.getV x - s.getV y) (noBorrowFlag (s.getV x) (s.getV y)) s)).finish

/-- `SUBN Vx,Vy`: Vy − Vx (R150). -/
def execSubn (x y : Reg) (s : State) : Outcome :=
  (advancePc (writeResultAndFlag x (s.getV y - s.getV x) (noBorrowFlag (s.getV y) (s.getV x)) s)).finish

/-- `SHR Vx,Vy` (R151). -/
def execShr (x y : Reg) (s : State) : Outcome :=
  (advancePc (writeResultAndFlag x (shiftOperand x y s >>> 1) (shiftRightFlag (shiftOperand x y s)) s)).finish

/-- `SHL Vx,Vy` (R152). -/
def execShl (x y : Reg) (s : State) : Outcome :=
  (advancePc (writeResultAndFlag x (shiftOperand x y s <<< 1) (shiftLeftFlag (shiftOperand x y s)) s)).finish

end Sys2Proof.Machine
end

