-- ==== Sys2Proof/Machine/Skip.lean ====
section
/-! DEFINITION. The skip family (R120 to R125). -/

namespace Sys2Proof.Machine

/-- Advance PC twice when the condition holds, once otherwise (R120). The error of either advance
records the address of the skip. -/
def skipWhen (cond : Bool) (s : State) : Flow :=
  if cond then (cursorAdvance s.pc .pc s).andThen (cursorAdvance s.pc .pc)
  else cursorAdvance s.pc .pc s

/-- `SE Vx,byte` (R121). -/
def execSeImm (x : Reg) (kk : Byte) (s : State) : Outcome :=
  (skipWhen (decide (s.getV x = kk)) s).finish

/-- `SNE Vx,byte` (R122). -/
def execSneImm (x : Reg) (kk : Byte) (s : State) : Outcome :=
  (skipWhen (decide (s.getV x ≠ kk)) s).finish

/-- `SE Vx,Vy` (R123). -/
def execSeReg (x y : Reg) (s : State) : Outcome :=
  (skipWhen (decide (s.getV x = s.getV y)) s).finish

/-- `SNE Vx,Vy` (R124). -/
def execSneReg (x y : Reg) (s : State) : Outcome :=
  (skipWhen (decide (s.getV x ≠ s.getV y)) s).finish

end Sys2Proof.Machine
end

