-- ==== Sys2Proof/Machine/Step.lean ====
section
/-! DEFINITION. One step of the machine (R104 to R107). -/

namespace Sys2Proof.Machine

/-- Fetch, decode and execute the instruction at PC (R104). -/
def runInstruction (s : State) : Host.Outcome State Fault Refusal :=
  match fetch s with
  | .error f => rejectFetch f s
  | .ok op =>
    match decode s.cfg op with
    | .unknown w => rejectWord w s
    | .known i => exec i s

/-- One call of `step` (R104). A configuration that fails R341 is no machine, a Faulted machine has no
step (R106), and the host's instants never go backwards (R326). A step with EXIT = 1 runs as any other
(R107). -/
def step (s : State) : Host.Outcome State Fault Refusal :=
  if s.cfg.Valid then
    match s.status with
    | .faulted f => .fault (.stopped f)
    | .running =>
      if s.env.admissible then
        match runInstruction s with
        | .next t => .next (endStep t)
        | .fault r => .fault r
        | .refused r => .refused r
      else .refused .clockBackwards
  else .refused .illegalConfig

/-- The state with the instruction of a table row's word stored where the next step fetches it. An
instruction is one 16-bit word (R90), so this is its two bytes at PC. -/
def State.withFetchWord (s : State) (nbits w : Nat) : State := placeWord (tableWord nbits w) s

end Sys2Proof.Machine
end

