-- ==== Sys2Proof/Machine/HostView.lean ====
section
/-! DEFINITION. What the host reads between steps (R331): the exit flag, the status with its code, the
beep level and the snapshot; and the printed form of an instruction (R110). Nothing here changes state. -/

namespace Sys2Proof.Machine

/-- `exited`: EXIT, readable after each step (R36, R331). -/
def State.exited (s : State) : Bool := s.exit

/-- The numeric code of a fatal error (R300). -/
def Fatal.code : Fatal → Nat
  | .cursorRange _ _ _ => 1
  | .unknownOpcode _ _ => 2
  | .oversizedLoad _ _ => 3
  | .memBounds _ _ => 4
  | .fontDigit _ _ => 5

/-- `status` as a code: none while Running, else the code of the cause (R300, R331). -/
def State.statusCode (s : State) : Option Nat :=
  match s.status with
  | .running => none
  | .faulted f => some f.code

/-- `beep`: active(ST) (R324). -/
def State.beep (s : State) : Bool := s.st.active

/-- `snapshot`: the 2048 pixels, row-major: index `py*64 + px` is `Pixel(px, py)` (R246). -/
def State.snapshot (s : State) : List Bool :=
  (List.range (displayW * displayH)).map (fun k => s.pixel (k % displayW) (k / displayW))

/-! ## Printing (R110) -/

/-- One uppercase hex digit. -/
def hexDigit (k : Nat) : String := ("0123456789ABCDEF".toList.getD (k % 16) '0').toString

/-- A register as `V` and its hex digit. -/
def showReg (x : Reg) : String := "V" ++ hexDigit x.val

/-- A byte as `0x` and two hex digits. -/
def showByte (b : Byte) : String := "0x" ++ hexDigit (b.toNat / 16) ++ hexDigit b.toNat

/-- An address as `0x` and three hex digits. -/
def showAddr (a : Addr12) : String :=
  "0x" ++ hexDigit (a.toNat / 256) ++ hexDigit (a.toNat / 16) ++ hexDigit a.toNat

/-- Two registers as operands. -/
def showRegs (x y : Reg) : String := showReg x ++ "," ++ showReg y

/-- A register and a byte as operands. -/
def showRegByte (x : Reg) (kk : Byte) : String := showReg x ++ "," ++ showByte kk

/-- An instruction as a model's printer spells it (R110). -/
def printInstr : Instr → String
  | .sys nnn => "SYS " ++ showAddr nnn
  | .cls => "CLS"
  | .ret => "RET"
  | .jp nnn => "JP " ++ showAddr nnn
  | .call nnn => "CALL " ++ showAddr nnn
  | .seImm x kk => "SE " ++ showRegByte x kk
  | .sneImm x kk => "SNE " ++ showRegByte x kk
  | .seReg x y => "SE " ++ showRegs x y
  | .ldImm x kk => "LD " ++ showRegByte x kk
  | .addImm x kk => "ADD " ++ showRegByte x kk
  | .ldReg x y => "LD " ++ showRegs x y
  | .orReg x y => "OR " ++ showRegs x y
  | .andReg x y => "AND " ++ showRegs x y
  | .xorReg x y => "XOR " ++ showRegs x y
  | .addReg x y => "ADD " ++ showRegs x y
  | .subReg x y => "SUB " ++ showRegs x y
  | .shr x y => "SHR " ++ showRegs x y
  | .subn x y => "SUBN " ++ showRegs x y
  | .shl x y => "SHL " ++ showRegs x y
  | .sneReg x y => "SNE " ++ showRegs x y
  | .ldI nnn => "LD I," ++ showAddr nnn
  | .jpV0 nnn => "JP V0," ++ showAddr nnn
  | .rnd x kk => "RND " ++ showRegByte x kk
  | .drw x y n => "DRW " ++ showRegs x y ++ "," ++ toString n.val
  | .skp x => "SKP " ++ showReg x
  | .sknp x => "SKNP " ++ showReg x
  | .ldVxDt x => "LD " ++ showReg x ++ ",DT"
  | .ldVxK x => "LD " ++ showReg x ++ ",K"
  | .ldDtVx x => "LD DT," ++ showReg x
  | .ldStVx x => "LD ST," ++ showReg x
  | .addI x => "ADD I," ++ showReg x
  | .ldFont x => "LD I,FONT(" ++ showReg x ++ ")"
  | .ldB x => "LD B," ++ showReg x
  | .ldMemVx x => "LD [I]," ++ showReg x
  | .ldVxMem x => "LD " ++ showReg x ++ ",[I]"

end Sys2Proof.Machine
end

