-- ==== Sys2Proof/Machine/Init.lean ====
section
/-! DEFINITION. Initialisation with a program image: how a program comes to run (R340 to R347). -/

namespace Sys2Proof.Machine

/-- The size of the Program region, the most bytes an image may have (R344). -/
def programBytes (c : Config) : Nat := c.stackStart - programStart

/-- `init(image, t0)` (R340): the state of R42 with the image at 0x200 onwards; a fatal error, and no
machine, when the image is longer than the Program region, nothing being loaded (R344); no machine either
when the configuration fails R341. -/
def init (c : Config) (image : List Byte) (t0 : Instant) : Outcome :=
  if c.Valid then
    match (State.initial c t0).mem.load c programStart (programBytes c) image with
    | none => .fault (.initFailed (.oversizedLoad image.length (programBytes c)))
    | some m => .next { State.initial c t0 with mem := m }
  else .refused .illegalConfig

/-- The same machine with the inputs of the host's next calls written down (R330, R332). -/
def State.withCalls (s : State) (calls : List StepInput) : State :=
  { s with env := { s.env with pending := calls } }

end Sys2Proof.Machine
end

