-- ==== Sys2Proof/Machine/Transaction.lean ====
section
/-! DEFINITION. The two calls of the core's interface as the spec gives them (R331): functions of the
configuration, the inputs of the call and the state of the core alone, none of the first two being stored
in it (R21). -/

namespace Sys2Proof.Machine

/-- The core in a configuration, under a host about to make one call of `step`. -/
def CoreState.under (m : CoreState) (c : Config) (input : StepInput) : State where
  toCoreState := m
  cfg := c
  env := { pending := [input], clock := input.tExec, draws := 0 }

/-- What an answer says of the core. -/
def coreOf (r : Outcome) : Host.Outcome CoreState Fault Refusal :=
  match r with
  | .next s => .next s.toCoreState
  | .fault e => .fault e
  | .refused e => .refused e

/-- `step(t_exec, t_tick, rnd)` of the core (R104, R331). -/
def coreStep (c : Config) (input : StepInput) (m : CoreState) : Host.Outcome CoreState Fault Refusal :=
  coreOf (step (m.under c input))

/-- `init(image, t0)` of the core (R331, R340). -/
def coreInit (c : Config) (image : List Byte) (t0 : Instant) : Host.Outcome CoreState Fault Refusal :=
  coreOf (init c image t0)

end Sys2Proof.Machine
end

