-- ==== Sys2Proof/WellFormed.lean ====
section
/-! DEFINITION. Which terms of `Instr` are instructions of a configuration. The field types already bound
every operand; what is left is family 0, whose words are shared (R98, R102). -/

namespace Sys2Proof

/-- The address of a `SYS` is none of the two that make the word a `CLS` or a `RET` (R98, R178). -/
abbrev sysAddrFree (nnn : Addr12) : Prop := nnn ≠ 0x0E0#12 ∧ nnn ≠ 0x0EE#12

/-- An instruction a configuration has: a `SYS` whose word is not `CLS` or `RET`, and only under
SYS_POLICY = `noop` (R98); every other term, whatever its operands. -/
def Instr.WellFormed (c : Config) : Instr → Bool
  | .sys nnn => decide (c.sysPolicy = .noop) && decide (sysAddrFree nnn)
  | .cls | .ret | .jp _ | .call _ | .seImm _ _ | .sneImm _ _ | .seReg _ _ | .ldImm _ _ | .addImm _ _
  | .ldReg _ _ | .orReg _ _ | .andReg _ _ | .xorReg _ _ | .addReg _ _ | .subReg _ _ | .shr _ _
  | .subn _ _ | .shl _ _ | .sneReg _ _ | .ldI _ | .jpV0 _ | .rnd _ _ | .drw _ _ _ | .skp _ | .sknp _
  | .ldVxDt _ | .ldVxK _ | .ldDtVx _ | .ldStVx _ | .addI _ | .ldFont _ | .ldB _ | .ldMemVx _
  | .ldVxMem _ => true

end Sys2Proof
end

