-- ==== Sys2Proof/Safety.lean ====
section
/-! DEFINITION. The terms the claims use: the invariant of the machine, how a run ends, what an
instruction may write (its footprint), and a sprite's picture in closed form. -/

namespace Sys2Proof.Safety

open Sys2Proof.Machine

/-- What holds of every state between steps: a configuration that is a machine (R341); every cursor in
its range (R25), SP a whole number of entries above S (R73); memory in canonical form; no bit plane
beside the inline framebuffer (R39); and the clock and the timer anchors ordered as R326 orders them. -/
structure Inv (s : State) : Prop where
  valid : s.cfg.Valid
  pcInRange : cursorInRange s.cfg .pc s.pc = true
  spInRange : cursorInRange s.cfg .sp s.sp = true
  spEven : s.sp % 2 = 0
  iInRange : cursorInRange s.cfg .i s.i = true
  memWf : Memory.wf s.cfg s.mem
  planeUnused : s.cfg.displayMode = .inline → s.fb = 0#2048
  clockNonneg : 0 ≤ s.env.clock
  dtAnchor : 0 ≤ s.dt.anchor ∧ s.dt.anchor ≤ s.env.clock
  stAnchor : 0 ≤ s.st.anchor ∧ s.st.anchor ≤ s.env.clock

/-- The normal end of a run: a step after which EXIT = 1 (R311). -/
abbrev endedNormally (s : State) : Prop := s.exit = true ∧ s.status = .running

/-- The error end of a run, and its cause: STATUS = Faulted (R311). -/
abbrev endedInError (s : State) (f : Fatal) : Prop := s.status = .faulted f

/-- PC moved on by `d` bytes is in the Program region (R26). -/
abbrev PcFits (s : State) (d : Nat) : Prop :=
  programStart ≤ s.pc + d ∧ s.pc + d < s.cfg.stackStart

/-- A machine the host may step, with a call its clock allows (R106, R326, R341). -/
abbrev Steppable (s : State) : Prop :=
  s.cfg.Valid ∧ s.status = .running ∧ s.env.admissible = true

/-- An answer is a next state in which the fatal error `f` has stopped the machine (R301). -/
def StopsWith (r : Outcome) (f : Fatal) : Prop := ∃ t, r = .next t ∧ endedInError t f

/-- What an instruction may write beside PC and STATUS: registers, the other cursors, the timers, EXIT,
the external bit plane, and `memLen` bytes of memory from `memStart`. -/
structure Footprint where
  regs : List Reg := []
  sp : Bool := false
  i : Bool := false
  dt : Bool := false
  st : Bool := false
  exit : Bool := false
  plane : Bool := false
  memStart : Nat := 0
  memLen : Nat := 0
  deriving DecidableEq, Repr

/-- The footprint of an instruction that writes nothing beside PC and STATUS. -/
def writesNothing : Footprint := {}

/-- Everything outside the footprint is as before; STATUS is as before unless a fatal error came; the
configuration and the host's side never change in an instruction. -/
def Footprint.Respected (f : Footprint) (s t : State) : Prop :=
  (∀ r, r ∉ f.regs → t.getV r = s.getV r) ∧
  (f.sp = false → t.sp = s.sp) ∧ (f.i = false → t.i = s.i) ∧
  (f.dt = false → t.dt = s.dt) ∧ (f.st = false → t.st = s.st) ∧
  (f.exit = false → t.exit = s.exit) ∧ (f.plane = false → t.fb = s.fb) ∧
  (∀ a, a < f.memStart ∨ f.memStart + f.memLen ≤ a → t.readMem a = s.readMem a) ∧
  (t.status = s.status ∨ ∃ e, t.status = .faulted e) ∧
  t.cfg = s.cfg ∧ t.env = s.env

/-- An instruction writes at most a footprint, whether it completes or a fatal error ends it. -/
def WritesOnly (i : Instr) (f : State → Footprint) : Prop :=
  ∀ s t, exec i s = .next t → (f s).Respected s t

/-- The bytes of the picture in inline mode, or the bit plane in external mode. -/
def pictureFootprint (regs : List Reg) (s : State) : Footprint :=
  match s.cfg.displayMode with
  | .inline => { regs := regs, memStart := s.cfg.displayStart, memLen := framebufferBytes }
  | .external => { regs := regs, plane := true }

/-- The `n` bytes of memory at I, the rows of a sprite (R232). -/
def rowsAt (s : State) (n : Nat) : List Byte := (List.range n).map (fun r => s.readMem (s.i + r))

/-- A sprite at column `xs`, row `ys` lights a pixel: the pixel is `dx < 8` columns and `dy` rows on,
wrapping, and bit `7 - dx` of row `dy` is set (R232). A row past the last is no row. -/
def spriteCovers (xs ys : Nat) (rows : List Byte) (px py : Nat) : Bool :=
  decide ((px + displayW - xs) % displayW < 8) &&
    (rows.getD ((py + displayH - ys) % displayH) 0#8).getLsbD (7 - (px + displayW - xs) % displayW)

/-- An instruction that writes VF as a flag (R23). -/
def writesFlag (c : Config) : Instr → Bool
  | .addReg _ _ | .subReg _ _ | .shr _ _ | .subn _ _ | .shl _ _ | .drw _ _ _ => true
  | .orReg _ _ | .andReg _ _ | .xorReg _ _ => c.logicVfReset
  | .sys _ | .cls | .ret | .jp _ | .call _ | .seImm _ _ | .sneImm _ _ | .seReg _ _ | .ldImm _ _
  | .addImm _ _ | .ldReg _ _ | .sneReg _ _ | .ldI _ | .jpV0 _ | .rnd _ _ | .skp _ | .sknp _
  | .ldVxDt _ | .ldVxK _ | .ldDtVx _ | .ldStVx _ | .addI _ | .ldFont _ | .ldB _ | .ldMemVx _
  | .ldVxMem _ => false

/-- An instruction whose destination is VF as an ordinary register (R23). -/
def destinationIsFlag : Instr → Bool
  | .ldImm x _ | .addImm x _ | .ldReg x _ | .orReg x _ | .andReg x _ | .xorReg x _ | .addReg x _
  | .subReg x _ | .shr x _ | .subn x _ | .shl x _ | .rnd x _ | .ldVxDt x | .ldVxMem x => decide (x = flagReg)
  | .sys _ | .cls | .ret | .jp _ | .call _ | .seImm _ _ | .sneImm _ _ | .seReg _ _ | .sneReg _ _
  | .ldI _ | .jpV0 _ | .drw _ _ _ | .skp _ | .sknp _ | .ldVxK _ | .ldDtVx _ | .ldStVx _ | .addI _
  | .ldFont _ | .ldB _ | .ldMemVx _ => false

/-- An instruction whose only check is its final PC advance (R140, R190, R241, R260, R178). -/
def onlyAdvances (c : Config) : Instr → Bool
  | .sys _ => decide (c.sysPolicy = .noop)
  | .cls | .ldImm _ _ | .addImm _ _ | .ldReg _ _ | .orReg _ _ | .andReg _ _ | .xorReg _ _ | .addReg _ _
  | .subReg _ _ | .shr _ _ | .subn _ _ | .shl _ _ | .rnd _ _ | .skp _ | .sknp _ | .ldVxDt _ | .ldVxK _
  | .ldDtVx _ | .ldStVx _ => true
  | .ret | .jp _ | .call _ | .seImm _ _ | .sneImm _ _ | .seReg _ _ | .sneReg _ _ | .ldI _ | .jpV0 _
  | .drw _ _ _ | .addI _ | .ldFont _ | .ldB _ | .ldMemVx _ | .ldVxMem _ => false

/-- An instruction that reads an input of the step: its execution instant or its random byte (R330). -/
def readsInput : Instr → Bool
  | .rnd _ _ | .ldDtVx _ | .ldStVx _ => true
  | .sys _ | .cls | .ret | .jp _ | .call _ | .seImm _ _ | .sneImm _ _ | .seReg _ _ | .ldImm _ _
  | .addImm _ _ | .ldReg _ _ | .orReg _ _ | .andReg _ _ | .xorReg _ _ | .addReg _ _ | .subReg _ _
  | .shr _ _ | .subn _ _ | .shl _ _ | .sneReg _ _ | .ldI _ | .jpV0 _ | .drw _ _ _ | .skp _ | .sknp _
  | .ldVxDt _ | .ldVxK _ | .addI _ | .ldFont _ | .ldB _ | .ldMemVx _ | .ldVxMem _ => false

/-- An instruction that can change the picture in some mode (R248). -/
def mayDraw (c : Config) : Instr → Bool
  | .drw _ _ _ | .cls => true
  | .ldB _ | .ldMemVx _ => decide (c.displayMode = .inline)
  | .sys _ | .ret | .jp _ | .call _ | .seImm _ _ | .sneImm _ _ | .seReg _ _ | .ldImm _ _ | .addImm _ _
  | .ldReg _ _ | .orReg _ _ | .andReg _ _ | .xorReg _ _ | .addReg _ _ | .subReg _ _ | .shr _ _
  | .subn _ _ | .shl _ _ | .sneReg _ _ | .ldI _ | .jpV0 _ | .rnd _ _ | .skp _ | .sknp _ | .ldVxDt _
  | .ldVxK _ | .ldDtVx _ | .ldStVx _ | .addI _ | .ldFont _ | .ldVxMem _ => false

/-- A skip: it moves PC on by 4 when its condition holds and by 2 otherwise, and changes nothing else,
whatever bytes it skips (R120). -/
def SkipsWhen (i : Instr) (cond : State → Prop) : Prop :=
  ∀ s, PcFits s 2 →
    (¬ cond s → exec i s = .next { s with pc := s.pc + 2 }) ∧
    (cond s → PcFits s 4 → exec i s = .next { s with pc := s.pc + 4 }) ∧
    (cond s → ¬ PcFits s 4 →
      StopsWith (exec i s) (.cursorRange .pc ((s.pc + 4 : Nat) : Int) s.pc))

/-- An instruction completes in the state `s` where only PC, V and what `what` says have changed: PC is at
the next word, STATUS is as before. -/
def Completes (i : Instr) (s : State) (what : State → Prop) : Prop :=
  ∃ t, exec i s = .next t ∧ t.status = s.status ∧ t.pc = s.pc + 2 ∧ what t

/-- How many bits of a row's mask are set (R102). -/
def maskCount (r : OpcodeRow) : Nat := (List.range 16).countP r.maskBits.getLsbD

/-- A timer ticked at each instant of a list in turn. -/
def tickAll (T : Timer) (instants : List Instant) : Timer := instants.foldl Timer.tick T

end Sys2Proof.Safety
end

