-- ==== Sys2Proof/Certificates/Slice0/Obligations.lean ====
section
/-! DEFINITION. The statements for the provers, by part of the machine. -/

open Sys2Proof Sys2Proof.Machine Sys2Proof.Safety

/-! ## Encoding and decoding -/

/-- Decoding the word of any instruction a configuration has gives the instruction back, every operand
at every value. The bit patterns are the spec's general-knowledge ones (G2, assumption 12). -/
def Obligations.DecodeOfEncodeIsTheInstruction : Prop :=
  ∀ (c : Config) (i : Instr), i.WellFormed c = true → decode c (encode i) = .known i

/-- What a word decodes to is well formed and encodes to the same word, but for the low nibble that
families 5 and 9 ignore (R99; D19, G2, assumption 12). -/
def Obligations.EncodeOfDecodeIsTheWord : Prop :=
  ∀ (c : Config) (op : Word) (i : Instr), decode c op = .known i →
    i.WellFormed c = true ∧
      encode i = if op.family = 0x5#4 ∨ op.family = 0x9#4 then op &&& 0xFFF0#16 else op

/-- Every word is one instruction or Unknown, by the rows of the opcode table (R102): an instruction's row
matches its word, and of the rows that match, it has the most mask bits; an unknown word matches no row; and
the only rows that share a word are `SYS`'s and those of `CLS` and `RET`. The rows rest on the spec's own
choices: `SYS` has one only under SYS_POLICY = `noop` (D18, assumption 9), the masks of families 5 and 9
follow STRICT_5_9 (D19) and every pattern is general knowledge (G2; both assumption 12). -/
def Obligations.DecodeFollowsTheOpcodeTable : Prop :=
  ∀ (c : Config) (op : Word),
    (∀ i, decode c op = .known i →
      i.row c ∈ opcodeTable c ∧ (i.row c).covers op = true ∧
        ∀ r ∈ opcodeTable c, r.covers op = true → r = i.row c ∨ maskCount r < maskCount (i.row c)) ∧
    (∀ w, decode c op = .unknown w → w = op ∧ ∀ r ∈ opcodeTable c, r.covers op = false) ∧
    (∀ q ∈ opcodeTable c, ∀ r ∈ opcodeTable c, q ≠ r → q.covers op = true → r.covers op = true →
      (q = (Instr.sys 0).row c ∧ (r = Instr.cls.row c ∨ r = Instr.ret.row c)) ∨
      (r = (Instr.sys 0).row c ∧ (q = Instr.cls.row c ∨ q = Instr.ret.row c)))

/-- The unknown opcodes of the default configuration are exactly those R100 lists (R95 to R97; D18, D19,
G2, assumption 12). -/
def Obligations.UnknownOpcodesOfTheDefaults : Prop :=
  ∀ op : Word, decode defaultConfig op = .unknown op ↔
    (op.family = 0x8#4 ∧ op.low ∈ [0x8#4, 0x9#4, 0xA#4, 0xB#4, 0xC#4, 0xD#4, 0xF#4]) ∨
    (op.family = 0xE#4 ∧ op.kk ∉ [0x9E#8, 0xA1#8]) ∨
    (op.family = 0xF#4 ∧
      op.kk ∉ [0x07#8, 0x0A#8, 0x15#8, 0x18#8, 0x1E#8, 0x29#8, 0x33#8, 0x55#8, 0x65#8])

/-- Words written out from the spec's patterns decode to what its vectors say (T-X2, T-X4, T-X7, T-X9,
T-X11 to T-X13; G2, assumption 12). -/
def Obligations.SampleWordsDecode : Prop :=
  decodeBytes defaultConfig 0x00#8 0xE0#8 = .known .cls ∧
  decodeBytes defaultConfig 0x00#8 0xE1#8 = .known (.sys 0x0E1#12) ∧
  decodeBytes defaultConfig 0x91#8 0x2F#8 = .known (.sneReg 1 2) ∧
  decodeBytes defaultConfig 0xE0#8 0x9F#8 = .unknown 0xE09F#16 ∧
  decodeBytes defaultConfig 0xFF#8 0x65#8 = .known (.ldVxMem 0xF) ∧
  decodeBytes defaultConfig 0x8A#8 0xB4#8 = .known (.addReg 0xA 0xB) ∧
  decodeBytes defaultConfig 0xD0#8 0x15#8 = .known (.drw 0 1 5)

/-! ## The step -/

/-- R71: the byte at PC is the high byte of the fetched word, the byte at PC + 1 the low one. -/
def Obligations.FetchIsBigEndian : Prop :=
  ∀ s : State, s.pc + 1 < memEnd →
    ∃ op : Word, fetch s = .ok op ∧
      op.extractLsb' 8 8 = s.readMem s.pc ∧ op.extractLsb' 0 8 = s.readMem (s.pc + 1)

/-- A word stored at PC is what the next step fetches, with no intervening operation (R79). -/
def Obligations.FetchSeesTheStoredWord : Prop :=
  ∀ (s : State) (op : Word), s.pc + 1 < memEnd → fetch (placeWord op s) = .ok op

/-- A step whose bytes at PC decode to an instruction is that instruction's meaning, then, unless it
ended in a fatal error, the two ticks at the tick instant; the host's call is over; nothing else (R104,
R106). That a fatal error skips the ticks is the spec's decision D23 (assumption 10); that a step, a fatal one
included, takes the host's written call and moves the clock is the model's choice (assumption 2). -/
def Obligations.StepRunsTheDecodedInstruction : Prop :=
  ∀ (s u : State) (i : Instr), Steppable s → s.pc + 1 < memEnd →
    decodeBytes s.cfg (s.readMem s.pc) (s.readMem (s.pc + 1)) = .known i → exec i s = .next u →
    (u.status = .running → step s = .next { u with
      dt := u.dt.tick u.env.current.tTick, st := u.st.tick u.env.current.tTick, env := u.env.consumed }) ∧
    (u.status ≠ .running → step s = .next { u with env := u.env.consumed })

/-- A word that is no instruction stops the machine before any state changes, the timers included
(R100, R106; D23, assumption 11). -/
def Obligations.UnknownOpcodeChangesNothingElse : Prop :=
  ∀ (s : State) (op : Word), Steppable s → s.pc + 1 < memEnd →
    decodeBytes s.cfg (s.readMem s.pc) (s.readMem (s.pc + 1)) = .unknown op →
    op = wordOfBytes (s.readMem s.pc) (s.readMem (s.pc + 1)) ∧
    step s = .next { s with status := .faulted (.unknownOpcode op s.pc), env := s.env.consumed }

/-- A fatal error makes STATUS Faulted with its cause, and no step leads back (R37); a Faulted machine has no
step (R106, R301; D23), which the model says by the fault `stopped` (the model's choice, assumption 10). -/
def Obligations.FaultedIsFinal : Prop :=
  (∀ (f : Fatal) (s t : State), raiseFatal f s = .fatal t → t.status = .faulted f) ∧
  (∀ s t : State, step s = .next t → s.status = .running) ∧
  (∀ (s : State) (f : Fatal), s.cfg.Valid → s.status = .faulted f → step s = .fault (.stopped f))

/-- Every machine the host may step has a next state: no instruction and no data refuses or faults a
step (R104, R301). -/
def Obligations.EveryStepOfARunningMachineIsTaken : Prop :=
  ∀ s : State, Steppable s → ∃ t, step s = .next t

/-- A step is the spec's `step(t_exec, t_tick, rnd)` of the core in its configuration: the state of the core
after it is a function of the configuration, the inputs of the call and the state of the core before it, and
of nothing else; what stands beside the core in `State` (assumptions 1 and 2) stays, or drops the call that is
over (R9, R21, R104, R331). -/
def Obligations.StepIsTheCoreStepOnItsInputs : Prop :=
  ∀ s : State, Steppable s →
    (∀ t, step s = .next t → coreStep s.cfg s.env.current s.toCoreState = .next t.toCoreState ∧
      t.cfg = s.cfg ∧ t.env = s.env.consumed) ∧
    (∀ m, coreStep s.cfg s.env.current s.toCoreState = .next m → ∃ t, step s = .next t ∧ t.toCoreState = m)

/-- A step with EXIT = 1 at its `JP` to itself leaves V, I, SP, PC and memory, and EXIT set (R107; D24,
assumption 11). -/
def Obligations.StepAfterExitRepeatsTheJump : Prop :=
  ∀ (s : State) (nnn : Addr12), Inv s → Steppable s → s.exit = true → nnn.toNat = s.pc →
    decodeBytes s.cfg (s.readMem s.pc) (s.readMem (s.pc + 1)) = .known (.jp nnn) →
    ∃ t, step s = .next t ∧ t.pc = s.pc ∧ t.exit = true ∧ t.status = .running ∧
      t.v = s.v ∧ t.i = s.i ∧ t.sp = s.sp ∧ t.mem = s.mem ∧ t.fb = s.fb

/-! ## Invariants -/

/-- The state after reset meets the invariant. What reset holds is the default column of R8 with the empty
image at instant 0 (the model's choice) and the values of the spec's decision D6 (assumption 4). -/
def Obligations.ResetMeetsTheInvariant : Prop := Inv State.reset

/-- `init` with any image it accepts, at any instant of the clock, gives a state that meets it. -/
def Obligations.InitMeetsTheInvariant : Prop :=
  ∀ (c : Config) (image : List Byte) (t0 : Instant) (s : State), 0 ≤ t0 →
    init c image t0 = .next s → Inv s

/-- Every step keeps the invariant: the cursors stay in their ranges, SP stays a whole number of entries
above S, memory stays canonical, no anchor runs ahead of the clock. -/
def Obligations.StepKeepsTheInvariant : Prop :=
  ∀ s t : State, Inv s → step s = .next t → Inv t

/-- The configuration is fixed for the machine, and the clock never goes back (R326, R341). -/
def Obligations.StepKeepsConfigAndClockOrder : Prop :=
  ∀ s t : State, step s = .next t → t.cfg = s.cfg ∧ s.env.clock ≤ t.env.clock

/-- EXIT is sticky, and a step sets it only by a `JP` to itself, or by a `JP V0` to itself where
BNNN_SELF_JUMP_HALTS (R36, R173; D17, D24, assumption 11). -/
def Obligations.ExitIsSetOnlyBySelfJumpAndStays : Prop :=
  ∀ s t : State, step s = .next t →
    (s.exit = true → t.exit = true) ∧
    (s.exit = false → t.exit = true → ∃ op nnn, fetch s = .ok op ∧
      ((decode s.cfg op = .known (.jp nnn) ∧ nnn.toNat = s.pc) ∨
       (decode s.cfg op = .known (.jpV0 nnn) ∧ s.cfg.bnnnSelfJumpHalts = true ∧
         nnn.toNat + (s.getV 0).toNat = s.pc)))

/-! ## Skips -/

/-- The four skips compare as their names say, move PC on by 4 on a match and by 2 otherwise, and write
nothing else, whatever they skip (R120); past the region the second advance is fatal with the value it
attempted and the skip's own address (R13, R121 to R124; R28, which the spec derives; the record is D28; the
form of the answer and of the value is assumptions 10, 16 and 17). -/
def Obligations.SkipsMoveTwoOrFour : Prop :=
  (∀ x kk, SkipsWhen (.seImm x kk) (fun s => s.getV x = kk)) ∧
  (∀ x kk, SkipsWhen (.sneImm x kk) (fun s => s.getV x ≠ kk)) ∧
  (∀ x y, SkipsWhen (.seReg x y) (fun s => s.getV x = s.getV y)) ∧
  (∀ x y, SkipsWhen (.sneReg x y) (fun s => s.getV x ≠ s.getV y))

/-- An advance past the Program region is fatal at the value it attempted (R28, R140, R190, R210, R240): of
an instruction whose only check it is, of every skip, and of each instruction with earlier checks where those
pass (R303, D29; the form of the answer is D23 and assumption 10). -/
def Obligations.AdvancePastTheProgramIsFatal : Prop :=
  ∀ s : State, ¬ PcFits s 2 →
    let atAdvance (i : Instr) := StopsWith (exec i s) (.cursorRange .pc ((s.pc + 2 : Nat) : Int) s.pc)
    (∀ i, onlyAdvances s.cfg i = true → atAdvance i) ∧
    (∀ x kk, atAdvance (.seImm x kk) ∧ atAdvance (.sneImm x kk)) ∧
    (∀ x y, atAdvance (.seReg x y) ∧ atAdvance (.sneReg x y)) ∧
    (∀ nnn : Addr12, cursorInRange s.cfg .i nnn.toNat = true → atAdvance (.ldI nnn)) ∧
    (∀ x, cursorInRange s.cfg .i (s.i + (s.getV x).toNat) = true → atAdvance (.addI x)) ∧
    (∀ x, s.cfg.Valid → (s.getV x).toNat ≤ 0xF ∨ s.cfg.fontDigitPolicy = .mask → atAdvance (.ldFont x)) ∧
    (∀ x, s.i + 3 ≤ memEnd → atAdvance (.ldB x)) ∧
    (∀ x : Reg, s.i + x.val + 1 ≤ memEnd →
      (s.cfg.blockIncrementsI = true → cursorInRange s.cfg .i (s.i + x.val + 1) = true) →
      atAdvance (.ldMemVx x) ∧ atAdvance (.ldVxMem x)) ∧
    (∀ (x y : Reg) (n : RowCount), n.val = 0 ∨ s.i + n.val ≤ memEnd → atAdvance (.drw x y n))

/-! ## Loads and arithmetic -/

/-- `LD Vx,byte` and `LD Vx,Vy` complete with the immediate or the other register in Vx, `LD Vx,DT` with
the stored counter of DT (D22, assumption 7), and `RND Vx,byte` with the step's random byte masked,
whatever byte it is (D25, assumption 3; R142, R144, R192, R197). -/
def Obligations.LoadsCompleteWithTheirSource : Prop :=
  ∀ (s : State) (x y : Reg) (kk : Byte), PcFits s 2 →
    Completes (.ldImm x kk) s (fun t => t.getV x = kk) ∧
    Completes (.ldReg x y) s (fun t => t.getV x = s.getV y) ∧
    Completes (.ldVxDt x) s (fun t => t.getV x = s.dt.count) ∧
    Completes (.rnd x kk) s (fun t => t.getV x = s.env.current.rnd &&& kk)

/-- R153: the laws of the ALU for every x but 0xF, where result and flag are two registers. Results are
exact and reduced modulo 256; VF is the carry, NO borrow, or the bit shifted out. -/
def Obligations.AluLaws : Prop :=
  ∀ (s : State) (x y : Reg) (kk : Byte), PcFits s 2 → x ≠ 0xF →
    let a := (s.getV x).toNat
    let b := (s.getV y).toNat
    let src := match s.cfg.shiftSource with | .vy => b | .vx => a
    let logicFlag := if s.cfg.logicVfReset = true then 0#8 else s.getV 0xF
    Completes (.addImm x kk) s (fun t => (t.getV x).toNat = (a + kk.toNat) % 256 ∧ t.getV 0xF = s.getV 0xF) ∧
    Completes (.addReg x y) s (fun t => (t.getV x).toNat = (a + b) % 256 ∧
      t.getV 0xF = if 256 ≤ a + b then 1 else 0) ∧
    Completes (.subReg x y) s (fun t => ((t.getV x).toNat : Int) = ((a : Int) - b) % 256 ∧
      t.getV 0xF = if b ≤ a then 1 else 0) ∧
    Completes (.subn x y) s (fun t => ((t.getV x).toNat : Int) = ((b : Int) - a) % 256 ∧
      t.getV 0xF = if a ≤ b then 1 else 0) ∧
    Completes (.shr x y) s (fun t => (t.getV x).toNat = src / 2 ∧ (t.getV 0xF).toNat = src % 2) ∧
    Completes (.shl x y) s (fun t => (t.getV x).toNat = 2 * src % 256 ∧ (t.getV 0xF).toNat = src / 128) ∧
    Completes (.orReg x y) s (fun t => t.getV x = s.getV x ||| s.getV y ∧ t.getV 0xF = logicFlag) ∧
    Completes (.andReg x y) s (fun t => t.getV x = s.getV x &&& s.getV y ∧ t.getV 0xF = logicFlag) ∧
    Completes (.xorReg x y) s (fun t => t.getV x = s.getV x ^^^ s.getV y ∧ t.getV 0xF = logicFlag)

/-- With x = 0xF the flag is written last, so it is what VF holds and the result is lost; the operands
are the old registers (R24, R154; D9, assumption 6). `ADD Vx,byte` and a logical operation without
LOGIC_VF_RESET have no flag, so their result stays. -/
def Obligations.FlagSurvivesWhenVFIsTheDestination : Prop :=
  ∀ (s : State) (y : Reg) (kk : Byte), PcFits s 2 →
    let a := (s.getV 0xF).toNat
    let b := (s.getV y).toNat
    let src := match s.cfg.shiftSource with | .vy => b | .vx => a
    Completes (.addImm 0xF kk) s (fun t => (t.getV 0xF).toNat = (a + kk.toNat) % 256) ∧
    Completes (.addReg 0xF y) s (fun t => t.getV 0xF = if 256 ≤ a + b then 1 else 0) ∧
    Completes (.subReg 0xF y) s (fun t => t.getV 0xF = if b ≤ a then 1 else 0) ∧
    Completes (.subn 0xF y) s (fun t => t.getV 0xF = if a ≤ b then 1 else 0) ∧
    Completes (.shr 0xF y) s (fun t => (t.getV 0xF).toNat = src % 2) ∧
    Completes (.shl 0xF y) s (fun t => (t.getV 0xF).toNat = src / 128) ∧
    Completes (.orReg 0xF y) s (fun t =>
      t.getV 0xF = if s.cfg.logicVfReset = true then 0 else s.getV 0xF ||| s.getV y) ∧
    Completes (.andReg 0xF y) s (fun t =>
      t.getV 0xF = if s.cfg.logicVfReset = true then 0 else s.getV 0xF &&& s.getV y) ∧
    Completes (.xorReg 0xF y) s (fun t =>
      t.getV 0xF = if s.cfg.logicVfReset = true then 0 else s.getV 0xF ^^^ s.getV y)

/-- Only the flag writers and the instructions that name VF as their destination change VF (R23; C1,
D10, assumption 6). -/
def Obligations.OnlyFlagWritersChangeVF : Prop :=
  ∀ (i : Instr) (s t : State), exec i s = .next t → writesFlag s.cfg i = false →
    destinationIsFlag i = false → t.getV 0xF = s.getV 0xF

/-! ## Frames: what each group of instructions leaves unchanged, when it completes and when a fatal
error ends it -/

/-- Register instructions write their destination, and VF where they are flag writers; no memory, no
cursor but PC, no timer, no picture. -/
def Obligations.RegisterInstructionsWriteOnlyVxAndVF : Prop :=
  ∀ (x y : Reg) (kk : Byte),
    (∀ i ∈ [Instr.ldImm x kk, .addImm x kk, .ldReg x y, .rnd x kk, .ldVxDt x],
      WritesOnly i (fun _ => { regs := [x] })) ∧
    (∀ i ∈ [Instr.addReg x y, .subReg x y, .subn x y, .shr x y, .shl x y],
      WritesOnly i (fun _ => { regs := [x, 0xF] })) ∧
    (∀ i ∈ [Instr.orReg x y, .andReg x y, .xorReg x y],
      WritesOnly i (fun s => { regs := if s.cfg.logicVfReset = true then [x, 0xF] else [x] }))

/-- Skips, jumps, `SYS` and the key instructions write nothing but PC, and a jump EXIT. -/
def Obligations.SkipsAndJumpsWriteOnlyPC : Prop :=
  ∀ (x y : Reg) (kk : Byte) (nnn : Addr12),
    (∀ i ∈ [Instr.seImm x kk, .sneImm x kk, .seReg x y, .sneReg x y, .sys nnn, .skp x, .sknp x, .ldVxK x],
      WritesOnly i (fun _ => writesNothing)) ∧
    (∀ i ∈ [Instr.jp nnn, .jpV0 nnn], WritesOnly i (fun _ => { exit := true }))

/-- The index instructions write only I; the timer sets only their timer. -/
def Obligations.IndexAndTimerSetsWriteOnlyTheirs : Prop :=
  ∀ (x : Reg) (nnn : Addr12),
    (∀ i ∈ [Instr.ldI nnn, .addI x, .ldFont x], WritesOnly i (fun _ => { i := true })) ∧
    WritesOnly (.ldDtVx x) (fun _ => { dt := true }) ∧
    WritesOnly (.ldStVx x) (fun _ => { st := true })

/-- `CALL` writes SP and the two bytes of the entry at the old SP; `RET` writes only SP, the entry being
read and left (R41, R75; D26, assumption 5). -/
def Obligations.CallAndReturnWriteOnlySPAndTheEntry : Prop :=
  (∀ nnn, WritesOnly (.call nnn) (fun s => { sp := true, memStart := s.sp, memLen := 2 })) ∧
  WritesOnly .ret (fun _ => { sp := true })

/-- The data stores write the bytes from I on, 3 of `LD B,Vx` and x + 1 of `LD [I],Vx`, and no register;
`LD Vx,[I]` writes V0 to Vx and no memory. I changes only under BLOCK_INCREMENTS_I (R75, R210). -/
def Obligations.BlockTransfersWriteOnlyTheirRange : Prop :=
  ∀ x : Reg,
    WritesOnly (.ldB x) (fun s => { memStart := s.i, memLen := 3 }) ∧
    WritesOnly (.ldMemVx x) (fun s =>
      { i := s.cfg.blockIncrementsI, memStart := s.i, memLen := x.val + 1 }) ∧
    WritesOnly (.ldVxMem x) (fun s =>
      { regs := (List.finRange 16).filter (fun k => decide (k.val ≤ x.val)), i := s.cfg.blockIncrementsI })

/-- `DRW` writes VF and the picture, `CLS` the picture: in inline mode only framebuffer bytes, in external
mode only the bit plane (R75, R245). Which pixels change is DrawTogglesTheCoveredPixels. -/
def Obligations.DisplayInstructionsWriteOnlyThePicture : Prop :=
  (∀ x y n, WritesOnly (.drw x y n) (pictureFootprint [0xF])) ∧
  WritesOnly .cls (pictureFootprint [])

/-! ## Control flow -/

/-- `JP addr` completes at its target, odd or even, and sets EXIT exactly when the target is its own
address, even in the last slot of the region (R171, R172). -/
def Obligations.JumpCompletesAtItsTarget : Prop :=
  ∀ (s : State) (nnn : Addr12), programStart ≤ nnn.toNat → nnn.toNat < s.cfg.stackStart →
    ∃ t, exec (.jp nnn) s = .next t ∧ t.status = s.status ∧ t.pc = nnn.toNat ∧
      t.exit = (s.exit || decide (nnn.toNat = s.pc)) ∧ t.mem = s.mem

/-- `JP V0,addr` completes at nnn + V0, and sets EXIT on a self-jump only where BNNN_SELF_JUMP_HALTS
(R177; D17, assumption 11). -/
def Obligations.IndexedJumpCompletesAtTheSum : Prop :=
  ∀ (s : State) (nnn : Addr12), programStart ≤ nnn.toNat + (s.getV 0).toNat →
    nnn.toNat + (s.getV 0).toNat < s.cfg.stackStart →
    ∃ t, exec (.jpV0 nnn) s = .next t ∧ t.status = s.status ∧ t.pc = nnn.toNat + (s.getV 0).toNat ∧
      t.exit = (s.exit || (s.cfg.bnnnSelfJumpHalts && decide (nnn.toNat + (s.getV 0).toNat = s.pc)))

/-- A jump, a call or a return to an address outside the Program region is fatal with that address: the
call after its push, the return with the popped value (R170; D23, assumption 10). -/
def Obligations.TransferOutsideTheProgramIsFatal : Prop :=
  ∀ (s : State) (nnn : Addr12),
    (¬ (programStart ≤ nnn.toNat ∧ nnn.toNat < s.cfg.stackStart) →
      StopsWith (exec (.jp nnn) s) (.cursorRange .pc (nnn.toNat : Int) s.pc) ∧
      (s.sp + 1 < memEnd → cursorInRange s.cfg .sp (s.sp + 2) = true →
        StopsWith (exec (.call nnn) s) (.cursorRange .pc (nnn.toNat : Int) s.pc))) ∧
    (¬ (programStart ≤ nnn.toNat + (s.getV 0).toNat ∧ nnn.toNat + (s.getV 0).toNat < s.cfg.stackStart) →
      StopsWith (exec (.jpV0 nnn) s) (.cursorRange .pc ((nnn.toNat + (s.getV 0).toNat : Nat) : Int) s.pc)) ∧
    (∀ k, s.sp = k + 2 → k + 1 < memEnd → cursorInRange s.cfg .sp k = true →
      ¬ (programStart ≤ (s.readMem k).toNat * 256 + (s.readMem (k + 1)).toNat ∧
        (s.readMem k).toNat * 256 + (s.readMem (k + 1)).toNat < s.cfg.stackStart) →
      StopsWith (exec .ret s)
        (.cursorRange .pc (((s.readMem k).toNat * 256 + (s.readMem (k + 1)).toNat : Nat) : Int) s.pc))

/-- `CALL addr` completes with its own address at the old SP, high byte first, SP two on and PC at the
target (R174; the pushed address is D8, assumption 5). -/
def Obligations.CallPushesItsOwnAddress : Prop :=
  ∀ (s : State) (nnn : Addr12), s.cfg.Valid → cursorInRange s.cfg .sp (s.sp + 2) = true →
    programStart ≤ nnn.toNat → nnn.toNat < s.cfg.stackStart →
    ∃ t, exec (.call nnn) s = .next t ∧ t.status = s.status ∧
      t.readMem s.sp = BitVec.ofNat 8 (s.pc / 256) ∧ t.readMem (s.sp + 1) = BitVec.ofNat 8 (s.pc % 256) ∧
      t.sp = s.sp + 2 ∧ t.pc = nnn.toNat ∧ t.v = s.v

/-- A `CALL` in the last slot is a stack overflow: the entry has been written, SP and PC have not moved
(R30, R302; D23, assumption 10). -/
def Obligations.CallOverflowIsFatalAfterThePush : Prop :=
  ∀ (s : State) (nnn : Addr12), s.cfg.Valid → s.sp + 2 = s.cfg.displayStart →
    ∃ t, exec (.call nnn) s = .next t ∧
      t.status = .faulted (.cursorRange .sp (s.cfg.displayStart : Int) s.pc) ∧
      t.readMem s.sp = BitVec.ofNat 8 (s.pc / 256) ∧ t.readMem (s.sp + 1) = BitVec.ofNat 8 (s.pc % 256) ∧
      t.sp = s.sp ∧ t.pc = s.pc

/-- `RET` completes at the word after the popped address, with SP two back (R175; the advance is D8,
assumption 5). -/
def Obligations.ReturnResumesAfterThePoppedAddress : Prop :=
  ∀ (s : State) (k : Nat), s.sp = k + 2 → k + 1 < memEnd → cursorInRange s.cfg .sp k = true →
    let popped := (s.readMem k).toNat * 256 + (s.readMem (k + 1)).toNat
    programStart ≤ popped → popped + 2 < s.cfg.stackStart →
    ∃ t, exec .ret s = .next t ∧ t.status = s.status ∧ t.sp = k ∧ t.pc = popped + 2 ∧ t.mem = s.mem

/-- `RET` with an empty stack is fatal, with SP's attempted value (R30, R175); a popped address in the
region's last two bytes is fatal at the advance, PC being at it (R175; D8, D23, assumptions 5 and 10). -/
def Obligations.ReturnFailsOnEmptyStackOrRegionEnd : Prop :=
  ∀ s : State,
    (s.cfg.Valid → s.sp = s.cfg.stackStart →
      StopsWith (exec .ret s) (.cursorRange .sp ((s.cfg.stackStart : Int) - 2) s.pc)) ∧
    (∀ k, s.sp = k + 2 → k + 1 < memEnd → cursorInRange s.cfg .sp k = true →
      let popped := (s.readMem k).toNat * 256 + (s.readMem (k + 1)).toNat
      programStart ≤ popped → popped < s.cfg.stackStart → s.cfg.stackStart ≤ popped + 2 →
      ∃ t, exec .ret s = .next t ∧ t.sp = k ∧ t.pc = popped ∧
        t.status = .faulted (.cursorRange .pc ((popped + 2 : Nat) : Int) s.pc))

/-- A `CALL` followed at once by a `RET` continues after the `CALL`, with SP and V as before and the
entry holding the CALL's address (R176; C5, D8, assumption 5). -/
def Obligations.CallThenReturnResumesAfterTheCall : Prop :=
  ∀ (s : State) (nnn : Addr12), Inv s → s.sp + 2 < s.cfg.displayStart → PcFits s 2 →
    programStart ≤ nnn.toNat → nnn.toNat < s.cfg.stackStart →
    ∃ t u, exec (.call nnn) s = .next t ∧ exec .ret t = .next u ∧ u.pc = s.pc + 2 ∧ u.sp = s.sp ∧
      u.v = s.v ∧ u.status = s.status ∧
      (u.readMem s.sp).toNat * 256 + (u.readMem (s.sp + 1)).toNat = s.pc

/-- `SYS addr` under SYS_POLICY = `noop` and the three key instructions complete by moving PC on, and
change nothing else: no skip, no wait, no register (R178, R260 to R263; D18, D20, assumption 9). -/
def Obligations.InertInstructionsOnlyAdvance : Prop :=
  ∀ (s : State) (x : Reg) (nnn : Addr12), PcFits s 2 →
    (s.cfg.sysPolicy = .noop → exec (.sys nnn) s = .next { s with pc := s.pc + 2 }) ∧
    exec (.skp x) s = .next { s with pc := s.pc + 2 } ∧
    exec (.sknp x) s = .next { s with pc := s.pc + 2 } ∧
    exec (.ldVxK x) s = .next { s with pc := s.pc + 2 }

/-! ## Index, timer and random -/

/-- `LD I,addr` and `ADD I,Vx` complete with I at the exact value where it is in I's range; elsewhere
they are fatal with that value, and neither I nor PC has moved (R191, R195; D15, D16, assumption 7). -/
def Obligations.IndexSetsAreExactAndRangeChecked : Prop :=
  ∀ (s : State) (x : Reg) (nnn : Addr12),
    let sum := s.i + (s.getV x).toNat
    (cursorInRange s.cfg .i nnn.toNat = true → PcFits s 2 →
      Completes (.ldI nnn) s (fun t => t.i = nnn.toNat)) ∧
    (cursorInRange s.cfg .i nnn.toNat = false →
      ∃ t, exec (.ldI nnn) s = .next t ∧ t.i = s.i ∧ t.pc = s.pc ∧
        t.status = .faulted (.cursorRange .i (nnn.toNat : Int) s.pc)) ∧
    (cursorInRange s.cfg .i sum = true → PcFits s 2 → Completes (.addI x) s (fun t => t.i = sum)) ∧
    (cursorInRange s.cfg .i sum = false →
      ∃ t, exec (.addI x) s = .next t ∧ t.i = s.i ∧ t.pc = s.pc ∧
        t.status = .faulted (.cursorRange .i (sum : Int) s.pc))

/-- I's range is Font ∪ Program ∪ Display, or the whole address space under INDEX_RANGE = `whole` (R31;
C4, D15, assumption 7). -/
def Obligations.IndexRangeLeavesOutTheStack : Prop :=
  ∀ (c : Config) (a : Nat), c.Valid →
    (cursorInRange c .i a = true ↔
      a < memEnd ∧ (c.indexRange = .union → ¬ (c.stackStart ≤ a ∧ a < c.displayStart)))

/-- `LD I,FONT(Vx)` completes at the digit's glyph; a Vx above 0xF is fatal under `fault` and takes its
low nibble under `mask` (R196; D14, assumption 7). -/
def Obligations.FontIndexIsTheGlyphAddress : Prop :=
  ∀ (s : State) (x : Reg), s.cfg.Valid →
    ((s.getV x).toNat ≤ 0xF → PcFits s 2 →
      Completes (.ldFont x) s (fun t => t.i = s.cfg.fontBase + 5 * (s.getV x).toNat)) ∧
    (0xF < (s.getV x).toNat → s.cfg.fontDigitPolicy = .mask → PcFits s 2 →
      Completes (.ldFont x) s (fun t => t.i = s.cfg.fontBase + 5 * ((s.getV x).toNat % 16))) ∧
    (0xF < (s.getV x).toNat → s.cfg.fontDigitPolicy = .fault →
      ∃ t, exec (.ldFont x) s = .next t ∧ t.status = .faulted (.fontDigit (s.getV x) s.pc) ∧
        t.i = s.i ∧ t.pc = s.pc)

/-- R320: a timer set writes the value and the step's execution instant. -/
def Obligations.TimerSetWritesCountAndAnchor : Prop :=
  ∀ (s : State) (x : Reg), PcFits s 2 →
    Completes (.ldDtVx x) s (fun t => t.dt.count = s.getV x ∧ t.dt.anchor = s.env.current.tExec) ∧
    Completes (.ldStVx x) s (fun t => t.st.count = s.getV x ∧ t.st.anchor = s.env.current.tExec)

/-- The decay law: set to v at t0 and ticked at any instants in order, the last of them t, a counter is
v less the whole intervals from t0 to t, never below 0 (R322, R323; D22, assumption 7). -/
def Obligations.TimerDecaysWithTheClockAlone : Prop :=
  ∀ (v : Byte) (t0 t : Instant) (earlier : List Instant),
    (t0 :: earlier ++ [t]).Pairwise (· ≤ ·) →
    (tickAll (Timer.set v t0) (earlier ++ [t])).count.toNat = v.toNat - ⌊(t - t0) * 60⌋₊

/-- R325: no timer reloads or wraps; at 0 it stays 0; k whole intervals take k off; DT is read by
`LD Vx,DT` alone and ST by no instruction. -/
def Obligations.TimersOnlyCountDown : Prop :=
  (∀ (T : Timer) (t : Instant), T.anchor ≤ t →
    (T.tick t).count ≤ T.count ∧ (T.count = 0#8 → (T.tick t).count = 0#8) ∧
    ∀ k : Nat, t = T.anchor + (k : Rat) / 60 → (T.tick t).count.toNat = T.count.toNat - k) ∧
  (∀ (i : Instr) (s t : State) (T : Timer), exec i s = .next t → (∀ x, i ≠ .ldStVx x) →
    exec i { s with st := T } = .next { t with st := T }) ∧
  (∀ (i : Instr) (s t : State) (T : Timer), exec i s = .next t → (∀ x, i ≠ .ldDtVx x) →
    (∀ x, i ≠ .ldVxDt x) → exec i { s with dt := T } = .next { t with dt := T }) ∧
  (∀ (s : State) (x : Reg) (T : Timer), exec (.ldStVx x) { s with st := T } = exec (.ldStVx x) s ∧
    exec (.ldDtVx x) { s with dt := T } = exec (.ldDtVx x) s)

/-- R324: the beep is ST.count > 0, and only `LD ST,Vx` and the ticks change it. -/
def Obligations.BeepIsTheSoundCounter : Prop :=
  (∀ s : State, s.beep = true ↔ 0 < s.st.count.toNat) ∧
  (∀ (i : Instr) (s t : State), exec i s = .next t → (∀ x, i ≠ .ldStVx x) → t.beep = s.beep)

/-- An instruction that reads no input of the step does the same whatever the instants and the random
byte are (R330; D22, D25, assumption 3). -/
def Obligations.OtherInstructionsIgnoreTheInputs : Prop :=
  ∀ (i : Instr) (s t : State) (e : HostEnv), readsInput i = false → exec i s = .next t →
    exec i { s with env := e } = .next { t with env := e }

/-! ## BCD and block transfer -/

/-- `LD B,Vx` completes with the three decimal digits at I, I + 1 and I + 2, hundreds first (R211). -/
def Obligations.BcdStoresTheThreeDigits : Prop :=
  ∀ (s : State) (x : Reg), PcFits s 2 → s.i + 3 ≤ memEnd →
    Completes (.ldB x) s (fun t =>
      (t.readMem s.i).toNat = (s.getV x).toNat / 100 ∧
      (t.readMem (s.i + 1)).toNat = (s.getV x).toNat / 10 % 10 ∧
      (t.readMem (s.i + 2)).toNat = (s.getV x).toNat % 10)

/-- `LD [I],Vx` and `LD Vx,[I]` complete with V0 to Vx copied to or from the bytes at I on, and I moved
on only under BLOCK_INCREMENTS_I; where that leaves I's range, the copy is made and the move is fatal, I and
PC staying (R212, R213, R303; D12, assumption 7; D23, D29, assumption 10). -/
def Obligations.BlockTransfersCopyV0ToVx : Prop :=
  ∀ (s : State) (x : Reg), s.i + x.val + 1 ≤ memEnd →
    let moved := s.i + x.val + 1
    let stored (t : State) := ∀ k : Reg, k.val ≤ x.val → t.readMem (s.i + k.val) = s.getV k
    let loaded (t : State) := ∀ k : Reg, k.val ≤ x.val → t.getV k = s.readMem (s.i + k.val)
    (PcFits s 2 → (s.cfg.blockIncrementsI = true → cursorInRange s.cfg .i moved = true) →
      let iAfter := if s.cfg.blockIncrementsI = true then moved else s.i
      Completes (.ldMemVx x) s (fun t => t.i = iAfter ∧ stored t) ∧
      Completes (.ldVxMem x) s (fun t => t.i = iAfter ∧ loaded t)) ∧
    (s.cfg.blockIncrementsI = true → cursorInRange s.cfg .i moved = false →
      (∃ t, exec (.ldMemVx x) s = .next t ∧ t.status = .faulted (.cursorRange .i (moved : Int) s.pc) ∧
        t.i = s.i ∧ t.pc = s.pc ∧ stored t) ∧
      (∃ t, exec (.ldVxMem x) s = .next t ∧ t.status = .faulted (.cursorRange .i (moved : Int) s.pc) ∧
        t.i = s.i ∧ t.pc = s.pc ∧ loaded t))

/-- A transfer that runs past the address space is fatal at its lowest failing address; the stores and
loads below it have been made, of `LD B,Vx` each digit whose address exists, and a draw has made none (R62,
R302, R303; D13, D23, D29, assumption 10). -/
def Obligations.TransferPastTheEndIsFatal : Prop :=
  ∀ (s : State) (x y : Reg) (n : RowCount),
    (memEnd < s.i + 3 →
      ∃ t, exec (.ldB x) s = .next t ∧ t.status = .faulted (.memBounds (max s.i memEnd) s.pc) ∧
        ∀ k < 3, s.i + k < memEnd →
          (t.readMem (s.i + k)).toNat = (s.getV x).toNat / 10 ^ (2 - k) % 10) ∧
    (memEnd < s.i + x.val + 1 →
      (∃ t, exec (.ldMemVx x) s = .next t ∧ t.status = .faulted (.memBounds (max s.i memEnd) s.pc) ∧
        ∀ k : Reg, k.val ≤ x.val → s.i + k.val < memEnd → t.readMem (s.i + k.val) = s.getV k) ∧
      (∃ t, exec (.ldVxMem x) s = .next t ∧ t.status = .faulted (.memBounds (max s.i memEnd) s.pc) ∧
        ∀ k : Reg, k.val ≤ x.val →
          t.getV k = if s.i + k.val < memEnd then s.readMem (s.i + k.val) else s.getV k)) ∧
    (0 < n.val → memEnd < s.i + n.val →
      exec (.drw x y n) s = .next { s with status := .faulted (.memBounds (max s.i memEnd) s.pc) })

/-! ## Display -/

/-- R231: PixelXor answers the old pixel, inverts it and leaves every other pixel; and the pixels a
sprite applies it to are those whose sprite bit is 1. -/
def Obligations.PixelXorInvertsOnePixel : Prop :=
  (∀ (s : State) (px py qx qy : Nat), px < displayW → py < displayH → qx < displayW → qy < displayH →
    (xorPixel (px, py) s).1 = s.pixel px py ∧
    ((xorPixel (px, py) s).2).pixel qx qy =
      if qx = px ∧ qy = py then !(s.pixel px py) else s.pixel qx qy) ∧
  (∀ (xs ys px py : Nat) (rows : List Byte), xs < displayW → ys < displayH → rows.length ≤ displayH →
    ((px, py) ∈ spritePixels xs ys rows ↔
      px < displayW ∧ py < displayH ∧ spriteCovers xs ys rows px py = true))

/-- `DRW Vx,Vy,n` completes in either output mode: exactly the pixels the sprite covers are inverted,
with wrap on both axes, and VF says whether one of them was on (R232, R234, R240; the sprite bit order and
the details are D4, D21, G5, assumption 8). -/
def Obligations.DrawTogglesTheCoveredPixels : Prop :=
  ∀ (s : State) (x y : Reg) (n : RowCount), s.cfg.Valid → PcFits s 2 →
    n.val = 0 ∨ s.i + n.val ≤ memEnd →
    let covers := spriteCovers ((s.getV x).toNat % 64) ((s.getV y).toNat % 32) (rowsAt s n.val)
    Completes (.drw x y n) s (fun t =>
      (∀ px py, px < displayW → py < displayH → t.pixel px py = (s.pixel px py ^^ covers px py)) ∧
      ((∃ px py, px < displayW ∧ py < displayH ∧ s.pixel px py = true ∧ covers px py = true) →
        t.getV 0xF = 1#8) ∧
      ((∀ px py, px < displayW → py < displayH → covers px py = true → s.pixel px py = false) →
        t.getV 0xF = 0#8))

/-- In inline mode the byte-wise blit of R233, a row split by two shifts where it straddles two
framebuffer bytes, is the pixel-by-pixel blit: same state, same collision (D4, assumption 8). -/
def Obligations.ByteBlitIsThePixelBlit : Prop :=
  ∀ (s : State) (xs ys : Nat) (rows : List Byte), s.cfg.Valid → s.cfg.displayMode = .inline →
    Memory.wf s.cfg s.mem → xs < displayW → ys < displayH →
    blitSpriteBytes xs ys rows s = blit (spritePixels xs ys rows) s

/-- Drawing the same sprite twice at the same place restores the picture; if the display was clear and
the sprite has a bit set, the second draw reports a collision (E5, R240; D21, assumption 8). -/
def Obligations.DrawingTwiceErases : Prop :=
  ∀ (s : State) (x y : Reg) (n : RowCount), s.cfg.Valid → PcFits s 2 → PcFits s 4 → x ≠ 0xF → y ≠ 0xF →
    s.i + n.val ≤ memEnd → (s.cfg.displayMode = .inline → s.i + n.val ≤ s.cfg.displayStart) →
    ∃ t u, exec (.drw x y n) s = .next t ∧ exec (.drw x y n) t = .next u ∧ u.status = s.status ∧
      (∀ px py, px < displayW → py < displayH → u.pixel px py = s.pixel px py) ∧
      ((∀ px py, px < displayW → py < displayH → s.pixel px py = false) →
        (∃ r ∈ rowsAt s n.val, r ≠ 0#8) → t.getV 0xF = 0#8 ∧ u.getV 0xF = 1#8)

/-- `CLS` completes with every pixel off and every register as it was (R241; the instruction is G3,
assumption 12). -/
def Obligations.ClearTurnsEveryPixelOff : Prop :=
  ∀ s : State, s.cfg.Valid → PcFits s 2 →
    Completes .cls s (fun t => t.v = s.v ∧
      ∀ px py, px < displayW → py < displayH → t.pixel px py = false)

/-- R246: the snapshot is 2048 values, row-major, and index `py*64 + px` is `Pixel(px, py)`, in either
mode. -/
def Obligations.SnapshotIsRowMajor : Prop :=
  ∀ s : State, s.snapshot.length = 2048 ∧
    ∀ px py, px < 64 → py < 32 → s.snapshot[py * 64 + px]? = some (s.pixel px py)

/-- The picture changes only by `DRW`, `CLS` and, in inline mode, the data stores: never by a call, a
return, a jump or a register instruction (R248). -/
def Obligations.OnlyDrawClearAndStoresChangeThePicture : Prop :=
  ∀ (i : Instr) (s t : State), Inv s → exec i s = .next t → mayDraw s.cfg i = false →
    ∀ px py, px < displayW → py < displayH → t.pixel px py = s.pixel px py

/-! ## Initialisation -/

/-- R67: the Program region holds the image verbatim from its first address, and zero after it. -/
def Obligations.InitLoadsTheImageVerbatim : Prop :=
  ∀ (c : Config) (image : List Byte) (t0 : Instant) (s : State), init c image t0 = .next s →
    ∀ a, programStart ≤ a → a < c.stackStart → s.readMem a = image.getD (a - programStart) 0x00#8

/-- An image longer than the Program region is fatal at initialisation and gives no machine; one of exactly
its size, or shorter, loads (R344). The record of the two lengths is R300's and R340's (D28, assumption 17);
that `init` answers the fault `initFailed` with it is the model's choice (assumption 10). -/
def Obligations.OversizedImageIsFatal : Prop :=
  ∀ (c : Config) (image : List Byte) (t0 : Instant), c.Valid →
    (c.stackStart - 0x200 < image.length →
      init c image t0 = .fault (.initFailed (.oversizedLoad image.length (c.stackStart - 0x200)))) ∧
    (image.length ≤ c.stackStart - 0x200 → ∃ s, init c image t0 = .next s)

/-- After `init` the display is cleared, the font table lies at its base, PC is at 0x200 and SP at S, and
every register is 0; every byte of neither the table nor the image is 0x00, so of the rest of the Font region, the
padding, the Stack and the Display (R42, R340; the values the source does not fix are D6, assumption 4). -/
def Obligations.InitialStateValues : Prop :=
  ∀ (c : Config) (image : List Byte) (t0 : Instant) (s : State), init c image t0 = .next s →
    (∀ r, s.getV r = 0#8) ∧ s.pc = 0x200 ∧ s.sp = c.stackStart ∧ s.i = 0 ∧
    s.dt = Timer.set 0#8 t0 ∧ s.st = Timer.set 0#8 t0 ∧ s.exit = false ∧ s.status = .running ∧
    (∀ k, k < 80 → s.readMem (c.fontBase + k) = c.fontTable.getD k 0#8) ∧
    (∀ a, a < memEnd → ¬ (c.fontBase ≤ a ∧ a < c.fontBase + 80) →
      ¬ (0x200 ≤ a ∧ a < 0x200 + image.length) → s.readMem a = 0x00#8) ∧
    (∀ px py, px < displayW → py < displayH → s.pixel px py = false)
end

