-- ==== Sys2Proof/Laws/Memory.lean ====
section
/-! SUPPORT. The laws of the address space: a read after a write, the canonical form kept by every
operation, and equal memories being equal lists. -/

namespace Sys2Proof.Machine.Memory

variable {c : Config} {m n : Memory} {a a' : Nat} {b : Byte}

/-! ## Lookup -/

@[simp] theorem lookup_nil : lookup a ([] : Memory) = none := rfl

theorem lookup_cons (k : Nat) (v : Byte) :
    lookup a ((k, v) :: m) = if a = k then some v else lookup a m := rfl

@[simp] theorem read_nil : read c ([] : Memory) a = background c a := rfl

theorem lookup_insert : lookup a' (insert a b m) = if a' = a then some b else lookup a' m := by
  induction m with
  | nil => simp [insert, lookup_cons]
  | cons cell cells ih =>
    obtain ⟨k, v⟩ := cell
    simp only [insert]
    split
    · simp [lookup_cons]
    · split
      · rename_i h; subst h
        simp only [lookup_cons]; split <;> rfl
      · rename_i hk
        simp only [lookup_cons, ih]
        by_cases h1 : a' = k
        · simp only [h1, if_true]
          exact (if_neg (fun e => hk e.symm)).symm
        · simp [h1]

theorem lookup_erase : lookup a' (erase a m) = if a' = a then none else lookup a' m := by
  induction m with
  | nil => simp [erase]
  | cons cell cells ih =>
    obtain ⟨k, v⟩ := cell
    simp only [erase, List.filter_cons] at ih ⊢
    by_cases hk : k = a
    · simp only [hk, ne_eq, not_true_eq_false, decide_false, Bool.false_eq_true, if_false, ih, lookup_cons]
      split <;> rfl
    · simp only [ne_eq, hk, not_false_eq_true, decide_true, if_true, lookup_cons, ih]
      by_cases h1 : a' = k
      · have : a' ≠ a := fun e => hk (h1 ▸ e)
        simp [h1, hk]
      · simp [h1]

/-! ## Reading after a write -/

@[simp] theorem read_write_same : read c (write c m a b) a = b := by
  unfold write read
  split
  · rename_i h; simp [lookup_erase, h]
  · simp [lookup_insert]

theorem read_write_other (h : a' ≠ a) : read c (write c m a b) a' = read c m a' := by
  unfold write read
  split <;> simp [lookup_erase, lookup_insert, h]

theorem read_write : read c (write c m a b) a' = if a' = a then b else read c m a' := by
  by_cases h : a' = a
  · subst h; simp
  · simp [h, read_write_other h]

/-- The byte at an address after bytes were written from `start` on. -/
theorem read_writeRange (bytes : List Byte) (m : Memory) (start : Nat) :
    read c (writeRange c m start bytes) a =
      if start ≤ a ∧ a < start + bytes.length then bytes.getD (a - start) 0#8 else read c m a := by
  induction bytes generalizing m start with
  | nil => simp [writeRange]
  | cons b bytes ih =>
    simp only [writeRange, ih, read_write, List.length_cons]
    by_cases h0 : a = start
    · subst h0
      have : ¬ (a + 1 ≤ a) := by omega
      simp
    · by_cases h1 : start + 1 ≤ a ∧ a < start + 1 + bytes.length
      · have h2 : start ≤ a ∧ a < start + (bytes.length + 1) := by omega
        have h3 : a - start = (a - (start + 1)) + 1 := by omega
        rw [if_pos h1, if_pos h2, h3]; simp
      · have h2 : ¬ (start ≤ a ∧ a < start + (bytes.length + 1)) := by omega
        rw [if_neg h1, if_neg h0, if_neg h2]

/-! ## The canonical form -/

theorem wf_nil : wf c ([] : Memory) := ⟨List.Pairwise.nil, fun _ h => nomatch h⟩

theorem mem_insert {cell : Host.Cell} (h : cell ∈ insert a b m) : cell = (a, b) ∨ cell ∈ m := by
  induction m with
  | nil => simpa [insert] using h
  | cons d cells ih =>
    obtain ⟨k, v⟩ := d
    simp only [insert] at h
    split at h
    · simpa using h
    · split at h
      · rcases List.mem_cons.mp h with h | h
        · exact .inl h
        · exact .inr (List.mem_cons_of_mem _ h)
      · rcases List.mem_cons.mp h with h | h
        · exact .inr (h ▸ List.mem_cons_self)
        · rcases ih h with h | h
          · exact .inl h
          · exact .inr (List.mem_cons_of_mem _ h)

theorem insert_rising (h : m.Pairwise (fun p q => p.1 < q.1)) :
    (insert a b m).Pairwise (fun p q => p.1 < q.1) := by
  induction m with
  | nil => simp [insert]
  | cons d cells ih =>
    obtain ⟨k, v⟩ := d
    obtain ⟨hd, ht⟩ := List.pairwise_cons.mp h
    simp only [insert]
    split
    · rename_i hlt
      refine List.pairwise_cons.mpr ⟨fun q hq => ?_, h⟩
      rcases List.mem_cons.mp hq with rfl | hq
      · exact hlt
      · exact Nat.lt_trans hlt (hd q hq)
    · split
      · rename_i he; subst he; exact List.pairwise_cons.mpr ⟨hd, ht⟩
      · rename_i hlt hne
        refine List.pairwise_cons.mpr ⟨fun q hq => ?_, ih ht⟩
        rcases mem_insert hq with rfl | hq
        · show k < a; omega
        · exact hd q hq

/-- A write at an address of the space keeps the canonical form. -/
theorem write_wf (h : wf c m) (ha : a < memEnd) : wf c (write c m a b) := by
  obtain ⟨hr, hc⟩ := h
  unfold write
  split
  · refine ⟨hr.filter _, fun cell hcell => hc cell ?_⟩
    exact (List.mem_filter.mp hcell).1
  · rename_i hb
    refine ⟨insert_rising hr, fun cell hcell => ?_⟩
    rcases mem_insert hcell with rfl | hcell
    · exact ⟨ha, hb⟩
    · exact hc cell hcell

/-- So does a bulk write inside the space. -/
theorem writeRange_wf (bytes : List Byte) (m : Memory) (start : Nat) (h : wf c m)
    (ha : start + bytes.length ≤ memEnd) : wf c (writeRange c m start bytes) := by
  induction bytes generalizing m start with
  | nil => simpa [writeRange] using h
  | cons b bytes ih =>
    simp only [List.length_cons] at ha
    exact ih _ _ (write_wf h (by omega)) (by omega)

/-- And `load`, into a range inside the space. -/
theorem load_wf {start size : Nat} {data : List Byte} (h : wf c m) (hs : start + size ≤ memEnd)
    (hl : load c m start size data = some n) : wf c n := by
  unfold load at hl
  split at hl
  · cases hl
  · cases hl; exact writeRange_wf _ _ _ h (by omega)

/-! ## Equal memories are equal lists -/

theorem lookup_of_wf (h : wf c m) : ∀ cell, cell ∈ m ↔ lookup cell.1 m = some cell.2 := by
  obtain ⟨hr, -⟩ := h
  induction m with
  | nil => simp
  | cons d cells ih =>
    obtain ⟨k, v⟩ := d
    obtain ⟨hd, ht⟩ := List.pairwise_cons.mp hr
    rintro ⟨k', v'⟩
    have ih := ih ht (k', v')
    simp only at ih
    simp only [lookup_cons, List.mem_cons, Prod.mk.injEq]
    by_cases hk : k' = k
    · subst hk
      have : (k', v') ∉ cells := fun hm => absurd (hd _ hm) (Nat.lt_irrefl _)
      simp [this, eq_comm]
    · simp [hk, ih]

theorem lookup_eq_of_read (hm : wf c m) (h : ∀ a, read c m a = read c n a) (hn : wf c n) (a : Nat) :
    lookup a m = lookup a n := by
  have hne : ∀ {p : Memory}, wf c p → ∀ v, lookup a p = some v → v ≠ background c a := fun hp v hv =>
    (hp.2 (a, v) ((lookup_of_wf hp (a, v)).mpr hv)).2
  have hread := h a
  unfold read at hread
  cases hm' : lookup a m with
  | none =>
    cases hn' : lookup a n with
    | none => rfl
    | some v => simp [hm', hn'] at hread; exact absurd hread.symm (hne hn v hn')
  | some u =>
    cases hn' : lookup a n with
    | none => simp [hm', hn'] at hread; exact absurd hread (hne hm u hm')
    | some v => simp [hm', hn'] at hread; simp [hread]

/-- Two memories in canonical form that read the same everywhere are the same list. -/
theorem ext_of_wf (hm : wf c m) (hn : wf c n) (h : ∀ a, read c m a = read c n a) : m = n := by
  refine List.Perm.eq_of_pairwise' hm.1 hn.1 ?_
  refine (List.perm_ext_iff_of_nodup (hm.1.imp fun h e => by simp [e] at h) (hn.1.imp fun h e => by simp [e] at h)).mpr ?_
  intro cell
  rw [lookup_of_wf hm cell, lookup_of_wf hn cell, lookup_eq_of_read hm h hn cell.1]

end Sys2Proof.Machine.Memory
end

