-- ==== Sys2Proof/Laws/State.lean ====
section
/-! SUPPORT. One lemma per field per update of the state, each true by unfolding the update once, so that
no later proof unfolds a record update. -/

namespace Sys2Proof.Machine

/-! ## setV -/

@[simp] theorem setV_cfg (x : Reg) (b : Byte) (s : State) : (s.setV x b).cfg = s.cfg := rfl
@[simp] theorem setV_v (x : Reg) (b : Byte) (s : State) : (s.setV x b).v = s.v.set x.val b := rfl
@[simp] theorem setV_pc (x : Reg) (b : Byte) (s : State) : (s.setV x b).pc = s.pc := rfl
@[simp] theorem setV_sp (x : Reg) (b : Byte) (s : State) : (s.setV x b).sp = s.sp := rfl
@[simp] theorem setV_i (x : Reg) (b : Byte) (s : State) : (s.setV x b).i = s.i := rfl
@[simp] theorem setV_dt (x : Reg) (b : Byte) (s : State) : (s.setV x b).dt = s.dt := rfl
@[simp] theorem setV_st (x : Reg) (b : Byte) (s : State) : (s.setV x b).st = s.st := rfl
@[simp] theorem setV_mem (x : Reg) (b : Byte) (s : State) : (s.setV x b).mem = s.mem := rfl
@[simp] theorem setV_fb (x : Reg) (b : Byte) (s : State) : (s.setV x b).fb = s.fb := rfl
@[simp] theorem setV_exit (x : Reg) (b : Byte) (s : State) : (s.setV x b).exit = s.exit := rfl
@[simp] theorem setV_status (x : Reg) (b : Byte) (s : State) : (s.setV x b).status = s.status := rfl
@[simp] theorem setV_env (x : Reg) (b : Byte) (s : State) : (s.setV x b).env = s.env := rfl

/-! ## writeMem -/

@[simp] theorem writeMem_cfg (a : Nat) (b : Byte) (s : State) : (s.writeMem a b).cfg = s.cfg := rfl
@[simp] theorem writeMem_v (a : Nat) (b : Byte) (s : State) : (s.writeMem a b).v = s.v := rfl
@[simp] theorem writeMem_pc (a : Nat) (b : Byte) (s : State) : (s.writeMem a b).pc = s.pc := rfl
@[simp] theorem writeMem_sp (a : Nat) (b : Byte) (s : State) : (s.writeMem a b).sp = s.sp := rfl
@[simp] theorem writeMem_i (a : Nat) (b : Byte) (s : State) : (s.writeMem a b).i = s.i := rfl
@[simp] theorem writeMem_dt (a : Nat) (b : Byte) (s : State) : (s.writeMem a b).dt = s.dt := rfl
@[simp] theorem writeMem_st (a : Nat) (b : Byte) (s : State) : (s.writeMem a b).st = s.st := rfl
@[simp] theorem writeMem_mem (a : Nat) (b : Byte) (s : State) :
    (s.writeMem a b).mem = s.mem.write s.cfg a b := rfl
@[simp] theorem writeMem_fb (a : Nat) (b : Byte) (s : State) : (s.writeMem a b).fb = s.fb := rfl
@[simp] theorem writeMem_exit (a : Nat) (b : Byte) (s : State) : (s.writeMem a b).exit = s.exit := rfl
@[simp] theorem writeMem_status (a : Nat) (b : Byte) (s : State) : (s.writeMem a b).status = s.status := rfl
@[simp] theorem writeMem_env (a : Nat) (b : Byte) (s : State) : (s.writeMem a b).env = s.env := rfl

/-! ## putCursor .pc -/

@[simp] theorem putCursor_pc_cfg (a : Nat) (s : State) : (s.putCursor .pc a).cfg = s.cfg := rfl
@[simp] theorem putCursor_pc_v (a : Nat) (s : State) : (s.putCursor .pc a).v = s.v := rfl
@[simp] theorem putCursor_pc_pc (a : Nat) (s : State) : (s.putCursor .pc a).pc = a := rfl
@[simp] theorem putCursor_pc_sp (a : Nat) (s : State) : (s.putCursor .pc a).sp = s.sp := rfl
@[simp] theorem putCursor_pc_i (a : Nat) (s : State) : (s.putCursor .pc a).i = s.i := rfl
@[simp] theorem putCursor_pc_dt (a : Nat) (s : State) : (s.putCursor .pc a).dt = s.dt := rfl
@[simp] theorem putCursor_pc_st (a : Nat) (s : State) : (s.putCursor .pc a).st = s.st := rfl
@[simp] theorem putCursor_pc_mem (a : Nat) (s : State) : (s.putCursor .pc a).mem = s.mem := rfl
@[simp] theorem putCursor_pc_fb (a : Nat) (s : State) : (s.putCursor .pc a).fb = s.fb := rfl
@[simp] theorem putCursor_pc_exit (a : Nat) (s : State) : (s.putCursor .pc a).exit = s.exit := rfl
@[simp] theorem putCursor_pc_status (a : Nat) (s : State) : (s.putCursor .pc a).status = s.status := rfl
@[simp] theorem putCursor_pc_env (a : Nat) (s : State) : (s.putCursor .pc a).env = s.env := rfl

/-! ## putCursor .sp -/

@[simp] theorem putCursor_sp_cfg (a : Nat) (s : State) : (s.putCursor .sp a).cfg = s.cfg := rfl
@[simp] theorem putCursor_sp_v (a : Nat) (s : State) : (s.putCursor .sp a).v = s.v := rfl
@[simp] theorem putCursor_sp_pc (a : Nat) (s : State) : (s.putCursor .sp a).pc = s.pc := rfl
@[simp] theorem putCursor_sp_sp (a : Nat) (s : State) : (s.putCursor .sp a).sp = a := rfl
@[simp] theorem putCursor_sp_i (a : Nat) (s : State) : (s.putCursor .sp a).i = s.i := rfl
@[simp] theorem putCursor_sp_dt (a : Nat) (s : State) : (s.putCursor .sp a).dt = s.dt := rfl
@[simp] theorem putCursor_sp_st (a : Nat) (s : State) : (s.putCursor .sp a).st = s.st := rfl
@[simp] theorem putCursor_sp_mem (a : Nat) (s : State) : (s.putCursor .sp a).mem = s.mem := rfl
@[simp] theorem putCursor_sp_fb (a : Nat) (s : State) : (s.putCursor .sp a).fb = s.fb := rfl
@[simp] theorem putCursor_sp_exit (a : Nat) (s : State) : (s.putCursor .sp a).exit = s.exit := rfl
@[simp] theorem putCursor_sp_status (a : Nat) (s : State) : (s.putCursor .sp a).status = s.status := rfl
@[simp] theorem putCursor_sp_env (a : Nat) (s : State) : (s.putCursor .sp a).env = s.env := rfl

/-! ## putCursor .i -/

@[simp] theorem putCursor_i_cfg (a : Nat) (s : State) : (s.putCursor .i a).cfg = s.cfg := rfl
@[simp] theorem putCursor_i_v (a : Nat) (s : State) : (s.putCursor .i a).v = s.v := rfl
@[simp] theorem putCursor_i_pc (a : Nat) (s : State) : (s.putCursor .i a).pc = s.pc := rfl
@[simp] theorem putCursor_i_sp (a : Nat) (s : State) : (s.putCursor .i a).sp = s.sp := rfl
@[simp] theorem putCursor_i_i (a : Nat) (s : State) : (s.putCursor .i a).i = a := rfl
@[simp] theorem putCursor_i_dt (a : Nat) (s : State) : (s.putCursor .i a).dt = s.dt := rfl
@[simp] theorem putCursor_i_st (a : Nat) (s : State) : (s.putCursor .i a).st = s.st := rfl
@[simp] theorem putCursor_i_mem (a : Nat) (s : State) : (s.putCursor .i a).mem = s.mem := rfl
@[simp] theorem putCursor_i_fb (a : Nat) (s : State) : (s.putCursor .i a).fb = s.fb := rfl
@[simp] theorem putCursor_i_exit (a : Nat) (s : State) : (s.putCursor .i a).exit = s.exit := rfl
@[simp] theorem putCursor_i_status (a : Nat) (s : State) : (s.putCursor .i a).status = s.status := rfl
@[simp] theorem putCursor_i_env (a : Nat) (s : State) : (s.putCursor .i a).env = s.env := rfl

/-! ## faultedWith -/

@[simp] theorem faultedWith_cfg (e : Fatal) (s : State) : (s.faultedWith e).cfg = s.cfg := rfl
@[simp] theorem faultedWith_v (e : Fatal) (s : State) : (s.faultedWith e).v = s.v := rfl
@[simp] theorem faultedWith_pc (e : Fatal) (s : State) : (s.faultedWith e).pc = s.pc := rfl
@[simp] theorem faultedWith_sp (e : Fatal) (s : State) : (s.faultedWith e).sp = s.sp := rfl
@[simp] theorem faultedWith_i (e : Fatal) (s : State) : (s.faultedWith e).i = s.i := rfl
@[simp] theorem faultedWith_dt (e : Fatal) (s : State) : (s.faultedWith e).dt = s.dt := rfl
@[simp] theorem faultedWith_st (e : Fatal) (s : State) : (s.faultedWith e).st = s.st := rfl
@[simp] theorem faultedWith_mem (e : Fatal) (s : State) : (s.faultedWith e).mem = s.mem := rfl
@[simp] theorem faultedWith_fb (e : Fatal) (s : State) : (s.faultedWith e).fb = s.fb := rfl
@[simp] theorem faultedWith_exit (e : Fatal) (s : State) : (s.faultedWith e).exit = s.exit := rfl
@[simp] theorem faultedWith_status (e : Fatal) (s : State) : (s.faultedWith e).status = .faulted e := rfl
@[simp] theorem faultedWith_env (e : Fatal) (s : State) : (s.faultedWith e).env = s.env := rfl

/-! ## exitWhen -/

@[simp] theorem exitWhen_cfg (c : Bool) (s : State) : (exitWhen c s).cfg = s.cfg := by cases c <;> rfl
@[simp] theorem exitWhen_v (c : Bool) (s : State) : (exitWhen c s).v = s.v := by cases c <;> rfl
@[simp] theorem exitWhen_pc (c : Bool) (s : State) : (exitWhen c s).pc = s.pc := by cases c <;> rfl
@[simp] theorem exitWhen_sp (c : Bool) (s : State) : (exitWhen c s).sp = s.sp := by cases c <;> rfl
@[simp] theorem exitWhen_i (c : Bool) (s : State) : (exitWhen c s).i = s.i := by cases c <;> rfl
@[simp] theorem exitWhen_dt (c : Bool) (s : State) : (exitWhen c s).dt = s.dt := by cases c <;> rfl
@[simp] theorem exitWhen_st (c : Bool) (s : State) : (exitWhen c s).st = s.st := by cases c <;> rfl
@[simp] theorem exitWhen_mem (c : Bool) (s : State) : (exitWhen c s).mem = s.mem := by cases c <;> rfl
@[simp] theorem exitWhen_fb (c : Bool) (s : State) : (exitWhen c s).fb = s.fb := by cases c <;> rfl
@[simp] theorem exitWhen_exit (c : Bool) (s : State) :
    (exitWhen c s).exit = (s.exit || c) := by cases c <;> simp [exitWhen]
@[simp] theorem exitWhen_status (c : Bool) (s : State) :
    (exitWhen c s).status = s.status := by cases c <;> rfl
@[simp] theorem exitWhen_env (c : Bool) (s : State) : (exitWhen c s).env = s.env := by cases c <;> rfl

/-! ## tickTimers -/

@[simp] theorem tickTimers_cfg (t : Instant) (s : State) : (tickTimers t s).cfg = s.cfg := rfl
@[simp] theorem tickTimers_v (t : Instant) (s : State) : (tickTimers t s).v = s.v := rfl
@[simp] theorem tickTimers_pc (t : Instant) (s : State) : (tickTimers t s).pc = s.pc := rfl
@[simp] theorem tickTimers_sp (t : Instant) (s : State) : (tickTimers t s).sp = s.sp := rfl
@[simp] theorem tickTimers_i (t : Instant) (s : State) : (tickTimers t s).i = s.i := rfl
@[simp] theorem tickTimers_dt (t : Instant) (s : State) : (tickTimers t s).dt = s.dt.tick t := rfl
@[simp] theorem tickTimers_st (t : Instant) (s : State) : (tickTimers t s).st = s.st.tick t := rfl
@[simp] theorem tickTimers_mem (t : Instant) (s : State) : (tickTimers t s).mem = s.mem := rfl
@[simp] theorem tickTimers_fb (t : Instant) (s : State) : (tickTimers t s).fb = s.fb := rfl
@[simp] theorem tickTimers_exit (t : Instant) (s : State) : (tickTimers t s).exit = s.exit := rfl
@[simp] theorem tickTimers_status (t : Instant) (s : State) : (tickTimers t s).status = s.status := rfl
@[simp] theorem tickTimers_env (t : Instant) (s : State) : (tickTimers t s).env = s.env := rfl

/-! ## flipPixel and clearDisplay: all but the memory and the bit plane -/

@[simp] theorem flipPixel_cfg (px py : Nat) (s : State) :
    (s.flipPixel px py).cfg = s.cfg := by
  unfold State.flipPixel; split <;> rfl
@[simp] theorem flipPixel_v (px py : Nat) (s : State) :
    (s.flipPixel px py).v = s.v := by
  unfold State.flipPixel; split <;> rfl
@[simp] theorem flipPixel_pc (px py : Nat) (s : State) :
    (s.flipPixel px py).pc = s.pc := by
  unfold State.flipPixel; split <;> rfl
@[simp] theorem flipPixel_sp (px py : Nat) (s : State) :
    (s.flipPixel px py).sp = s.sp := by
  unfold State.flipPixel; split <;> rfl
@[simp] theorem flipPixel_i (px py : Nat) (s : State) :
    (s.flipPixel px py).i = s.i := by
  unfold State.flipPixel; split <;> rfl
@[simp] theorem flipPixel_dt (px py : Nat) (s : State) :
    (s.flipPixel px py).dt = s.dt := by
  unfold State.flipPixel; split <;> rfl
@[simp] theorem flipPixel_st (px py : Nat) (s : State) :
    (s.flipPixel px py).st = s.st := by
  unfold State.flipPixel; split <;> rfl
@[simp] theorem flipPixel_exit (px py : Nat) (s : State) :
    (s.flipPixel px py).exit = s.exit := by
  unfold State.flipPixel; split <;> rfl
@[simp] theorem flipPixel_status (px py : Nat) (s : State) :
    (s.flipPixel px py).status = s.status := by
  unfold State.flipPixel; split <;> rfl
@[simp] theorem flipPixel_env (px py : Nat) (s : State) :
    (s.flipPixel px py).env = s.env := by
  unfold State.flipPixel; split <;> rfl
@[simp] theorem clearDisplay_cfg (s : State) :
    (clearDisplay s).cfg = s.cfg := by
  unfold clearDisplay; split <;> rfl
@[simp] theorem clearDisplay_v (s : State) :
    (clearDisplay s).v = s.v := by
  unfold clearDisplay; split <;> rfl
@[simp] theorem clearDisplay_pc (s : State) :
    (clearDisplay s).pc = s.pc := by
  unfold clearDisplay; split <;> rfl
@[simp] theorem clearDisplay_sp (s : State) :
    (clearDisplay s).sp = s.sp := by
  unfold clearDisplay; split <;> rfl
@[simp] theorem clearDisplay_i (s : State) :
    (clearDisplay s).i = s.i := by
  unfold clearDisplay; split <;> rfl
@[simp] theorem clearDisplay_dt (s : State) :
    (clearDisplay s).dt = s.dt := by
  unfold clearDisplay; split <;> rfl
@[simp] theorem clearDisplay_st (s : State) :
    (clearDisplay s).st = s.st := by
  unfold clearDisplay; split <;> rfl
@[simp] theorem clearDisplay_exit (s : State) :
    (clearDisplay s).exit = s.exit := by
  unfold clearDisplay; split <;> rfl
@[simp] theorem clearDisplay_status (s : State) :
    (clearDisplay s).status = s.status := by
  unfold clearDisplay; split <;> rfl
@[simp] theorem clearDisplay_env (s : State) :
    (clearDisplay s).env = s.env := by
  unfold clearDisplay; split <;> rfl

/-! ## endStep: all but the timers and the host's side -/

@[simp] theorem endStep_cfg (s : State) : (endStep s).cfg = s.cfg := by
  unfold endStep; split <;> rfl
@[simp] theorem endStep_v (s : State) : (endStep s).v = s.v := by
  unfold endStep; split <;> rfl
@[simp] theorem endStep_pc (s : State) : (endStep s).pc = s.pc := by
  unfold endStep; split <;> rfl
@[simp] theorem endStep_sp (s : State) : (endStep s).sp = s.sp := by
  unfold endStep; split <;> rfl
@[simp] theorem endStep_i (s : State) : (endStep s).i = s.i := by
  unfold endStep; split <;> rfl
@[simp] theorem endStep_mem (s : State) : (endStep s).mem = s.mem := by
  unfold endStep; split <;> rfl
@[simp] theorem endStep_fb (s : State) : (endStep s).fb = s.fb := by
  unfold endStep; split <;> rfl
@[simp] theorem endStep_exit (s : State) : (endStep s).exit = s.exit := by
  unfold endStep; split <;> rfl
@[simp] theorem endStep_status (s : State) :
    (endStep s).status = s.status := by
  unfold endStep; split <;> rfl
@[simp] theorem endStep_env (s : State) :
    (endStep s).env = s.env.consumed := by
  unfold endStep; split <;> rfl

/-! ## under: the core in a configuration, before one call -/

@[simp] theorem under_core (m : CoreState) (c : Config) (input : StepInput) :
    (m.under c input).toCoreState = m := rfl
@[simp] theorem under_cfg (m : CoreState) (c : Config) (input : StepInput) : (m.under c input).cfg = c := rfl
@[simp] theorem under_env (m : CoreState) (c : Config) (input : StepInput) :
    (m.under c input).env = { pending := [input], clock := input.tExec, draws := 0 } := rfl

/-- The inputs of the call under way are those the core was given. -/
@[simp] theorem under_current (m : CoreState) (c : Config) (input : StepInput) :
    (m.under c input).env.current = input := rfl

@[simp] theorem coreOf_next (s : State) : coreOf (.next s) = .next s.toCoreState := rfl
@[simp] theorem coreOf_fault (e : Fault) : coreOf (.fault e) = .fault e := rfl
@[simp] theorem coreOf_refused (e : Refusal) : coreOf (.refused e) = .refused e := rfl

/-! ## Reading back -/

@[simp] theorem getV_setV_same (x : Reg) (b : Byte) (s : State) : (s.setV x b).getV x = b := by
  simp [State.getV, State.setV]

theorem getV_setV_other (x y : Reg) (b : Byte) (s : State) (h : y ≠ x) : (s.setV x b).getV y = s.getV y := by
  have hv : x.val ≠ y.val := fun e => h (Fin.ext e.symm)
  simp [State.getV, State.setV, Vector.getElem_set_ne _ _ hv]

theorem getV_setV (x y : Reg) (b : Byte) (s : State) :
    (s.setV x b).getV y = if y = x then b else s.getV y := by
  by_cases h : y = x
  · subst h; simp
  · simp [h, getV_setV_other x y b s h]

/-- Two states with the same registers read the same registers. -/
theorem getV_congr {s t : State} (h : t.v = s.v) (x : Reg) : t.getV x = s.getV x := by
  simp [State.getV, h]

/-- Two states with the same memory and configuration read the same bytes. -/
theorem readMem_congr {s t : State} (hm : t.mem = s.mem) (hc : t.cfg = s.cfg) (a : Nat) :
    t.readMem a = s.readMem a := by
  simp [State.readMem, hm, hc]

end Sys2Proof.Machine
end

