-- ==== Sys2Proof/Laws/Ops.lean ====
section
/-! SUPPORT. One lemma per shared operation, saying once everything it can do; the meanings' proofs cite
these instead of unfolding the operation. -/

namespace Sys2Proof.Machine

/-! ## Sequencing -/

@[simp] theorem andThen_go (s : State) (f : State → Flow) : (Flow.go s).andThen f = f s := rfl

@[simp] theorem andThen_fatal (s : State) (f : State → Flow) : (Flow.fatal s).andThen f = .fatal s := rfl

@[simp] theorem finish_go (s : State) : (Flow.go s).finish = .next s := rfl

@[simp] theorem finish_fatal (s : State) : (Flow.fatal s).finish = .next s := rfl

@[simp] theorem raiseFatal_eq (e : Fatal) (s : State) : raiseFatal e s = .fatal (s.faultedWith e) := rfl

/-- A rule always answers a next state. -/
theorem finish_next (r : Flow) : ∃ t, r.finish = .next t := by
  cases r with
  | go s => exact ⟨s, rfl⟩
  | fatal s => exact ⟨s, rfl⟩

/-! ## Bytes of memory -/

@[simp] theorem readMem_writeMem (s : State) (a a' : Nat) (b : Byte) :
    (s.writeMem a b).readMem a' = if a' = a then b else s.readMem a' := by
  simp [State.readMem, State.writeMem, Memory.read_write]

theorem loadByte_ok {ipc a : Nat} {s : State} (h : a < memEnd) : loadByte ipc a s = .ok (s.readMem a) :=
  if_pos h

theorem loadByte_error {ipc a : Nat} {s : State} (h : ¬ a < memEnd) :
    loadByte ipc a s = .error (.memBounds a ipc) := if_neg h

/-- Loads inside the address space give the bytes there. -/
theorem loadBytes_ok (ipc : Nat) (s : State) (n a : Nat) (h : a + n ≤ memEnd) :
    loadBytes ipc a s n = .ok ((List.range n).map (fun k => s.readMem (a + k))) := by
  induction n generalizing a with
  | zero => rfl
  | succ n ih =>
    have h1 : a < memEnd := by omega
    simp only [loadBytes, loadByte_ok h1, ih (a + 1) (by omega), List.range_succ_eq_map, List.map_cons,
      List.map_map, Nat.add_zero]
    congr 2
    refine List.map_congr_left fun k _ => ?_
    show s.readMem (a + 1 + k) = s.readMem (a + (k + 1))
    congr 1; omega

/-- Loads that leave the address space fail at the lowest address outside it. -/
theorem loadBytes_error (ipc : Nat) (s : State) (n a : Nat) (hn : 0 < n) (h : memEnd < a + n) :
    loadBytes ipc a s n = .error (.memBounds (max a memEnd) ipc) := by
  induction n generalizing a with
  | zero => omega
  | succ n ih =>
    by_cases ha : a < memEnd
    · have : max a memEnd = max (a + 1) memEnd := by omega
      simp only [loadBytes, loadByte_ok ha, ih (a + 1) (by omega) (by omega), this]
    · have : max a memEnd = a := by omega
      simp only [loadBytes, loadByte_error ha, this]

theorem storeByte_go {ipc a : Nat} {b : Byte} {s : State} (h : a < memEnd) :
    storeByte ipc a b s = .go (s.writeMem a b) := if_pos h

theorem storeByte_fatal {ipc a : Nat} {b : Byte} {s : State} (h : ¬ a < memEnd) :
    storeByte ipc a b s = .fatal (s.faultedWith (.memBounds a ipc)) := if_neg h

/-- Stores inside the address space write every byte and nothing else. -/
theorem storeBytes_go (ipc : Nat) (bytes : List Byte) (a : Nat) (s : State)
    (h : a + bytes.length ≤ memEnd) :
    storeBytes ipc a bytes s = .go { s with mem := s.mem.writeRange s.cfg a bytes } := by
  induction bytes generalizing a s with
  | nil => rfl
  | cons b bytes ih =>
    simp only [List.length_cons] at h
    have h1 : a < memEnd := by omega
    simp only [storeBytes, storeByte_go h1, andThen_go]
    rw [ih (a + 1) (s.writeMem a b) (by omega)]
    rfl

/-- Stores that leave the address space write the bytes below its end and stop at the lowest address
outside it. -/
theorem storeBytes_fatal (ipc : Nat) (bytes : List Byte) (a : Nat) (s : State)
    (hn : 0 < bytes.length) (h : memEnd < a + bytes.length) :
    storeBytes ipc a bytes s = .fatal (State.faultedWith (.memBounds (max a memEnd) ipc)
      { s with mem := s.mem.writeRange s.cfg a (bytes.take (memEnd - a)) }) := by
  induction bytes generalizing a s with
  | nil => simp at hn
  | cons b bytes ih =>
    simp only [List.length_cons] at h
    by_cases ha : a < memEnd
    · have h1 : memEnd - a = (memEnd - (a + 1)) + 1 := by omega
      have h2 : max a memEnd = max (a + 1) memEnd := by omega
      simp only [storeBytes, storeByte_go ha, andThen_go]
      rw [ih (a + 1) (s.writeMem a b) (by omega) (by omega), h1, h2]
      rfl
    · have h1 : memEnd - a = 0 := by omega
      have h2 : max a memEnd = a := by omega
      simp only [storeBytes, storeByte_fatal ha, andThen_fatal, h1, h2, List.take_zero]
      rfl

/-! ## Cursors -/

theorem cursorSet_go {ipc : Nat} {k : CursorName} {a : Nat} {s : State}
    (h : cursorInRange s.cfg k a = true) : cursorSet ipc k a s = .go (s.putCursor k a) := if_pos h

theorem cursorSet_fatal {ipc : Nat} {k : CursorName} {a : Nat} {s : State}
    (h : ¬ cursorInRange s.cfg k a = true) :
    cursorSet ipc k a s = .fatal (s.faultedWith (.cursorRange k a ipc)) := if_neg h

/-- A cursor set moves the cursor inside its range, and stops the machine outside it. -/
theorem cursorSet_cases (ipc : Nat) (k : CursorName) (a : Nat) (s : State) :
    (cursorInRange s.cfg k a = true ∧ cursorSet ipc k a s = .go (s.putCursor k a)) ∨
    (cursorInRange s.cfg k a = false ∧
      cursorSet ipc k a s = .fatal (s.faultedWith (.cursorRange k a ipc))) := by
  by_cases h : cursorInRange s.cfg k a = true
  · exact .inl ⟨h, cursorSet_go h⟩
  · exact .inr ⟨by simpa using h, cursorSet_fatal h⟩

/-- A retreat does too, at the value two below, or at a negative value that is in no range. -/
theorem cursorRetreat_cases (ipc : Nat) (k : CursorName) (s : State) :
    (∃ a, s.getCursor k = a + 2 ∧ cursorInRange s.cfg k a = true ∧
      cursorRetreat ipc k s = .go (s.putCursor k a)) ∨
    cursorRetreat ipc k s =
      .fatal (s.faultedWith (.cursorRange k ((s.getCursor k : Int) - 2) ipc)) := by
  unfold cursorRetreat
  split
  · rename_i h
    rcases cursorSet_cases ipc k (s.getCursor k - cursorStep) s with ⟨hr, hs⟩ | ⟨-, hs⟩
    · exact .inl ⟨_, by simp only [cursorStep] at h ⊢; omega, hr, hs⟩
    · refine .inr ?_
      rw [hs]
      have : ((s.getCursor k - cursorStep : Nat) : Int) = (s.getCursor k : Int) - 2 := by
        simp only [cursorStep] at h ⊢; omega
      rw [this]
  · exact .inr rfl

@[simp] theorem cursorInRange_pc (c : Config) (a : Nat) :
    (cursorInRange c .pc a = true) = (0x200 ≤ a ∧ a < c.stackStart) := by
  simp [cursorInRange]

@[simp] theorem cursorInRange_sp (c : Config) (a : Nat) :
    (cursorInRange c .sp a = true) = (c.stackStart ≤ a ∧ a < c.displayStart) := by
  simp [cursorInRange]

theorem advancePc_go {s : State} (h : cursorInRange s.cfg .pc (s.pc + 2) = true) :
    advancePc s = .go (s.putCursor .pc (s.pc + 2)) := cursorSet_go h

theorem advancePc_fatal {s : State} (h : ¬ cursorInRange s.cfg .pc (s.pc + 2) = true) :
    advancePc s = .fatal (s.faultedWith (.cursorRange .pc ((s.pc + 2 : Nat) : Int) s.pc)) :=
  cursorSet_fatal h

/-- The end of most instructions: PC moves on to the next word, or the machine stops. -/
theorem advancePc_cases (s : State) :
    advancePc s = .go (s.putCursor .pc (s.pc + 2)) ∨
    advancePc s = .fatal (s.faultedWith (.cursorRange .pc ((s.pc + 2 : Nat) : Int) s.pc)) := by
  by_cases h : cursorInRange s.cfg .pc (s.pc + 2) = true
  · exact .inl (advancePc_go h)
  · exact .inr (advancePc_fatal h)

/-- A skip moves PC on by 2 or 4, or stops with PC where it was or 2 on. -/
theorem skipWhen_cases (cond : Bool) (s : State) :
    (cond = false ∧ skipWhen cond s = .go (s.putCursor .pc (s.pc + 2))) ∨
    (cond = true ∧ skipWhen cond s = .go (s.putCursor .pc (s.pc + 4))) ∨
    (∃ e, skipWhen cond s = .fatal (s.faultedWith e)) ∨
    (∃ e, skipWhen cond s = .fatal ((s.putCursor .pc (s.pc + 2)).faultedWith e)) := by
  cases cond with
  | false =>
    rcases cursorSet_cases s.pc .pc (s.pc + 2) s with ⟨-, h⟩ | ⟨-, h⟩
    · exact .inl ⟨rfl, h⟩
    · exact .inr (.inr (.inl ⟨_, h⟩))
  | true =>
    rcases cursorSet_cases s.pc .pc (s.pc + 2) s with ⟨-, h⟩ | ⟨-, h⟩
    · rcases cursorSet_cases s.pc .pc (s.pc + 2 + 2) (s.putCursor .pc (s.pc + 2)) with ⟨-, h'⟩ | ⟨-, h'⟩
      · refine .inr (.inl ⟨rfl, ?_⟩)
        show (cursorSet s.pc .pc (s.pc + 2) s).andThen _ = _
        rw [h]; exact h'
      · refine .inr (.inr (.inr ⟨.cursorRange .pc ((s.pc + 2 + 2 : Nat) : Int) s.pc, ?_⟩))
        show (cursorSet s.pc .pc (s.pc + 2) s).andThen _ = _
        rw [h]; exact h'
    · refine .inr (.inr (.inl ⟨.cursorRange .pc ((s.pc + 2 : Nat) : Int) s.pc, ?_⟩))
      show (cursorSet s.pc .pc (s.pc + 2) s).andThen _ = _
      rw [h]; rfl

/-! ## Blocks of registers -/

/-- The registers V0 to Vx are those numbered up to x. -/
@[simp] theorem mem_regsUpTo (x k : Reg) : k ∈ regsUpTo x ↔ k.val ≤ x.val := by
  revert x k; decide

@[simp] theorem length_regsUpTo (x : Reg) : (regsUpTo x).length = x.val + 1 := by
  revert x; decide

/-- Loading registers changes registers of the list alone, and STATUS if it stops. -/
theorem loadRegs_frame (ipc : Nat) (ks : List Reg) (s : State) :
    ∃ v, (∀ k : Reg, k ∉ ks → v[k.val] = s.v[k.val]) ∧
      (loadRegs ipc ks s = .go { s with v := v } ∨
        ∃ e, loadRegs ipc ks s = .fatal (State.faultedWith e { s with v := v })) := by
  induction ks generalizing s with
  | nil => exact ⟨s.v, fun _ _ => rfl, .inl rfl⟩
  | cons k ks ih =>
    by_cases h : s.i + k.val < memEnd
    · obtain ⟨v, hv, hr⟩ := ih (s.setV k (s.readMem (s.i + k.val)))
      refine ⟨v, fun j hj => ?_, ?_⟩
      · rw [List.mem_cons, not_or] at hj
        rw [hv j hj.2]
        exact getV_setV_other k j _ s hj.1
      · simp only [loadRegs, loadByte_ok h]
        exact hr
    · exact ⟨s.v, fun _ _ => rfl, .inr ⟨_, by simp only [loadRegs, loadByte_error h]; rfl⟩⟩

/-- The end of a block transfer leaves I, moves it past the block, or stops. -/
theorem blockIncrement_cases (x : Reg) (s : State) :
    (s.cfg.blockIncrementsI = false ∧ blockIncrement x s = .go s) ∨
    (s.cfg.blockIncrementsI = true ∧ cursorInRange s.cfg .i (s.i + x.val + 1) = true ∧
      blockIncrement x s = .go (s.putCursor .i (s.i + x.val + 1))) ∨
    (s.cfg.blockIncrementsI = true ∧ ∃ e, blockIncrement x s = .fatal (s.faultedWith e)) := by
  unfold blockIncrement
  split
  · rename_i h
    rcases cursorSet_cases s.pc .i (s.i + x.val + 1) s with ⟨hr, hs⟩ | ⟨-, hs⟩
    · exact .inr (.inl ⟨h, hr, hs⟩)
    · exact .inr (.inr ⟨h, _, hs⟩)
  · rename_i h; exact .inl ⟨by simpa using h, rfl⟩

end Sys2Proof.Machine
end

