-- ==== Sys2Proof/Laws/Display.lean ====
section
/-! SUPPORT. The laws of the display engine: what a flip, a blit and a clear leave unchanged, and that in
a machine's configuration they keep the memory in canonical form. -/

namespace Sys2Proof.Machine

/-- The framebuffer byte of a pixel lies in the framebuffer. -/
theorem pixelByte_lt {px py : Nat} (c : Config) (hx : px < displayW) (hy : py < displayH) :
    c.displayStart ≤ pixelByte c px py ∧ pixelByte c px py < c.displayStart + framebufferBytes := by
  simp only [pixelByte, displayW, displayH, framebufferBytes] at *
  omega

/-- A state with the picture of another one, everything else the same: what a blit can do. -/
structure SamePlaces (s t : State) : Prop where
  cfg : t.cfg = s.cfg
  v : t.v = s.v
  pc : t.pc = s.pc
  sp : t.sp = s.sp
  i : t.i = s.i
  dt : t.dt = s.dt
  st : t.st = s.st
  exit : t.exit = s.exit
  status : t.status = s.status
  env : t.env = s.env

theorem SamePlaces.refl (s : State) : SamePlaces s s := ⟨rfl, rfl, rfl, rfl, rfl, rfl, rfl, rfl, rfl, rfl⟩

theorem SamePlaces.trans {s t u : State} (h : SamePlaces s t) (g : SamePlaces t u) : SamePlaces s u :=
  ⟨g.cfg.trans h.cfg, g.v.trans h.v, g.pc.trans h.pc, g.sp.trans h.sp, g.i.trans h.i, g.dt.trans h.dt,
    g.st.trans h.st, g.exit.trans h.exit, g.status.trans h.status, g.env.trans h.env⟩

theorem flipPixel_samePlaces (px py : Nat) (s : State) : SamePlaces s (s.flipPixel px py) := by
  constructor <;> simp

theorem clearDisplay_samePlaces (s : State) : SamePlaces s (clearDisplay s) := by
  constructor <;> simp

/-- A blit changes nothing but the picture. -/
theorem blit_samePlaces (ps : List (Nat × Nat)) (s : State) : SamePlaces s (blit ps s).2 := by
  induction ps generalizing s with
  | nil => exact .refl s
  | cons p ps ih => exact (flipPixel_samePlaces p.1 p.2 s).trans (ih _)

/-- Blitting two lists of pixels is blitting one after the other. -/
theorem blit_append (ps qs : List (Nat × Nat)) (s : State) :
    blit (ps ++ qs) s = ((blit ps s).1 || (blit qs (blit ps s).2).1, (blit qs (blit ps s).2).2) := by
  induction ps generalizing s with
  | nil => simp [blit]
  | cons p ps ih => simp [blit, ih, Bool.or_assoc]

/-! ## The pixels of a sprite are pixels -/

theorem mem_rowPixels {xs py : Nat} {row : Byte} {p : Nat × Nat} (h : p ∈ rowPixels xs py row) :
    p.1 < displayW ∧ p.2 = py := by
  simp only [rowPixels, List.mem_map] at h
  obtain ⟨c, -, rfl⟩ := h
  exact ⟨Nat.mod_lt _ (by decide), rfl⟩

theorem mem_spritePixels {xs : Nat} {rows : List Byte} {p : Nat × Nat} :
    ∀ {ys : Nat}, p ∈ spritePixels xs ys rows → p.1 < displayW ∧ p.2 < displayH := by
  induction rows with
  | nil => intro ys h; simp [spritePixels] at h
  | cons row rows ih =>
    intro ys h
    rcases List.mem_append.mp h with h | h
    · obtain ⟨hx, hy⟩ := mem_rowPixels h
      exact ⟨hx, hy ▸ Nat.mod_lt _ (by decide)⟩
    · exact ih h

/-! ## The picture's own memory -/

/-- In external mode a flip leaves memory. -/
theorem flipPixel_mem_external {s : State} (h : s.cfg.displayMode = .external) (px py : Nat) :
    (s.flipPixel px py).mem = s.mem := by
  simp [State.flipPixel, h]

/-- In inline mode a flip leaves the bit plane. -/
theorem flipPixel_fb_inline {s : State} (h : s.cfg.displayMode = .inline) (px py : Nat) :
    (s.flipPixel px py).fb = s.fb := by
  simp [State.flipPixel, h]

/-- A blit of pixels of the display reads as before outside the framebuffer. -/
theorem blit_readMem {ps : List (Nat × Nat)} {s : State} {a : Nat}
    (hp : ∀ p ∈ ps, p.1 < displayW ∧ p.2 < displayH)
    (ha : a < s.cfg.displayStart ∨ s.cfg.displayStart + framebufferBytes ≤ a) :
    (blit ps s).2.readMem a = s.readMem a := by
  induction ps generalizing s with
  | nil => rfl
  | cons p ps ih =>
    have hrest : ∀ q ∈ ps, q.1 < displayW ∧ q.2 < displayH := fun q hq => hp q (List.mem_cons_of_mem _ hq)
    have hb := pixelByte_lt s.cfg (hp p List.mem_cons_self).1 (hp p List.mem_cons_self).2
    have hflip : (s.flipPixel p.1 p.2).readMem a = s.readMem a := by
      cases hm : s.cfg.displayMode with
      | external => simp only [State.flipPixel, hm]; rfl
      | inline =>
        simp only [State.flipPixel, hm, readMem_writeMem]
        refine if_neg ?_
        omega
    have hcfg : (s.flipPixel p.1 p.2).cfg = s.cfg := flipPixel_cfg _ _ _
    show (blit ps (s.flipPixel p.1 p.2)).2.readMem a = _
    rw [ih hrest (by rw [hcfg]; exact ha), hflip]

/-- In a machine's configuration a blit of pixels of the display keeps the memory canonical. -/
theorem blit_wf {ps : List (Nat × Nat)} {s : State} (hc : s.cfg.Valid)
    (hp : ∀ p ∈ ps, p.1 < displayW ∧ p.2 < displayH) (hm : Memory.wf s.cfg s.mem) :
    Memory.wf s.cfg (blit ps s).2.mem := by
  induction ps generalizing s with
  | nil => exact hm
  | cons p ps ih =>
    have hb := pixelByte_lt s.cfg (hp p List.mem_cons_self).1 (hp p List.mem_cons_self).2
    have hcfg : (s.flipPixel p.1 p.2).cfg = s.cfg := flipPixel_cfg _ _ _
    have hflip : Memory.wf s.cfg (s.flipPixel p.1 p.2).mem := by
      cases hmode : s.cfg.displayMode with
      | external => rw [flipPixel_mem_external hmode]; exact hm
      | inline =>
        have hd := hc.2.2.2.2.2.1 hmode
        simp only [State.flipPixel, hmode, writeMem_mem]
        refine Memory.write_wf hm ?_
        simp only [framebufferBytes, memEnd] at *
        omega
    have := ih (s := s.flipPixel p.1 p.2) (by rw [hcfg]; exact hc)
      (fun q hq => hp q (List.mem_cons_of_mem _ hq)) (by rw [hcfg]; exact hflip)
    rw [hcfg] at this
    exact this

theorem length_blankFramebuffer : blankFramebuffer.length = 256 := List.length_replicate

theorem getD_blankFramebuffer (k : Nat) : blankFramebuffer.getD k 0#8 = 0#8 := by
  simp only [blankFramebuffer, List.getD_eq_getElem?_getD, List.getElem?_replicate]
  split <;> rfl

/-- So does a clear. -/
theorem clearDisplay_wf {s : State} (hc : s.cfg.Valid) (hm : Memory.wf s.cfg s.mem) :
    Memory.wf s.cfg (clearDisplay s).mem := by
  cases hmode : s.cfg.displayMode with
  | external => simpa only [clearDisplay, hmode] using hm
  | inline =>
    have hd := hc.2.2.2.2.2.1 hmode
    have hb : s.cfg.displayStart + blankFramebuffer.length ≤ memEnd := by
      rw [length_blankFramebuffer, hd]
    have hw := Memory.writeRange_wf _ _ _ hm hb
    simpa only [clearDisplay, hmode] using hw

end Sys2Proof.Machine
end

