-- ==== Sys2Proof/Laws/PerInstr.lean ====
section
/-! SUPPORT. The family MatchesRow: the word of an instruction matches the instruction's row of the opcode
table under any configuration, whatever its operands; one lemma per constructor of Instr. -/

namespace Sys2Proof.Laws

/-! ## What the three mask shapes keep of a word of each format -/

theorem encodeNNN_and_family (f : BitVec 4) (nnn : Addr12) :
    encodeNNN f nnn &&& 0xF000#16 = f ++ 0x000#12 := by
  have hmask : ∀ i < 16, (0xF000#16).getLsbD i = decide (12 ≤ i) := by decide
  refine BitVec.eq_of_getLsbD_eq fun i hi => ?_
  simp only [encodeNNN, BitVec.getLsbD_and, BitVec.getLsbD_append, hmask i hi]
  by_cases h : i < 12
  · simp [h]
  · simp [h]; omega

theorem encodeXKK_eq_encodeNNN (f : BitVec 4) (x : Reg) (kk : Byte) :
    encodeXKK f x kk = encodeNNN f ((⟨x⟩ : BitVec 4) ++ kk) := by
  refine BitVec.eq_of_getLsbD_eq fun i hi => ?_
  simp only [encodeXKK, encodeNNN, BitVec.getLsbD_append]
  by_cases h : i < 8
  · simp [h, show i < 12 by omega]
  · by_cases h' : i < 12
    · simp [h, h', show i - 8 < 4 by omega]
    · simp [h, h', show ¬ i - 8 < 4 by omega, show i - 8 - 4 = i - 12 by omega]

theorem encodeXYN_eq_encodeXKK (f : BitVec 4) (x y : Reg) (n : Fin 16) :
    encodeXYN f x y n = encodeXKK f x ((⟨y⟩ : BitVec 4) ++ (⟨n⟩ : BitVec 4)) := by
  refine BitVec.eq_of_getLsbD_eq fun i hi => ?_
  simp only [encodeXYN, encodeXKK, BitVec.getLsbD_append]
  by_cases h : i < 4
  · simp [h, show i < 8 by omega]
  · by_cases h' : i < 8
    · simp [h, h', show i - 4 < 4 by omega]
    · simp [h, h', show ¬ i - 4 < 4 by omega, show i - 4 - 4 = i - 8 by omega]

theorem encodeXKK_and_family (f : BitVec 4) (x : Reg) (kk : Byte) :
    encodeXKK f x kk &&& 0xF000#16 = f ++ 0x000#12 := by
  rw [encodeXKK_eq_encodeNNN, encodeNNN_and_family]

theorem encodeXYN_and_family (f : BitVec 4) (x y : Reg) (n : Fin 16) :
    encodeXYN f x y n &&& 0xF000#16 = f ++ 0x000#12 := by
  rw [encodeXYN_eq_encodeXKK, encodeXKK_and_family]

theorem encodeXKK_and_kk (f : BitVec 4) (x : Reg) (kk : Byte) :
    encodeXKK f x kk &&& 0xF0FF#16 = f ++ 0x0#4 ++ kk := by
  have hmask : ∀ i < 16, (0xF0FF#16).getLsbD i = (decide (12 ≤ i) || decide (i < 8)) := by decide
  refine BitVec.eq_of_getLsbD_eq fun i hi => ?_
  simp only [encodeXKK, BitVec.getLsbD_and, BitVec.getLsbD_append, hmask i hi]
  by_cases h : i < 8
  · simp [h]
  · by_cases h' : i < 12
    · simp [h, show i - 8 < 4 by omega]; omega
    · simp [h, show ¬ i - 8 < 4 by omega]; omega

theorem encodeXYN_and_low (f : BitVec 4) (x y : Reg) (n : Fin 16) :
    encodeXYN f x y n &&& 0xF00F#16 = f ++ 0x00#8 ++ (⟨n⟩ : BitVec 4) := by
  have hmask : ∀ i < 16, (0xF00F#16).getLsbD i = (decide (12 ≤ i) || decide (i < 4)) := by decide
  refine BitVec.eq_of_getLsbD_eq fun i hi => ?_
  simp only [encodeXYN, BitVec.getLsbD_and, BitVec.getLsbD_append, hmask i hi]
  by_cases h : i < 4
  · simp [h]
  · by_cases h' : i < 12
    · simp [h, show i - 4 < 8 by omega, show ¬ 12 ≤ i by omega]
    · simp [h, show ¬ i - 4 < 4 by omega, show ¬ i - 4 - 4 < 4 by omega, show ¬ i - 4 < 8 by omega,
        show i - 4 - 4 - 4 = i - 4 - 8 by omega, show 12 ≤ i by omega]

/-! ## The family -/

namespace MatchesRow

/-- The word of the instruction matches the instruction's row (R102, R103). -/
def Statement (i : Instr) : Prop := ∀ c : Config, (i.row c).covers (encode i) = true

/-- A row covers the words that its mask takes to its match bits. -/
theorem covers_of_and {r : OpcodeRow} {op : Word} (h : op &&& r.maskBits = r.matchBits) :
    r.covers op = true := by
  simp [OpcodeRow.covers, h]

theorem sys (nnn : Addr12) : Statement (.sys nnn) := fun _ =>
  covers_of_and (encodeNNN_and_family _ _)

theorem cls : Statement .cls := fun _ =>
  covers_of_and (show 0x00E0#16 &&& 0xFFFF#16 = 0x00E0#16 by decide)

theorem ret : Statement .ret := fun _ =>
  covers_of_and (show 0x00EE#16 &&& 0xFFFF#16 = 0x00EE#16 by decide)

theorem jp (nnn : Addr12) : Statement (.jp nnn) := fun _ =>
  covers_of_and (encodeNNN_and_family _ _)

theorem call (nnn : Addr12) : Statement (.call nnn) := fun _ =>
  covers_of_and (encodeNNN_and_family _ _)

theorem seImm (x : Reg) (kk : Byte) : Statement (.seImm x kk) := fun _ =>
  covers_of_and (encodeXKK_and_family _ _ _)

theorem sneImm (x : Reg) (kk : Byte) : Statement (.sneImm x kk) := fun _ =>
  covers_of_and (encodeXKK_and_family _ _ _)

theorem seReg (x y : Reg) : Statement (.seReg x y) := fun c => by
  refine covers_of_and ?_
  cases h : c.strict59
  · simp only [Instr.row, h, Bool.false_eq_true, if_false]; exact encodeXYN_and_family _ _ _ _
  · simp only [Instr.row, h, if_true]; exact encodeXYN_and_low _ _ _ _

theorem ldImm (x : Reg) (kk : Byte) : Statement (.ldImm x kk) := fun _ =>
  covers_of_and (encodeXKK_and_family _ _ _)

theorem addImm (x : Reg) (kk : Byte) : Statement (.addImm x kk) := fun _ =>
  covers_of_and (encodeXKK_and_family _ _ _)

theorem ldReg (x y : Reg) : Statement (.ldReg x y) := fun _ =>
  covers_of_and (encodeXYN_and_low _ _ _ _)

theorem orReg (x y : Reg) : Statement (.orReg x y) := fun _ =>
  covers_of_and (encodeXYN_and_low _ _ _ _)

theorem andReg (x y : Reg) : Statement (.andReg x y) := fun _ =>
  covers_of_and (encodeXYN_and_low _ _ _ _)

theorem xorReg (x y : Reg) : Statement (.xorReg x y) := fun _ =>
  covers_of_and (encodeXYN_and_low _ _ _ _)

theorem addReg (x y : Reg) : Statement (.addReg x y) := fun _ =>
  covers_of_and (encodeXYN_and_low _ _ _ _)

theorem subReg (x y : Reg) : Statement (.subReg x y) := fun _ =>
  covers_of_and (encodeXYN_and_low _ _ _ _)

theorem shr (x y : Reg) : Statement (.shr x y) := fun _ =>
  covers_of_and (encodeXYN_and_low _ _ _ _)

theorem subn (x y : Reg) : Statement (.subn x y) := fun _ =>
  covers_of_and (encodeXYN_and_low _ _ _ _)

theorem shl (x y : Reg) : Statement (.shl x y) := fun _ =>
  covers_of_and (encodeXYN_and_low _ _ _ _)

theorem sneReg (x y : Reg) : Statement (.sneReg x y) := fun c => by
  refine covers_of_and ?_
  cases h : c.strict59
  · simp only [Instr.row, h, Bool.false_eq_true, if_false]; exact encodeXYN_and_family _ _ _ _
  · simp only [Instr.row, h, if_true]; exact encodeXYN_and_low _ _ _ _

theorem ldI (nnn : Addr12) : Statement (.ldI nnn) := fun _ =>
  covers_of_and (encodeNNN_and_family _ _)

theorem jpV0 (nnn : Addr12) : Statement (.jpV0 nnn) := fun _ =>
  covers_of_and (encodeNNN_and_family _ _)

theorem rnd (x : Reg) (kk : Byte) : Statement (.rnd x kk) := fun _ =>
  covers_of_and (encodeXKK_and_family _ _ _)

theorem drw (x y : Reg) (n : RowCount) : Statement (.drw x y n) := fun _ =>
  covers_of_and (encodeXYN_and_family _ _ _ _)

theorem skp (x : Reg) : Statement (.skp x) := fun _ =>
  covers_of_and (encodeXKK_and_kk _ _ _)

theorem sknp (x : Reg) : Statement (.sknp x) := fun _ =>
  covers_of_and (encodeXKK_and_kk _ _ _)

theorem ldVxDt (x : Reg) : Statement (.ldVxDt x) := fun _ =>
  covers_of_and (encodeXKK_and_kk _ _ _)

theorem ldVxK (x : Reg) : Statement (.ldVxK x) := fun _ =>
  covers_of_and (encodeXKK_and_kk _ _ _)

theorem ldDtVx (x : Reg) : Statement (.ldDtVx x) := fun _ =>
  covers_of_and (encodeXKK_and_kk _ _ _)

theorem ldStVx (x : Reg) : Statement (.ldStVx x) := fun _ =>
  covers_of_and (encodeXKK_and_kk _ _ _)

theorem addI (x : Reg) : Statement (.addI x) := fun _ =>
  covers_of_and (encodeXKK_and_kk _ _ _)

theorem ldFont (x : Reg) : Statement (.ldFont x) := fun _ =>
  covers_of_and (encodeXKK_and_kk _ _ _)

theorem ldB (x : Reg) : Statement (.ldB x) := fun _ =>
  covers_of_and (encodeXKK_and_kk _ _ _)

theorem ldMemVx (x : Reg) : Statement (.ldMemVx x) := fun _ =>
  covers_of_and (encodeXKK_and_kk _ _ _)

theorem ldVxMem (x : Reg) : Statement (.ldVxMem x) := fun _ =>
  covers_of_and (encodeXKK_and_kk _ _ _)

end MatchesRow

end Sys2Proof.Laws
end

