-- ==== Sys2Proof/Laws/Timer.lean ====
section
/-! SUPPORT. The laws of one tick, and of the host's clock. -/

namespace Sys2Proof.Machine

@[simp] theorem set_count (v : Byte) (t : Instant) : (Timer.set v t).count = v := rfl

@[simp] theorem set_anchor (v : Byte) (t : Instant) : (Timer.set v t).anchor = t := rfl

/-- The saturating subtraction of R321. -/
theorem tick_count (T : Timer) (t : Instant) :
    (T.tick t).count.toNat = T.count.toNat - wholeIntervals T.anchor t := by
  have h := T.count.isLt
  simp only [Timer.tick, Timer.decay]
  split
  · rename_i h0; simp [h0]
  · rw [BitVec.toNat_ofNat]; exact Nat.mod_eq_of_lt (by omega)

theorem tick_anchor (T : Timer) (t : Instant) :
    (T.tick t).anchor = T.anchor + (wholeIntervals T.anchor t : Rat) / 60 := by
  simp [Timer.tick]

/-- A tick never moves the anchor back, nor past the tick instant. -/
theorem tick_anchor_le (T : Timer) (t : Instant) (h : T.anchor ≤ t) :
    T.anchor ≤ (T.tick t).anchor ∧ (T.tick t).anchor ≤ t := by
  have hk : ((wholeIntervals T.anchor t : Nat) : Rat) ≤ (t - T.anchor) * 60 := by
    have := Nat.floor_le (a := (t - T.anchor) * (timerHz : Rat))
      (mul_nonneg (sub_nonneg.mpr h) (Nat.cast_nonneg _))
    simpa [wholeIntervals] using this
  rw [tick_anchor]
  have h0 : (0 : Rat) ≤ (wholeIntervals T.anchor t : Nat) := Nat.cast_nonneg _
  constructor <;> linarith

/-! ## The host's clock -/

/-- In an admissible call the instants are in order after the clock (R326). -/
theorem current_ordered {e : HostEnv} (h : e.admissible = true) :
    e.clock ≤ e.current.tExec ∧ e.current.tExec ≤ e.current.tTick := by
  unfold HostEnv.admissible at h
  unfold HostEnv.current
  split at h
  · simpa using h
  · have h1 : (0 : Rat) ≤ (Config.freeExecWait e.draws : Rat) := NNRat.coe_nonneg _
    have h2 : (0 : Rat) ≤ (Config.freeTickWait e.draws : Rat) := NNRat.coe_nonneg _
    simp only [HostEnv.freeInput]
    constructor <;> linarith

/-- When a call returns, the clock is at its tick instant. -/
theorem consumed_clock (e : HostEnv) : e.consumed.clock = e.current.tTick := by
  unfold HostEnv.consumed HostEnv.current
  split <;> rfl

end Sys2Proof.Machine
end

