-- ==== Sys2Proof/Laws/Step.lean ====
section
/-! SUPPORT. Everything a step can do, once: a fetch, the meaning of the decoded instruction or the
rejection of the word, and the end of the step. -/

namespace Sys2Proof.Machine

theorem fetch_ok {s : State} (h : s.pc + 1 < memEnd) :
    fetch s = .ok (wordOfBytes (s.readMem s.pc) (s.readMem (s.pc + 1))) := by
  simp only [fetch, loadByte_ok (show s.pc < memEnd by omega), loadByte_ok h]

theorem fetch_error {s : State} (h : ¬ s.pc + 1 < memEnd) : ∃ e, fetch s = .error e := by
  unfold fetch
  rw [loadByte_error h]
  by_cases h0 : s.pc < memEnd
  · rw [loadByte_ok h0]; exact ⟨_, rfl⟩
  · rw [loadByte_error h0]; exact ⟨_, rfl⟩

/-- What the fetched word leads to. -/
theorem runInstruction_cases (s : State) :
    (∃ op i, fetch s = .ok op ∧ decode s.cfg op = .known i ∧ runInstruction s = exec i s) ∨
    (∃ op w, fetch s = .ok op ∧ decode s.cfg op = .unknown w ∧
      runInstruction s = .next (s.faultedWith (.unknownOpcode w s.pc))) ∨
    (∃ e, fetch s = .error e ∧ runInstruction s = .next (s.faultedWith e)) := by
  cases hf : fetch s with
  | error e => exact .inr (.inr ⟨e, rfl, by simp only [runInstruction, hf]; rfl⟩)
  | ok op =>
    cases hd : decode s.cfg op with
    | known i => exact .inl ⟨op, i, rfl, hd, by simp only [runInstruction, hf, hd]⟩
    | unknown w => exact .inr (.inl ⟨op, w, rfl, hd, by simp only [runInstruction, hf, hd]; rfl⟩)

/-- A step with a next state: a machine that runs, a call its clock allows, an instruction (or a
rejection) with a next state, and the end of the step. -/
theorem step_next {s t : State} (h : step s = .next t) :
    s.cfg.Valid ∧ s.status = .running ∧ s.env.admissible = true ∧
      ∃ u, runInstruction s = .next u ∧ t = endStep u := by
  unfold step at h
  split at h
  · rename_i hv
    split at h
    · cases h
    · rename_i hr
      split at h
      · rename_i ha
        split at h
        · rename_i u hu
          cases h
          exact ⟨hv, hr, ha, u, hu, rfl⟩
        · cases h
        · cases h
      · cases h
  · cases h

/-- And the converse. -/
theorem step_of_next {s u : State} (hv : s.cfg.Valid) (hr : s.status = .running)
    (ha : s.env.admissible = true) (hu : runInstruction s = .next u) : step s = .next (endStep u) := by
  unfold step
  rw [if_pos hv]
  simp only [hr, ha, if_true, hu]

/-- The end of a step after an instruction that completed. -/
theorem endStep_running {s : State} (h : s.status = .running) :
    endStep s = { s with dt := s.dt.tick s.env.current.tTick, st := s.st.tick s.env.current.tTick,
                         env := s.env.consumed } := by
  simp only [endStep, h, tickTimers]

/-- The end of a step after a fatal error: no tick. -/
theorem endStep_faulted {s : State} {e : Fatal} (h : s.status = .faulted e) :
    endStep s = { s with env := s.env.consumed } := by
  simp only [endStep, h]

end Sys2Proof.Machine
end

