-- ==== Sys2Proof/Tests/Slice0.lean ====
section
/-! SUPPORT. The tests: decoding of words written out from the spec's patterns, terms and configurations
the checks refuse, the spec's own vectors (spec/95_test_vectors.md, by their ids) one step each, and one
witness for the hypotheses of every obligation that has some. -/

namespace Sys2Proof.Tests

-- One theorem after another: the tests are many and small.
set_option Elab.async false

open Sys2Proof.Machine Sys2Proof.Safety

/-! ## Small states -/

/-- A machine after `init` with the empty image at instant 0, the next call at instant 0 with the random
byte of the vectors T-I17 to T-I19. -/
def start (c : Config) : State := (State.initial c 0).withCalls [⟨0, 0, 0xA7⟩]

/-- The start state of the spec's vectors. -/
def base : State := start defaultConfig

/-- The same with DISPLAY_MODE = `external`. -/
def outer : State := start { defaultConfig with displayMode := .external }

/-- Registers given values. -/
def regs (l : List (Reg × Byte)) (s : State) : State := l.foldl (fun s p => s.setV p.1 p.2) s

/-- Bytes of memory given values. -/
def poke (a : Nat) (bytes : List Byte) (s : State) : State :=
  { s with mem := s.mem.writeRange s.cfg a bytes }

/-- A cursor given a value. -/
def pcAt (a : Nat) : State → State := State.putCursor .pc a
def spAt (a : Nat) : State → State := State.putCursor .sp a
def iAt (a : Nat) : State → State := State.putCursor .i a

/-- A word at PC. -/
def word (w : Nat) (s : State) : State := s.withFetchWord 16 w

/-- One step with a word at PC. -/
def after (w : Nat) (s : State) : Outcome := step (word w s)

/-- Something of the next state, if there is one. -/
def look {σ α : Type} (r : Host.Outcome σ Fault Refusal) (f : σ → α) : Option α :=
  match r with
  | .next t => some (f t)
  | .fault _ => none
  | .refused _ => none

/-- Bytes of memory. -/
def bytes (a n : Nat) (s : State) : List Byte := (List.range n).map (fun k => s.readMem (a + k))

/-- There is a next state. -/
abbrev Runs (r : Outcome) : Prop := look r (fun _ => ()) = some ()

/-! ## Decoding: one word for each constructor, written out from its pattern (R94 to R98, R103) -/

/-- What the decoder reads from the two bytes of a word under the default configuration. -/
abbrev reads (hi lo : Byte) (i : Instr) : Prop := decodeBytes defaultConfig hi lo = .known i

theorem test_decode_family0 : reads 0x01 0x23 (.sys 0x123) ∧ reads 0x00 0xE0 .cls ∧ reads 0x00 0xEE .ret := by
  decide +kernel
theorem test_decode_jumps : reads 0x1A 0xBC (.jp 0xABC) ∧ reads 0x2A 0xBC (.call 0xABC) ∧
    reads 0xBA 0xBC (.jpV0 0xABC) ∧ reads 0xAA 0xBC (.ldI 0xABC) := by decide +kernel
theorem test_decode_skips : reads 0x3A 0xBC (.seImm 0xA 0xBC) ∧ reads 0x4A 0xBC (.sneImm 0xA 0xBC) ∧
    reads 0x5A 0xB0 (.seReg 0xA 0xB) ∧ reads 0x9A 0xB0 (.sneReg 0xA 0xB) := by decide +kernel
theorem test_decode_immediates : reads 0x6A 0xBC (.ldImm 0xA 0xBC) ∧ reads 0x7A 0xBC (.addImm 0xA 0xBC) ∧
    reads 0xCA 0xBC (.rnd 0xA 0xBC) := by decide +kernel
theorem test_decode_family8_low : reads 0x8A 0xB0 (.ldReg 0xA 0xB) ∧ reads 0x8A 0xB1 (.orReg 0xA 0xB) ∧
    reads 0x8A 0xB2 (.andReg 0xA 0xB) ∧ reads 0x8A 0xB3 (.xorReg 0xA 0xB) := by decide +kernel
theorem test_decode_family8_high : reads 0x8A 0xB4 (.addReg 0xA 0xB) ∧ reads 0x8A 0xB5 (.subReg 0xA 0xB) ∧
    reads 0x8A 0xB6 (.shr 0xA 0xB) ∧ reads 0x8A 0xB7 (.subn 0xA 0xB) ∧ reads 0x8A 0xBE (.shl 0xA 0xB) := by
  decide +kernel
theorem test_decode_draw_and_keys : reads 0xDA 0xBC (.drw 0xA 0xB 0xC) ∧ reads 0xEA 0x9E (.skp 0xA) ∧
    reads 0xEA 0xA1 (.sknp 0xA) ∧ reads 0xFA 0x0A (.ldVxK 0xA) := by decide +kernel
theorem test_decode_familyF_timers : reads 0xFA 0x07 (.ldVxDt 0xA) ∧ reads 0xFA 0x15 (.ldDtVx 0xA) ∧
    reads 0xFA 0x18 (.ldStVx 0xA) := by decide +kernel
theorem test_decode_familyF_index : reads 0xFA 0x1E (.addI 0xA) ∧ reads 0xFA 0x29 (.ldFont 0xA) ∧
    reads 0xFA 0x33 (.ldB 0xA) ∧ reads 0xFA 0x55 (.ldMemVx 0xA) ∧ reads 0xFA 0x65 (.ldVxMem 0xA) := by
  decide +kernel

/-- T-X6, T-X8, T-X9, T-X10 and R98 under SYS_POLICY = `fault`: words that are no instruction. -/
theorem test_decode_unknown :
    [0x8008#16, 0x8009#16, 0x800A#16, 0x800F#16, 0xE000#16, 0xE09F#16, 0xF000#16, 0xF066#16].all
      (fun w => decode defaultConfig w = .unknown w) = true ∧
    decode { defaultConfig with strict59 := true } 0x5121#16 = .unknown 0x5121#16 ∧
    decode { defaultConfig with sysPolicy := .fault } 0x0000#16 = .unknown 0x0000#16 := by decide +kernel

/-- No two rows of the table but `SYS`'s share a word (R102): where two masks overlap, the match bits
differ. -/
theorem test_table_rows_disjoint : (tableInstrs.map (Instr.row defaultConfig)).Pairwise
    (fun q r => q.matchBits &&& r.maskBits ≠ r.matchBits &&& q.maskBits) := by decide +kernel

/-- R110's examples. -/
theorem test_print : printInstr (.drw 0 1 5) = "DRW V0,V1,5" ∧ printInstr (.addReg 0xA 0xB) = "ADD VA,VB" ∧
    printInstr (.ldFont 2) = "LD I,FONT(V2)" := by decide +kernel

/-! ## What the checks refuse -/

theorem test_wf_refuses_sys_as_cls : (Instr.sys 0x0E0).WellFormed defaultConfig = false := by decide +kernel
theorem test_wf_refuses_sys_as_ret : (Instr.sys 0x0EE).WellFormed defaultConfig = false := by decide +kernel
theorem test_wf_refuses_sys_under_fault :
    (Instr.sys 0x123).WellFormed { defaultConfig with sysPolicy := .fault } = false := by decide +kernel

/-- Configurations that are no machine, one for each clause of R341 and the length of the table. -/
def noMachines : List Config :=
  [{ defaultConfig with stackStart := 0x200 }, { defaultConfig with stackStart := 0xEFE },
    { defaultConfig with displayMode := .external, displayStart := 0x1002 },
    { defaultConfig with stackStart := 0xEA1 },
    { defaultConfig with displayMode := .external, displayStart := 0xF01 },
    { defaultConfig with displayStart := 0xF02 }, { defaultConfig with fontBase := 0x1B1 },
    { defaultConfig with fontTable := [] }]

theorem test_config_refused : ∀ c ∈ noMachines, ¬ c.Valid := by decide +kernel

/-- The name of a refusal, if a step is refused. -/
def refusalOf (r : Outcome) : Option Refusal :=
  match r with
  | .next _ => none
  | .fault _ => none
  | .refused e => some e

/-- The fault of a step, if it has one. -/
def faultOf (r : Outcome) : Option Fault :=
  match r with
  | .next _ => none
  | .fault e => some e
  | .refused _ => none

theorem test_no_step_without_machine :
    ∀ c ∈ noMachines, refusalOf (step (start c)) = some .illegalConfig := by decide +kernel
/-- T-I17 again, the configuration and the inputs being arguments (R331). -/
theorem test_core_step : look (coreStep defaultConfig ⟨0, 0, 0xA7⟩ (word 0xC10F base).toCoreState)
    (fun m => m.v[1]) = some 0x07 := by decide +kernel
theorem test_no_step_backwards :
    refusalOf (step ((State.initial defaultConfig 1).withCalls [⟨0, 2, 0⟩])) = some .clockBackwards ∧
    refusalOf (step ((State.initial defaultConfig 1).withCalls [⟨3, 2, 0⟩])) = some .clockBackwards := by
  decide +kernel

/-! ## Vectors: skips and control flow -/

theorem test_s1_s2 : look (after 0x3312 (regs [(3, 0x12)] base)) (·.pc) = some 0x204 ∧
    look (after 0x3300 (regs [(3, 0x12)] base)) (·.pc) = some 0x202 := by decide +kernel
theorem test_s10 : look (after 0x3000 (pcAt 0xE9C base)) (·.status) =
    some (.faulted (.cursorRange .pc 0xEA0 0xE9C)) := by decide +kernel
theorem test_s4_s5 : look (after 0x4312 (regs [(3, 0x12)] base)) (·.pc) = some 0x202 ∧
    look (after 0x4313 (regs [(3, 0x12)] base)) (·.pc) = some 0x204 := by decide +kernel
theorem test_s6 : look (after 0x5120 (regs [(1, 7), (2, 7)] base)) (·.pc) = some 0x204 := by decide +kernel
theorem test_s8_s9 : look (after 0x9120 (regs [(1, 7), (2, 8)] base)) (·.pc) = some 0x204 ∧
    look (after 0x9110 base) (·.pc) = some 0x202 := by decide +kernel
theorem test_c1_c2 : look (after 0x1208 base) (fun t => (t.pc, t.exit)) = some (0x208, false) ∧
    look (after 0x1208 (pcAt 0x208 base)) (fun t => (t.pc, t.exit)) = some (0x208, true) := by decide +kernel
theorem test_c4 : look (after 0x11FE base) (·.status) =
    some (.faulted (.cursorRange .pc 0x1FE 0x200)) := by decide +kernel
theorem test_c6 : look (after 0x2210 (pcAt 0x204 base))
    (fun t => (bytes 0xEA0 2 t, t.sp, t.pc)) = some ([0x02, 0x04], 0xEA2, 0x210) := by decide +kernel
theorem test_c7 : look (after 0x2400 (spAt 0xEFE (pcAt 0x300 base)))
    (fun t => (bytes 0xEFE 2 t, t.status)) =
    some ([0x03, 0x00], .faulted (.cursorRange .sp 0xF00 0x300)) := by decide +kernel
theorem test_c9 : look (after 0x00EE (spAt 0xEA2 (poke 0xEA0 [0x02, 0x04] base)))
    (fun t => (t.sp, t.pc)) = some (0xEA0, 0x206) := by decide +kernel
theorem test_c10 : look (after 0x00EE base) (·.status) =
    some (.faulted (.cursorRange .sp 0xE9E 0x200)) := by decide +kernel
theorem test_c13 : look (after 0xB300 (regs [(0, 0x04)] base)) (·.pc) = some 0x304 := by decide +kernel
theorem test_c14 : look (after 0xBFFF (regs [(0, 0xFF)] base)) (·.status) =
    some (.faulted (.cursorRange .pc 0x10FE 0x200)) := by decide +kernel
theorem test_c16 : look (after 0x0123 base) (fun t => (t.pc, t.v, t.i)) =
    some (0x202, Vector.replicate 16 0#8, 0) := by decide +kernel

/-! ## Vectors: loads and arithmetic -/

theorem test_a1 : look (after 0x6A2B base) (·.getV 0xA) = some 0x2B := by decide +kernel
theorem test_a28 : look (after 0x6001 (pcAt 0xE9E base)) (fun t => (t.getV 0, t.status)) =
    some (0x01, .faulted (.cursorRange .pc 0xEA0 0xE9E)) := by decide +kernel

/-- V1 and VF after a word, from V1 and V2. -/
def alu (c : Config) (w : Nat) (v1 v2 : Byte) : Option (Byte × Byte) :=
  look (after w (regs [(1, v1), (2, v2), (0xF, 0x77)] (start c))) (fun t => (t.getV 1, t.getV 0xF))

theorem test_a3 : alu defaultConfig 0x7101 0xFF 0 = some (0x00, 0x77) := by decide +kernel
theorem test_a6 : alu defaultConfig 0x8120 0 0x44 = some (0x44, 0x77) := by decide +kernel
theorem test_a7 : alu defaultConfig 0x8121 0x0F 0xF0 = some (0xFF, 0x77) ∧
    alu { defaultConfig with logicVfReset := true } 0x8121 0x0F 0xF0 = some (0xFF, 0x00) := by decide +kernel
theorem test_a8 : alu defaultConfig 0x8122 0x3C 0x0F = some (0x0C, 0x77) := by decide +kernel
theorem test_a9 : alu defaultConfig 0x8123 0x3C 0x0F = some (0x33, 0x77) := by decide +kernel
theorem test_e1 : alu defaultConfig 0x8124 0xFF 0x01 = some (0x00, 1) ∧
    alu defaultConfig 0x8124 0x7F 0x80 = some (0xFF, 0) := by decide +kernel
theorem test_a13 : look (after 0x8F14 (regs [(0xF, 0xFF), (1, 0x01)] base)) (·.getV 0xF) = some 1 := by
  decide +kernel
theorem test_a15_a16 : alu defaultConfig 0x8125 0x03 0x05 = some (0xFE, 0) ∧
    alu defaultConfig 0x8125 0x05 0x05 = some (0x00, 1) := by decide +kernel
theorem test_a18_a19 : alu defaultConfig 0x8127 0x05 0x03 = some (0xFE, 0) ∧
    alu defaultConfig 0x8127 0x03 0x05 = some (0x02, 1) := by decide +kernel
theorem test_a20 : alu defaultConfig 0x8126 0xAA 0x03 = some (0x01, 1) := by decide +kernel
theorem test_a23 : alu { defaultConfig with shiftSource := .vx } 0x8126 0x10 0x03 = some (0x08, 0) := by
  decide +kernel
theorem test_a24 : alu defaultConfig 0x812E 0 0x81 = some (0x02, 1) := by decide +kernel
theorem test_a27 : look (after 0x8FFE (regs [(0xF, 0x81)] base)) (·.getV 0xF) = some 1 := by decide +kernel

/-! ## Vectors: index, timers, random byte -/

theorem test_i1 : look (after 0xA300 base) (·.i) = some 0x300 := by decide +kernel
theorem test_i4 : look (after 0xAEA0 base) (·.status) =
    some (.faulted (.cursorRange .i 0xEA0 0x200)) := by decide +kernel
theorem test_i6 : look (after 0xF21E (iAt 0x300 (regs [(2, 0x10)] base))) (·.i) = some 0x310 := by
  decide +kernel
theorem test_i7 : look (after 0xF21E (iAt 0xFF8 (regs [(2, 0x10)] base))) (·.status) =
    some (.faulted (.cursorRange .i 0x1008 0x200)) := by decide +kernel
theorem test_i10 : look (after 0xF229 (regs [(2, 0x0A)] base)) (·.i) = some 0x032 := by decide +kernel
theorem test_i12 : look (after 0xF229 (regs [(2, 0x10)] base)) (·.status) =
      some (.faulted (.fontDigit 0x10 0x200)) ∧
    look (after 0xF229 (regs [(2, 0x10)] (start { defaultConfig with fontDigitPolicy := .mask })))
      (·.i) = some 0x000 := by decide +kernel
theorem test_i13 : look (after 0xF315 ((regs [(3, 60)] base).withCalls [⟨5, 5, 0⟩])) (·.dt) =
    some ⟨60, 5⟩ := by decide +kernel
theorem test_i14 : look (after 0xF307 { base with dt := ⟨0x1E, 0⟩ }) (·.getV 3) = some 0x1E := by
  decide +kernel
theorem test_t7 : look (after 0xF307 ({ base with dt := ⟨200, 0⟩ }.withCalls [⟨10, 10, 0⟩]))
    (fun t => (t.getV 3, t.dt.count)) = some (200, 0) := by decide +kernel
theorem test_i15_i16 : look (after 0xF018 (regs [(0, 5)] base)) (fun t => (t.st.count, t.beep)) = some (5, true) ∧
    look (after 0xF018 base) State.beep = some false := by decide +kernel
theorem test_i17_i18 : look (after 0xC10F base) (·.getV 1) = some 0x07 ∧
    look (after 0xC100 base) (·.getV 1) = some 0x00 := by decide +kernel

/-- E7 and T-T5. -/
theorem test_e7_t5 : (Timer.set 60 0).tick 1 = ⟨0, 1⟩ ∧ ((Timer.set 3 0).tick 100).count = 0 := by
  decide +kernel
/-- T-T4: the part of an interval not yet counted is kept. -/
theorem test_t4 : (Timer.set 10 0).tick (1 / 100) = ⟨10, 0⟩ ∧
    ((Timer.set 10 0).tick (1 / 100)).tick (2 / 100) = ⟨9, 1 / 60⟩ := by decide +kernel
/-- T-T6: a set drops it. -/
theorem test_t6 : (Timer.set 5 0).tick (1 / 60) = ⟨4, 1 / 60⟩ ∧
    ((Timer.set 5 (1 / 60 + 1 / 120)).tick (2 / 60)).count = 5 := by decide +kernel

/-! ## Vectors: BCD, blocks, display, keys -/

theorem test_e4 : look (after 0xFA33 (iAt 0x300 (regs [(0xA, 0xFE)] base))) (bytes 0x300 3) =
    some [2, 5, 4] := by decide +kernel
theorem test_b4 : look (after 0xF033 (iAt 0xFFE (regs [(0, 100)] base)))
    (fun t => (bytes 0xFFE 2 t, t.status)) = some ([1, 0], .faulted (.memBounds 0x1000 0x200)) := by
  decide +kernel
theorem test_b5 : look (after 0xF155 (iAt 0x300 (regs [(0, 0x11), (1, 0x22)] base)))
      (fun t => (bytes 0x300 2 t, t.i)) = some ([0x11, 0x22], 0x300) ∧
    look (after 0xF155 (iAt 0x300 (start { defaultConfig with blockIncrementsI := true }))) (·.i) =
      some 0x302 := by decide +kernel
theorem test_b7 : look (after 0xF155 (iAt 0xFFF (regs [(0, 1), (1, 2)] base)))
    (fun t => (bytes 0xFFF 1 t, t.status)) = some ([1], .faulted (.memBounds 0x1000 0x200)) := by
  decide +kernel
theorem test_b8 : look (after 0xF265 (iAt 0x300 (poke 0x300 [2, 5, 4] base)))
    (fun t => (t.getV 0, t.getV 1, t.getV 2, t.i)) = some (2, 5, 4, 0x300) := by decide +kernel
theorem test_b12 : look (after 0xF265 base) (fun t => (t.getV 0, t.getV 1, t.getV 2)) =
    some (0xF0, 0x90, 0x90) := by decide +kernel
theorem test_d1 : look (after 0xD011 (iAt 0x20E (poke 0x20E [0xF0] (regs [(0, 60), (1, 5)] base))))
    (fun t => (bytes 0xF28 8 t, t.getV 0xF)) = some ([0, 0, 0, 0, 0, 0, 0, 0x0F], 0) := by decide +kernel
theorem test_d3_d7 : look (after 0xD011 (iAt 0x300 (poke 0x300 [0x81] (regs [(0, 63)] base))))
      (fun t => (t.readMem 0xF07, t.readMem 0xF00)) = some (0x01, 0x02) ∧
    look (after 0xD011 (iAt 0x300 (poke 0x300 [0xC0] (poke 0xF00 [0x80] base))))
      (fun t => (t.readMem 0xF00, t.getV 0xF)) = some (0x40, 1) := by decide +kernel
theorem test_d12 : look (after 0x00E0 (poke 0xF80 [0xAA, 0xBB] (regs [(0xF, 7)] base)))
    (fun t => (bytes 0xF80 2 t, t.getV 0xF)) = some ([0, 0], 7) := by decide +kernel
theorem test_k1_k2 : look (after 0xE19E base) (·.pc) = some 0x202 ∧
    look (after 0xE1A1 base) (·.pc) = some 0x202 := by decide +kernel
theorem test_k3 : look (after 0xF30A (regs [(3, 0x55)] base)) (fun t => (t.pc, t.getV 3)) =
    some (0x202, 0x55) := by decide +kernel

/-! ## Vectors: faults and initialisation -/

theorem test_f3 : look (init defaultConfig [0x12] 0) (bytes 0x200 2) = some [0x12, 0x00] := by
  decide +kernel
theorem test_f5 : State.reset.sp = 0xEA0 ∧ State.reset.pc = 0x200 ∧
    bytes 0x04B 6 State.reset = [0xF0, 0x80, 0xF0, 0x80, 0x80, 0x00] := by decide +kernel
theorem test_f7 : faultOf (step { base with status := .faulted (.memBounds 0x1000 0x200) }) =
    some (.stopped (.memBounds 0x1000 0x200)) := by decide +kernel
theorem test_f8 : look (after 0x8008 ({ base with dt := ⟨5, 0⟩ }.withCalls [⟨1, 1, 0⟩]))
    (fun t => (t.dt.count, t.status)) = some (5, .faulted (.unknownOpcode 0x8008 0x200)) := by
  decide +kernel
theorem test_reset_memory_wf : Memory.wf State.reset.cfg State.reset.mem := Memory.wf_nil

/-! ## Witnesses: for every obligation with hypotheses, states and operands that meet all of them, for each
clause, at the ends of its ranges -/

theorem base_inv : Inv base := by constructor <;> decide +kernel
theorem outer_inv : Inv outer := by constructor <;> decide +kernel

theorem witness_DecodeOfEncode : (Instr.sys 0xFFF).WellFormed defaultConfig = true ∧
    (Instr.sys 0x000).WellFormed defaultConfig = true ∧ (Instr.drw 0xF 0xF 0xF).WellFormed defaultConfig = true := by
  decide +kernel
theorem witness_EncodeOfDecode : decode defaultConfig 0x5121#16 = .known (.seReg 1 2) ∧
    decode defaultConfig 0xFF65#16 = .known (.ldVxMem 0xF) := by decide +kernel
theorem witness_DecodeFollowsTheOpcodeTable : decode defaultConfig 0x00EE#16 = .known .ret ∧
    decode defaultConfig 0x8008#16 = .unknown 0x8008#16 ∧
    (Instr.sys 0).row defaultConfig ∈ opcodeTable defaultConfig ∧
    Instr.cls.row defaultConfig ∈ opcodeTable defaultConfig ∧
    ((Instr.sys 0).row defaultConfig).covers 0x00E0#16 = true ∧
    (Instr.cls.row defaultConfig).covers 0x00E0#16 = true := by decide +kernel
theorem witness_Fetch : base.pc + 1 < memEnd ∧ (pcAt 0xFFE base).pc + 1 < memEnd := by decide +kernel
theorem witness_StepRunsTheDecodedInstruction :
    Steppable (word 0x6A2B base) ∧ (word 0x6A2B base).pc + 1 < memEnd ∧
    decodeBytes defaultConfig ((word 0x6A2B base).readMem 0x200) ((word 0x6A2B base).readMem 0x201) =
      .known (.ldImm 0xA 0x2B) ∧
    look (exec (.ldImm 0xA 0x2B) (word 0x6A2B base)) (·.status) = some .running := by decide +kernel
theorem witness_StepRunsTheDecodedInstruction_fatal :
    Steppable (word 0xAEA0 base) ∧ (word 0xAEA0 base).pc + 1 < memEnd ∧
    decodeBytes defaultConfig ((word 0xAEA0 base).readMem 0x200) ((word 0xAEA0 base).readMem 0x201) =
      .known (.ldI 0xEA0) ∧
    look (exec (.ldI 0xEA0) (word 0xAEA0 base)) (·.status) =
      some (.faulted (.cursorRange .i 0xEA0 0x200)) := by decide +kernel
theorem witness_UnknownOpcodeChangesNothingElse :
    Steppable (word 0x8008 base) ∧ (word 0x8008 base).pc + 1 < memEnd ∧
    decodeBytes defaultConfig ((word 0x8008 base).readMem 0x200) ((word 0x8008 base).readMem 0x201) =
      .unknown 0x8008#16 := by decide +kernel

/-- A machine a fatal error has stopped. -/
def stopped : State := base.faultedWith (.memBounds 0x1000 0x200)

theorem witness_FaultedIsFinal : raiseFatal (.memBounds 0x1000 0x200) base = .fatal stopped ∧
    Runs (step base) ∧ stopped.cfg.Valid ∧ stopped.status = .faulted (.memBounds 0x1000 0x200) :=
  ⟨rfl, by decide +kernel, by decide +kernel, rfl⟩
theorem witness_EveryStepOfARunningMachineIsTaken : Steppable base := by decide +kernel
theorem witness_StepIsTheCoreStep : Steppable base ∧ Runs (step base) ∧
    look (coreStep defaultConfig ⟨0, 0, 0xA7⟩ base.toCoreState) (·.pc) = some 0x202 := by decide +kernel

/-- A machine with EXIT = 1 at its jump to itself. -/
def exitedAtJump : State := word 0x1200 { base with exit := true }

theorem witness_StepAfterExitRepeatsTheJump : Inv exitedAtJump ∧ Steppable exitedAtJump ∧
    exitedAtJump.exit = true ∧ (0x200#12).toNat = exitedAtJump.pc ∧
    decodeBytes defaultConfig (exitedAtJump.readMem 0x200) (exitedAtJump.readMem 0x201) =
      .known (.jp 0x200) := by
  refine ⟨?_, by decide +kernel⟩
  constructor <;> decide +kernel
theorem witness_InitMeetsTheInvariant : (0 : Instant) ≤ 0 ∧ Runs (init defaultConfig [0x12] 0) := by
  decide +kernel
theorem witness_StepKeepsTheInvariant : Inv base ∧ Runs (step base) := ⟨base_inv, by decide +kernel⟩
theorem witness_StepKeepsConfigAndClockOrder : Runs (step base) := by decide +kernel
theorem witness_ExitIsSetOnlyBySelfJump : base.exit = false ∧
    look (step (word 0x1200 base)) (·.exit) = some true ∧
    look (step (word 0xB200 (start { defaultConfig with bnnnSelfJumpHalts := true }))) (·.exit) = some true ∧
    look (step exitedAtJump) (·.exit) = some true := by decide +kernel

theorem witness_SkipsMoveTwoOrFour :
    PcFits (pcAt 0xE9D base) 2 ∧ ¬ PcFits (pcAt 0xE9D base) 4 ∧ (pcAt 0xE9D base).getV 0 = 0 ∧
    (pcAt 0xE9D base).getV 0 ≠ 1 ∧ PcFits (pcAt 0xE9B base) 4 ∧ (pcAt 0xE9B base).getV 0 = 0 ∧
    (pcAt 0xE9B base).getV 0 = (pcAt 0xE9B base).getV 1 ∧
    (regs [(1, 1)] (pcAt 0xE9D base)).getV 0 ≠ (regs [(1, 1)] (pcAt 0xE9D base)).getV 1 := by decide +kernel
theorem witness_AdvancePastTheProgramIsFatal : ¬ PcFits (pcAt 0xE9E base) 2 ∧
    ¬ PcFits (pcAt 0xE9F base) 2 ∧ onlyAdvances defaultConfig (.ldImm 0 0) = true := by decide +kernel

/-- The same for the forms with earlier checks, each at the ends of what its checks let pass. -/
theorem witness_AdvancePastTheProgramIsFatal_checks : ¬ PcFits (pcAt 0xE9E (iAt 0xFFF base)) 2 ∧
    cursorInRange defaultConfig .i (0xE9F#12).toNat = true ∧ cursorInRange defaultConfig .i (0xF00#12).toNat = true ∧
    cursorInRange defaultConfig .i ((iAt 0xFFF base).i + (base.getV 0).toNat) = true ∧
    defaultConfig.Valid ∧ ((regs [(2, 0x0F)] base).getV 2).toNat ≤ 0xF ∧
    ({ defaultConfig with fontDigitPolicy := .mask } : Config).Valid ∧
    (iAt 0xFFD base).i + 3 ≤ memEnd ∧ (iAt 0xFF0 base).i + (0xF : Reg).val + 1 ≤ memEnd ∧
    cursorInRange (start { defaultConfig with blockIncrementsI := true }).cfg .i (0xFFE + (0 : Reg).val + 1) = true ∧
    (0 : RowCount).val = 0 ∧ (iAt 0xFF1 base).i + (15 : RowCount).val ≤ memEnd := by decide +kernel
theorem witness_advance : PcFits base 2 ∧ PcFits (pcAt 0xE9D base) 2 := by decide +kernel
theorem witness_AluLaws : PcFits base 2 ∧ (0xE : Reg) ≠ 0xF ∧ (0x0 : Reg) ≠ 0xF := by decide +kernel
theorem witness_OnlyFlagWritersChangeVF : Runs (exec (.ldImm 1 2) base) ∧
    writesFlag defaultConfig (.ldImm 1 2) = false ∧ destinationIsFlag (.ldImm 1 2) = false ∧
    writesFlag defaultConfig (.orReg 1 2) = false := by decide +kernel

/-- A state in which every instruction answers a next state without a fatal error. -/
def able : State := spAt 0xEA2 (poke 0xEA0 [0x02, 0x04] (iAt 0x300 base))

/-- The frames: each instruction has a next state there, and one that a fatal error ends has one too. -/
theorem witness_frames_registers : [Instr.ldImm 1 2, .addImm 1 2, .ldReg 1 2, .rnd 1 2, .ldVxDt 1, .addReg 1 2,
    .subReg 1 2, .subn 1 2, .shr 1 2, .shl 1 2, .orReg 1 2, .andReg 1 2, .xorReg 1 2].all
    (fun i => look (exec i able) (·.status) = some .running) = true := by decide +kernel
theorem witness_frames_control : [Instr.seImm 1 2, .sneImm 1 2, .seReg 1 2, .sneReg 1 2, .sys 0x123, .skp 1,
    .sknp 1, .ldVxK 1, .jp 0x300, .jpV0 0x300, .call 0x300, .ret].all
    (fun i => look (exec i able) (·.status) = some .running) = true := by decide +kernel
theorem witness_frames_others : [Instr.ldI 0x300, .addI 1, .ldFont 1, .ldDtVx 1, .ldStVx 1, .ldB 1, .ldMemVx 1,
    .ldVxMem 1, .drw 1 2 3, .cls].all
    (fun i => look (exec i able) (·.status) = some .running) = true := by decide +kernel

theorem witness_JumpCompletesAtItsTarget : programStart ≤ (0x200#12).toNat ∧
    (0xE9F#12).toNat < base.cfg.stackStart := by decide +kernel
theorem witness_IndexedJumpCompletesAtTheSum :
    programStart ≤ (0xE9B#12).toNat + ((regs [(0, 4)] base).getV 0).toNat ∧
    (0xE9B#12).toNat + ((regs [(0, 4)] base).getV 0).toNat < base.cfg.stackStart := by decide +kernel

/-- A machine one call deep, with an entry that holds a given address. -/
def entry (hi lo : Byte) : State := spAt 0xEA2 (poke 0xEA0 [hi, lo] base)

theorem witness_TransferOutsideTheProgramIsFatal :
    ¬ (programStart ≤ (0x1FF#12).toNat ∧ (0x1FF#12).toNat < base.cfg.stackStart) ∧
    ¬ (programStart ≤ (0xEA0#12).toNat ∧ (0xEA0#12).toNat < base.cfg.stackStart) ∧
    base.sp + 1 < memEnd ∧ cursorInRange base.cfg .sp (base.sp + 2) = true ∧
    ¬ (programStart ≤ (0xEA0#12).toNat + (base.getV 0).toNat ∧
      (0xEA0#12).toNat + (base.getV 0).toNat < base.cfg.stackStart) ∧
    (entry 0x00 0x10).sp = 0xEA0 + 2 ∧ cursorInRange defaultConfig .sp 0xEA0 = true ∧
    ¬ (programStart ≤ ((entry 0x00 0x10).readMem 0xEA0).toNat * 256 +
        ((entry 0x00 0x10).readMem 0xEA1).toNat) ∧
    ¬ (((entry 0x0E 0xA0).readMem 0xEA0).toNat * 256 + ((entry 0x0E 0xA0).readMem 0xEA1).toNat <
        base.cfg.stackStart) := by decide +kernel
theorem witness_CallPushesItsOwnAddress : base.cfg.Valid ∧
    cursorInRange base.cfg .sp (base.sp + 2) = true ∧
    cursorInRange base.cfg .sp ((spAt 0xEFC base).sp + 2) = true ∧
    programStart ≤ (0x200#12).toNat ∧ (0xE9F#12).toNat < base.cfg.stackStart := by decide +kernel
theorem witness_CallOverflow : (spAt 0xEFE base).cfg.Valid ∧
    (spAt 0xEFE base).sp + 2 = (spAt 0xEFE base).cfg.displayStart := by decide +kernel
theorem witness_ReturnResumes : (entry 0x0E 0x9D).sp = 0xEA0 + 2 ∧ 0xEA0 + 1 < memEnd ∧
    cursorInRange (entry 0x0E 0x9D).cfg .sp 0xEA0 = true ∧
    programStart ≤ ((entry 0x02 0x00).readMem 0xEA0).toNat * 256 + ((entry 0x02 0x00).readMem 0xEA1).toNat ∧
    ((entry 0x0E 0x9D).readMem 0xEA0).toNat * 256 + ((entry 0x0E 0x9D).readMem 0xEA1).toNat + 2 <
      base.cfg.stackStart := by decide +kernel
theorem witness_ReturnFails : base.cfg.Valid ∧ base.sp = base.cfg.stackStart ∧
    (entry 0x0E 0x9E).sp = 0xEA0 + 2 ∧ cursorInRange (entry 0x0E 0x9E).cfg .sp 0xEA0 = true ∧
    programStart ≤ ((entry 0x0E 0x9E).readMem 0xEA0).toNat * 256 + ((entry 0x0E 0x9E).readMem 0xEA1).toNat ∧
    ((entry 0x0E 0x9F).readMem 0xEA0).toNat * 256 + ((entry 0x0E 0x9F).readMem 0xEA1).toNat <
      base.cfg.stackStart ∧
    base.cfg.stackStart ≤
      ((entry 0x0E 0x9E).readMem 0xEA0).toNat * 256 + ((entry 0x0E 0x9E).readMem 0xEA1).toNat + 2 := by
  decide +kernel
theorem witness_CallThenReturn : Inv base ∧ base.sp + 2 < base.cfg.displayStart ∧ PcFits base 2 ∧
    programStart ≤ (0x210#12).toNat ∧ (0x210#12).toNat < base.cfg.stackStart :=
  ⟨base_inv, by decide +kernel⟩
theorem witness_Inert : PcFits base 2 ∧ base.cfg.sysPolicy = .noop := by decide +kernel

theorem witness_IndexSets : cursorInRange base.cfg .i (0xE9F#12).toNat = true ∧ PcFits base 2 ∧
    cursorInRange base.cfg .i (0xF00#12).toNat = true ∧ cursorInRange base.cfg .i (0xEA0#12).toNat = false ∧
    cursorInRange base.cfg .i ((iAt 0xFFF base).i + (base.getV 0).toNat) = true ∧
    cursorInRange base.cfg .i ((iAt 0xFFF base).i + ((regs [(0, 1)] (iAt 0xFFF base)).getV 0).toNat) = false := by
  decide +kernel
theorem witness_IndexRange : defaultConfig.Valid ∧ cursorInRange defaultConfig .i 0xE9F = true ∧
    cursorInRange defaultConfig .i 0xEFF = false := by decide +kernel
theorem witness_FontIndex : base.cfg.Valid ∧ ((regs [(2, 0x0F)] base).getV 2).toNat ≤ 0xF ∧ PcFits base 2 ∧
    0xF < ((regs [(2, 0x10)] base).getV 2).toNat ∧ base.cfg.fontDigitPolicy = .fault ∧
    ({ defaultConfig with fontDigitPolicy := .mask } : Config).Valid := by decide +kernel

theorem witness_TimerDecays :
    ((0 : Instant) :: [1 / 120, 1 / 120] ++ [1 / 60]).Pairwise (· ≤ ·) := by decide +kernel
theorem witness_TimersOnlyCountDown : (Timer.set 5 0).anchor ≤ 1 / 30 ∧ (Timer.set 0 0).count = 0#8 ∧
    (1 / 30 : Instant) = (Timer.set 5 0).anchor + ((2 : Nat) : Rat) / 60 ∧ Runs (exec (.ldImm 1 2) base) ∧
    (∀ x, Instr.ldImm 1 2 ≠ .ldStVx x) ∧ (∀ x, Instr.ldImm 1 2 ≠ .ldDtVx x) ∧
    (∀ x, Instr.ldImm 1 2 ≠ .ldVxDt x) :=
  ⟨by decide +kernel, rfl, by decide +kernel, by decide +kernel, by simp, by simp, by simp⟩
theorem witness_Beep : Runs (exec (.ldDtVx 1) base) ∧ ∀ x, Instr.ldDtVx 1 ≠ .ldStVx x :=
  ⟨by decide +kernel, by simp⟩
theorem witness_OtherInstructionsIgnoreTheInputs : readsInput (.ldVxDt 1) = false ∧
    Runs (exec (.ldVxDt 1) base) := by decide +kernel

theorem witness_Bcd : PcFits base 2 ∧ (iAt 0xFFD base).i + 3 ≤ memEnd := by decide +kernel
theorem witness_BlockTransfers : PcFits base 2 ∧ (iAt 0xFF0 base).i + (0xF : Reg).val + 1 ≤ memEnd ∧
    (start { defaultConfig with blockIncrementsI := true }).cfg.blockIncrementsI = true ∧
    cursorInRange (start { defaultConfig with blockIncrementsI := true }).cfg .i (0 + (0xF : Reg).val + 1) =
      true := by decide +kernel
theorem witness_BlockTransfers_past : (iAt 0xE9F base).i + (0 : Reg).val + 1 ≤ memEnd ∧
    (iAt 0xFFF base).i + (0 : Reg).val + 1 ≤ memEnd ∧
    cursorInRange (start { defaultConfig with blockIncrementsI := true }).cfg .i (0xE9F + (0 : Reg).val + 1) = false ∧
    cursorInRange (start { defaultConfig with blockIncrementsI := true }).cfg .i (0xFFF + (0 : Reg).val + 1) =
      false := by decide +kernel
theorem witness_TransferPastTheEnd : memEnd < (iAt 0xFFE base).i + 3 ∧
    memEnd < (iAt 0xFFF base).i + (1 : Reg).val + 1 ∧ 0 < (15 : RowCount).val ∧
    memEnd < (iAt 0xFF2 base).i + (15 : RowCount).val := by decide +kernel

theorem witness_PixelXor : 63 < displayW ∧ 31 < displayH ∧ 0 < displayW ∧ 0 < displayH ∧
    [0x80#8].length ≤ displayH := by decide +kernel

/-- A machine with a sprite of one row at I, V0 and V1 being 0. -/
def sprite (s : State) : State := iAt 0x300 (poke 0x300 [0x80] s)

theorem witness_DrawToggles : (sprite base).cfg.Valid ∧ PcFits (sprite base) 2 ∧
    (sprite base).i + (1 : RowCount).val ≤ memEnd ∧ (0 : RowCount).val = 0 ∧
    (poke 0xF00 [0x80] (sprite base)).pixel 0 0 = true ∧
    spriteCovers 0 0 (rowsAt (poke 0xF00 [0x80] (sprite base)) 1) 0 0 = true := by decide +kernel

/-- With a clear external plane every pixel is off, so no covered pixel is on. -/
theorem pixel_outer (px py : Nat) : (sprite outer).pixel px py = false := by
  show (0#2048).getLsbD (pixelIndex px py) = false
  simp

theorem witness_DrawToggles_clear : (sprite outer).cfg.Valid ∧
    ∀ px py, px < displayW → py < displayH →
      spriteCovers 0 0 (rowsAt (sprite outer) 1) px py = true → (sprite outer).pixel px py = false :=
  ⟨by decide +kernel, fun _ _ _ _ _ => pixel_outer _ _⟩
theorem witness_ByteBlit : base.cfg.Valid ∧ base.cfg.displayMode = .inline ∧
    Memory.wf base.cfg base.mem ∧ 63 < displayW ∧ 31 < displayH := by decide +kernel
theorem witness_DrawingTwice : (sprite base).cfg.Valid ∧ PcFits (sprite base) 2 ∧ PcFits (sprite base) 4 ∧
    (0 : Reg) ≠ 0xF ∧ (1 : Reg) ≠ 0xF ∧ (sprite base).i + (1 : RowCount).val ≤ memEnd ∧
    (sprite base).i + (1 : RowCount).val ≤ (sprite base).cfg.displayStart := by decide +kernel
theorem witness_DrawingTwice_clear : (sprite outer).cfg.Valid ∧ PcFits (sprite outer) 4 ∧
    (sprite outer).cfg.displayMode ≠ .inline ∧
    (∀ px py, px < displayW → py < displayH → (sprite outer).pixel px py = false) ∧
    ∃ r ∈ rowsAt (sprite outer) 1, r ≠ 0#8 :=
  ⟨by decide +kernel, by decide +kernel, by decide +kernel, fun _ _ _ _ => pixel_outer _ _,
    0x80#8, by decide +kernel, by decide +kernel⟩
theorem witness_ClearTurnsEveryPixelOff : outer.cfg.Valid ∧ PcFits outer 2 ∧ base.cfg.Valid ∧ PcFits base 2 := by
  decide +kernel
theorem witness_OnlyDrawClearAndStores : Inv base ∧ Runs (exec (.call 0x300) base) ∧
    mayDraw base.cfg (.call 0x300) = false ∧ Inv outer ∧ mayDraw outer.cfg (.ldB 1) = false ∧
    Runs (exec (.ldB 1) outer) :=
  ⟨base_inv, by decide +kernel, by decide +kernel, outer_inv, by decide +kernel, by decide +kernel⟩

theorem witness_InitLoads : Runs (init defaultConfig [0x12, 0x00] 0) ∧
    programStart ≤ 0x200 ∧ 0xE9F < defaultConfig.stackStart := by decide +kernel
theorem witness_InitialStateValues : Runs (init defaultConfig [0x12, 0x00] 0) ∧
    [0x050, 0x202, 0xEA0, 0xFFF].all (fun a => decide (a < memEnd ∧
      ¬ (defaultConfig.fontBase ≤ a ∧ a < defaultConfig.fontBase + 80) ∧
      ¬ (0x200 ≤ a ∧ a < 0x200 + [0x12#8, 0x00#8].length))) = true := by decide +kernel
theorem witness_Oversized : defaultConfig.Valid ∧
    defaultConfig.stackStart - 0x200 < (List.replicate 0xCA1 0x00#8).length ∧
    (List.replicate 0xCA0 0x00#8).length ≤ defaultConfig.stackStart - 0x200 :=
  ⟨by decide +kernel, by rw [List.length_replicate]; decide +kernel,
    by rw [List.length_replicate]; decide +kernel⟩

end Sys2Proof.Tests
end

/-! The fatal error is final (O10). -/

namespace Sys2Proof.Proofs

open Sys2Proof.Machine

/-- A Faulted machine has no step (R106). -/
theorem step_of_faulted {s : State} {f : Fatal} (hv : s.cfg.Valid) (hf : s.status = .faulted f) :
    step s = .fault (.stopped f) := by
  unfold step
  rw [if_pos hv]
  simp only [hf]

/-- Settles O10: `raiseFatal` records the cause, and only a running machine has a next state. -/
theorem faultedIsFinal : Obligations.FaultedIsFinal := by
  refine ⟨fun f s t h => ?_, fun s t h => ?_, fun s f hv hf => step_of_faulted hv hf⟩
  · rw [raiseFatal_eq] at h
    cases h
    exact faultedWith_status f s
  · obtain ⟨-, hrunning, -⟩ := step_next h
    exact hrunning

end Sys2Proof.Proofs

/-! Two hosts, one core. States with the same core and configuration under two hosts stay so through every
operation: no operation reads or writes the host's side, but for the three instructions that read an input of the
step (R330). One lemma per operation, then one for all instructions. -/

namespace Sys2Proof.Proofs

open Sys2Proof.Machine Sys2Proof.Safety

/-- Two states with the same core, in the configuration `c`, under the hosts `e` and `e'`. -/
def Twins (c : Config) (e e' : HostEnv) (s s' : State) : Prop :=
  ∃ m : CoreState, s = ⟨m, c, e⟩ ∧ s' = ⟨m, c, e'⟩

/-- Two runs through a rule that end alike, in such states. -/
inductive FlowTwins (c : Config) (e e' : HostEnv) : Flow → Flow → Prop
  | go {s s' : State} (h : Twins c e e' s s') : FlowTwins c e e' (.go s) (.go s')
  | fatal {s s' : State} (h : Twins c e e' s s') : FlowTwins c e e' (.fatal s) (.fatal s')

/-- Two answers that are next states, and such states. -/
def NextTwins (c : Config) (e e' : HostEnv) (r r' : Outcome) : Prop :=
  ∃ t t', r = .next t ∧ r' = .next t' ∧ Twins c e e' t t'

variable {c : Config} {e e' : HostEnv} {s s' : State}

theorem twins_mk (m : CoreState) : Twins c e e' ⟨m, c, e⟩ ⟨m, c, e'⟩ := ⟨m, rfl, rfl⟩

/-! ## Sequencing -/

theorem FlowTwins.andThen {r r' : Flow} {f f' : State → Flow} (h : FlowTwins c e e' r r')
    (hf : ∀ t t', Twins c e e' t t' → FlowTwins c e e' (f t) (f' t')) :
    FlowTwins c e e' (r.andThen f) (r'.andThen f') := by
  cases h with
  | go h => exact hf _ _ h
  | fatal h => exact .fatal h

theorem FlowTwins.finish {r r' : Flow} (h : FlowTwins c e e' r r') : NextTwins c e e' r.finish r'.finish := by
  cases h with
  | go h => exact ⟨_, _, rfl, rfl, h⟩
  | fatal h => exact ⟨_, _, rfl, rfl, h⟩

theorem raiseFatal_twins (f : Fatal) (h : Twins c e e' s s') :
    FlowTwins c e e' (raiseFatal f s) (raiseFatal f s') := by
  obtain ⟨m, rfl, rfl⟩ := h
  exact .fatal ⟨_, rfl, rfl⟩

/-! ## Registers and memory -/

theorem setV_twins (x : Reg) (b : Byte) (h : Twins c e e' s s') : Twins c e e' (s.setV x b) (s'.setV x b) := by
  obtain ⟨m, rfl, rfl⟩ := h
  exact ⟨_, rfl, rfl⟩

theorem writeLogicResult_twins (x : Reg) (r : Byte) (h : Twins c e e' s s') :
    Twins c e e' (writeLogicResult x r s) (writeLogicResult x r s') := by
  obtain ⟨m, rfl, rfl⟩ := h
  cases hc : c.logicVfReset with
  | true => simp only [writeLogicResult, hc]; exact ⟨_, rfl, rfl⟩
  | false => simp only [writeLogicResult, hc]; exact ⟨_, rfl, rfl⟩

theorem exitWhen_twins (b : Bool) (h : Twins c e e' s s') : Twins c e e' (exitWhen b s) (exitWhen b s') := by
  obtain ⟨m, rfl, rfl⟩ := h
  cases b with
  | true => exact ⟨_, rfl, rfl⟩
  | false => exact ⟨_, rfl, rfl⟩

theorem loadByte_twins (ipc a : Nat) (h : Twins c e e' s s') : loadByte ipc a s = loadByte ipc a s' := by
  obtain ⟨m, rfl, rfl⟩ := h
  rfl

theorem loadBytes_twins (ipc n a : Nat) (h : Twins c e e' s s') :
    loadBytes ipc a s n = loadBytes ipc a s' n := by
  induction n generalizing a with
  | zero => rfl
  | succ n ih => simp only [loadBytes, loadByte_twins ipc a h, ih (a + 1)]

theorem storeByte_twins (ipc a : Nat) (b : Byte) (h : Twins c e e' s s') :
    FlowTwins c e e' (storeByte ipc a b s) (storeByte ipc a b s') := by
  by_cases ha : a < memEnd
  · rw [storeByte_go ha, storeByte_go ha]
    obtain ⟨m, rfl, rfl⟩ := h
    exact .go ⟨_, rfl, rfl⟩
  · rw [storeByte_fatal ha, storeByte_fatal ha]
    exact raiseFatal_twins _ h

theorem storeBytes_twins (ipc a : Nat) (bytes : List Byte) (h : Twins c e e' s s') :
    FlowTwins c e e' (storeBytes ipc a bytes s) (storeBytes ipc a bytes s') := by
  induction bytes generalizing a s s' with
  | nil => exact .go h
  | cons b bytes ih => exact (storeByte_twins ipc a b h).andThen fun _ _ ht => ih (a + 1) ht

theorem loadRegs_twins (ipc : Nat) (ks : List Reg) (h : Twins c e e' s s') :
    FlowTwins c e e' (loadRegs ipc ks s) (loadRegs ipc ks s') := by
  induction ks generalizing s s' with
  | nil => exact .go h
  | cons k ks ih =>
    have hi : s.i = s'.i := by obtain ⟨m, rfl, rfl⟩ := h; rfl
    simp only [loadRegs, hi, loadByte_twins ipc _ h]
    cases loadByte ipc (s'.i + k.val) s' with
    | error f => exact raiseFatal_twins f h
    | ok b => exact ih (setV_twins k b h)

/-! ## Cursors -/

theorem cursorSet_twins (ipc : Nat) (k : CursorName) (a : Nat) (h : Twins c e e' s s') :
    FlowTwins c e e' (cursorSet ipc k a s) (cursorSet ipc k a s') := by
  obtain ⟨m, rfl, rfl⟩ := h
  by_cases hr : cursorInRange c k a = true
  · rw [cursorSet_go hr, cursorSet_go hr]
    cases k with
    | pc => exact .go ⟨_, rfl, rfl⟩
    | sp => exact .go ⟨_, rfl, rfl⟩
    | i => exact .go ⟨_, rfl, rfl⟩
  · rw [cursorSet_fatal hr, cursorSet_fatal hr]
    exact raiseFatal_twins _ (twins_mk m)

theorem getCursor_twins (k : CursorName) (h : Twins c e e' s s') : s.getCursor k = s'.getCursor k := by
  obtain ⟨m, rfl, rfl⟩ := h
  cases k with
  | pc => rfl
  | sp => rfl
  | i => rfl

theorem cursorAdvance_twins (ipc : Nat) (k : CursorName) (h : Twins c e e' s s') :
    FlowTwins c e e' (cursorAdvance ipc k s) (cursorAdvance ipc k s') := by
  simp only [cursorAdvance, getCursor_twins k h]
  exact cursorSet_twins _ _ _ h

theorem cursorRetreat_twins (ipc : Nat) (k : CursorName) (h : Twins c e e' s s') :
    FlowTwins c e e' (cursorRetreat ipc k s) (cursorRetreat ipc k s') := by
  simp only [cursorRetreat, getCursor_twins k h]
  split
  · exact cursorSet_twins _ _ _ h
  · exact raiseFatal_twins _ h

theorem advancePc_twins (h : Twins c e e' s s') : FlowTwins c e e' (advancePc s) (advancePc s') := by
  have hpc : s.pc = s'.pc := getCursor_twins .pc h
  rw [advancePc, advancePc, hpc]
  exact cursorAdvance_twins _ _ h

theorem skipWhen_twins (cond : Bool) (h : Twins c e e' s s') :
    FlowTwins c e e' (skipWhen cond s) (skipWhen cond s') := by
  have hpc : s.pc = s'.pc := getCursor_twins .pc h
  have hone := cursorAdvance_twins s'.pc .pc h
  rw [skipWhen, skipWhen, hpc]
  cases cond with
  | true => exact hone.andThen fun _ _ ht => cursorAdvance_twins _ _ ht
  | false => exact hone

theorem blockIncrement_twins (x : Reg) (h : Twins c e e' s s') :
    FlowTwins c e e' (blockIncrement x s) (blockIncrement x s') := by
  obtain ⟨m, rfl, rfl⟩ := h
  cases hc : c.blockIncrementsI with
  | true => simp only [blockIncrement, hc]; exact cursorSet_twins _ _ _ (twins_mk m)
  | false => simp only [blockIncrement, hc]; exact .go (twins_mk m)

theorem popPc_twins (ipc : Nat) (h : Twins c e e' s s') :
    FlowTwins c e e' (popPc ipc s) (popPc ipc s') := by
  have hsp : s.sp = s'.sp := getCursor_twins .sp h
  simp only [popPc, hsp, loadByte_twins ipc _ h]
  cases loadByte ipc s'.sp s' with
  | error f => exact raiseFatal_twins f h
  | ok hi =>
    cases loadByte ipc (s'.sp + 1) s' with
    | error f => exact raiseFatal_twins f h
    | ok lo => exact (cursorSet_twins _ _ _ h).andThen fun _ _ ht => cursorAdvance_twins _ _ ht

/-! ## The display -/

theorem pixel_twins (px py : Nat) (h : Twins c e e' s s') : s.pixel px py = s'.pixel px py := by
  obtain ⟨m, rfl, rfl⟩ := h
  rfl

theorem flipPixel_twins (px py : Nat) (h : Twins c e e' s s') :
    Twins c e e' (s.flipPixel px py) (s'.flipPixel px py) := by
  obtain ⟨m, rfl, rfl⟩ := h
  cases hc : c.displayMode with
  | inline => simp only [State.flipPixel, hc]; exact ⟨_, rfl, rfl⟩
  | external => simp only [State.flipPixel, hc]; exact ⟨_, rfl, rfl⟩

theorem clearDisplay_twins (h : Twins c e e' s s') : Twins c e e' (clearDisplay s) (clearDisplay s') := by
  obtain ⟨m, rfl, rfl⟩ := h
  cases hc : c.displayMode with
  | inline => simp only [clearDisplay, hc]; exact ⟨_, rfl, rfl⟩
  | external => simp only [clearDisplay, hc]; exact ⟨_, rfl, rfl⟩

theorem blit_twins (ps : List (Nat × Nat)) (h : Twins c e e' s s') :
    (blit ps s).1 = (blit ps s').1 ∧ Twins c e e' (blit ps s).2 (blit ps s').2 := by
  induction ps generalizing s s' with
  | nil => exact ⟨rfl, h⟩
  | cons p ps ih =>
    obtain ⟨hhit, hstate⟩ := ih (flipPixel_twins p.1 p.2 h)
    refine ⟨?_, hstate⟩
    simp only [blit, xorPixel, pixel_twins p.1 p.2 h, hhit]

/-! ## The instructions whose meaning branches -/

theorem execSys_twins (nnn : Addr12) (m : CoreState) :
    NextTwins c e e' (execSys nnn ⟨m, c, e⟩) (execSys nnn ⟨m, c, e'⟩) := by
  cases hc : c.sysPolicy with
  | noop => simp only [execSys, hc]; exact (advancePc_twins (twins_mk m)).finish
  | fault => simp only [execSys, hc]; exact (raiseFatal_twins _ (twins_mk m)).finish

theorem execLdFont_twins (x : Reg) (m : CoreState) :
    NextTwins c e e' (execLdFont x ⟨m, c, e⟩) (execLdFont x ⟨m, c, e'⟩) := by
  have hdigit : fontDigit x ⟨m, c, e⟩ = fontDigit x ⟨m, c, e'⟩ := rfl
  simp only [execLdFont, hdigit]
  cases fontDigit x ⟨m, c, e'⟩ with
  | error f => exact (raiseFatal_twins f (twins_mk m)).finish
  | ok d => exact ((cursorSet_twins _ _ _ (twins_mk m)).andThen fun _ _ => advancePc_twins).finish

theorem execDrw_twins (x y : Reg) (n : RowCount) (m : CoreState) :
    NextTwins c e e' (execDrw x y n ⟨m, c, e⟩) (execDrw x y n ⟨m, c, e'⟩) := by
  have hrows := loadBytes_twins m.pc n.val m.i (twins_mk (c := c) (e := e) (e' := e') m)
  simp only [execDrw, hrows]
  cases loadBytes m.pc m.i ⟨m, c, e'⟩ n.val with
  | error f => exact (raiseFatal_twins f (twins_mk m)).finish
  | ok rows =>
    obtain ⟨hhit, hstate⟩ := blit_twins (c := c) (e := e) (e' := e')
      (spritePixels (drawColumn x ⟨m, c, e⟩) (drawRow y ⟨m, c, e⟩) rows) (twins_mk m)
    simp only [hhit]
    exact (advancePc_twins (setV_twins _ _ hstate)).finish

/-! ## All instructions -/

/-- An instruction does the same to one core under two hosts, if it reads no input of the step or the hosts give
the same ones; and it leaves the configuration and the host. -/
theorem exec_twins (i : Instr) (m : CoreState) (hin : readsInput i = true → e.current = e'.current) :
    NextTwins c e e' (exec i ⟨m, c, e⟩) (exec i ⟨m, c, e'⟩) := by
  cases i with
  | sys nnn => exact execSys_twins nnn m
  | cls => exact (advancePc_twins (clearDisplay_twins (twins_mk m))).finish
  | ret => exact ((cursorRetreat_twins _ _ (twins_mk m)).andThen fun _ _ => popPc_twins _).finish
  | jp | jpV0 => exact (cursorSet_twins _ _ _ (exitWhen_twins _ (twins_mk m))).finish
  | call nnn =>
    exact (((storeBytes_twins _ _ _ (twins_mk m)).andThen fun _ _ => cursorAdvance_twins _ _).andThen
      fun _ _ => cursorSet_twins _ _ _).finish
  | seImm | sneImm | seReg | sneReg => exact (skipWhen_twins _ (twins_mk m)).finish
  | ldImm | addImm | ldReg | ldVxDt => exact (advancePc_twins (setV_twins _ _ (twins_mk m))).finish
  | orReg | andReg | xorReg => exact (advancePc_twins (writeLogicResult_twins _ _ (twins_mk m))).finish
  | addReg | subReg | shr | subn | shl =>
    exact (advancePc_twins (setV_twins _ _ (setV_twins _ _ (twins_mk m)))).finish
  | skp | sknp | ldVxK => exact (advancePc_twins (twins_mk m)).finish
  | ldI | addI => exact ((cursorSet_twins _ _ _ (twins_mk m)).andThen fun _ _ => advancePc_twins).finish
  | ldFont x => exact execLdFont_twins x m
  | drw x y n => exact execDrw_twins x y n m
  | ldB x => exact ((storeBytes_twins _ _ _ (twins_mk m)).andThen fun _ _ => advancePc_twins).finish
  | ldMemVx x =>
    exact (((storeBytes_twins _ _ _ (twins_mk m)).andThen fun _ _ => blockIncrement_twins x).andThen
      fun _ _ => advancePc_twins).finish
  | ldVxMem x =>
    exact (((loadRegs_twins _ _ (twins_mk m)).andThen fun _ _ => blockIncrement_twins x).andThen
      fun _ _ => advancePc_twins).finish
  | rnd x kk =>
    simp only [exec, execRnd, hin rfl]
    exact (advancePc_twins (setV_twins _ _ (twins_mk m))).finish
  | ldDtVx x | ldStVx x =>
    simp only [exec, execLdDtVx, execLdStVx, hin rfl]
    exact (advancePc_twins ⟨_, rfl, rfl⟩).finish

end Sys2Proof.Proofs

/-! A step is the core's step on its inputs (O12). -/

namespace Sys2Proof.Proofs

open Sys2Proof.Machine Sys2Proof.Safety

variable {c : Config} {e e' : HostEnv}

theorem fetch_twins (m : CoreState) : fetch ⟨m, c, e⟩ = fetch ⟨m, c, e'⟩ := by
  simp only [fetch, loadByte_twins _ _ (twins_mk (c := c) (e := e) (e' := e') m)]

/-- Hosts that give the same inputs make one core run the same instruction to the same core. -/
theorem runInstruction_twins (m : CoreState) (hin : e.current = e'.current) :
    NextTwins c e e' (runInstruction ⟨m, c, e⟩) (runInstruction ⟨m, c, e'⟩) := by
  simp only [runInstruction, fetch_twins (c := c) (e := e) (e' := e') m]
  cases fetch ⟨m, c, e'⟩ with
  | error f => exact (raiseFatal_twins f (twins_mk m)).finish
  | ok op =>
    cases hd : decode c op with
    | unknown w => simp only [hd]; exact (raiseFatal_twins _ (twins_mk m)).finish
    | known i => simp only [hd]; exact exec_twins i m fun _ => hin

/-- The ticks that end a step read the host's inputs alone. -/
theorem endStep_twins_core {s s' : State} (h : Twins c e e' s s') (hin : e.current = e'.current) :
    (endStep s).toCoreState = (endStep s').toCoreState := by
  obtain ⟨m, rfl, rfl⟩ := h
  cases hs : m.status with
  | running => rw [endStep_running hs, endStep_running hs]; simp only [hin]
  | faulted f => rw [endStep_faulted hs, endStep_faulted hs]

/-- The host of `CoreState.under` may make its call when the call's instants are in order (R326). -/
theorem under_admissible (m : CoreState) {input : StepInput} (h : input.tExec ≤ input.tTick) :
    (m.under c input).env.admissible = true := by
  simp [HostEnv.admissible, h]

/-- A machine the host may step has a next state, and `coreStep` answers its core. -/
theorem step_and_coreStep {s : State} (hs : Steppable s) :
    ∃ t, step s = .next t ∧ coreStep s.cfg s.env.current s.toCoreState = .next t.toCoreState ∧
      t.cfg = s.cfg ∧ t.env = s.env.consumed := by
  obtain ⟨hvalid, hrunning, hcall⟩ := hs
  have hunder : (s.toCoreState.under s.cfg s.env.current).env.admissible = true :=
    under_admissible _ (current_ordered hcall).2
  obtain ⟨u, u', hu, hu', htwins⟩ := runInstruction_twins (c := s.cfg) (e := s.env)
    (e' := (s.toCoreState.under s.cfg s.env.current).env) s.toCoreState (under_current _ _ _).symm
  have hstep : step s = .next (endStep u) := step_of_next hvalid hrunning hcall hu
  have hcore : step (s.toCoreState.under s.cfg s.env.current) = .next (endStep u') :=
    step_of_next hvalid hrunning hunder hu'
  refine ⟨endStep u, hstep, ?_, ?_⟩
  · rw [coreStep, hcore, coreOf_next, endStep_twins_core htwins (under_current _ _ _).symm]
  · obtain ⟨m, rfl, rfl⟩ := htwins
    exact ⟨endStep_cfg _, endStep_env _⟩

/-- Settles O12: under the machine's host and under `coreStep`'s, whose inputs are the same, the core makes the
same step. -/
theorem stepIsTheCoreStepOnItsInputs : Obligations.StepIsTheCoreStepOnItsInputs := by
  intro s hs
  obtain ⟨t, hstep, hcore, hcfg, henv⟩ := step_and_coreStep hs
  refine ⟨fun u hu => ?_, fun m hm => ⟨t, hstep, ?_⟩⟩
  · obtain rfl : t = u := by simpa using hstep.symm.trans hu
    exact ⟨hcore, hcfg, henv⟩
  · simpa using hcore.symm.trans hm

end Sys2Proof.Proofs

/-! The memory a machine starts with, and the word a step fetches (O58, O6). -/

namespace Sys2Proof.Proofs

open Sys2Proof.Machine

/-- A bulk load that answers wrote data that fits (R61). -/
theorem load_eq_some {c : Config} {m n : Memory} {start size : Nat} {data : List Byte}
    (h : Memory.load c m start size data = some n) :
    data.length ≤ size ∧ n = Memory.writeRange c m start data := by
  unfold Memory.load at h
  split at h
  next => cases h
  next hfits => cases h; exact ⟨Nat.le_of_not_lt hfits, rfl⟩

/-- When `init` answers a machine, it is the initial state of a valid configuration with an image that fits
written from the first Program address on (R340, R341, R344). -/
theorem init_next {c : Config} {image : List Byte} {t0 : Instant} {s : State} (h : init c image t0 = .next s) :
    c.Valid ∧ image.length ≤ programBytes c ∧
      s = { State.initial c t0 with mem := Memory.writeRange c [] programStart image } := by
  unfold init at h
  split at h
  next hvalid =>
    split at h
    next => cases h
    next m hload =>
      obtain ⟨hfits, rfl⟩ := load_eq_some hload
      cases h
      exact ⟨hvalid, hfits, rfl⟩
  next => cases h

/-- Any byte after `init`: the image's where it was loaded, elsewhere what memory holds without one. -/
theorem readMem_of_init {c : Config} {image : List Byte} {t0 : Instant} {s : State}
    (h : init c image t0 = .next s) (a : Nat) :
    s.readMem a =
      if programStart ≤ a ∧ a < programStart + image.length then image.getD (a - programStart) 0#8
      else Memory.background c a := by
  obtain ⟨-, -, rfl⟩ := init_next h
  exact Memory.read_writeRange image [] programStart

/-- The font table ends below the Program region, so without an image the region and all after it is zero
(R341). -/
theorem background_eq_zero_of_programStart_le {c : Config} {a : Nat} (hv : c.Valid) (ha : programStart ≤ a) :
    Memory.background c a = 0#8 := by
  obtain ⟨-, -, -, -, -, -, hfont, -⟩ := hv
  exact if_neg (by omega)

/-- Settles O58: at an address of the image the load is read back; past it no image byte was loaded and the
font table does not reach. -/
theorem initLoadsTheImageVerbatim : Obligations.InitLoadsTheImageVerbatim := by
  intro c image t0 s h a ha _
  rw [readMem_of_init h]
  by_cases hin : a < programStart + image.length
  · rw [if_pos ⟨ha, hin⟩]
  · rw [if_neg (fun hboth => hin hboth.2), background_eq_zero_of_programStart_le (init_next h).1 ha,
      List.getD_eq_default _ _ (show image.length ≤ a - programStart by omega)]

/-- The high byte of a word is the first of the two it was built from (R71). -/
@[simp] theorem wordOfBytes_high (hi lo : Byte) : (wordOfBytes hi lo).extractLsb' 8 8 = hi :=
  BitVec.extractLsb'_append_eq_left

/-- The low byte is the second (R71). -/
@[simp] theorem wordOfBytes_low (hi lo : Byte) : (wordOfBytes hi lo).extractLsb' 0 8 = lo :=
  BitVec.extractLsb'_append_eq_right

/-- Settles O6: the fetched word is built from the bytes at PC and PC + 1, in that order. -/
theorem fetchIsBigEndian : Obligations.FetchIsBigEndian := fun _ h =>
  ⟨_, fetch_ok h, wordOfBytes_high _ _, wordOfBytes_low _ _⟩

end Sys2Proof.Proofs

/-! The decoder follows the opcode table (O3): a row's mask fixes one, two or all of the fields that decode
dispatches on. -/

namespace Sys2Proof.Proofs

open Sys2Proof.Laws Sys2Proof.Safety

variable {c : Config} {op : Word}

/-! ## A word from its fields (R91, R92) -/

theorem encodeNNN_fields (op : Word) : encodeNNN op.family op.nnn = op :=
  (BitVec.extractLsb'_append_extractLsb'_eq_extractLsb' rfl).trans BitVec.extractLsb'_eq_self

theorem encodeXKK_fields (op : Word) : encodeXKK op.family op.x op.kk = op := by
  have hfx : op.family ++ op.extractLsb' 8 4 = op.extractLsb' 8 8 :=
    BitVec.extractLsb'_append_extractLsb'_eq_extractLsb' rfl
  have hop : op.extractLsb' 8 8 ++ op.kk = op := BitVec.extractLsb'_append_extractLsb'
  calc encodeXKK op.family op.x op.kk = op.family ++ op.extractLsb' 8 4 ++ op.kk := rfl
    _ = op := by rw [hfx, hop]

theorem encodeXYN_fields (op : Word) : encodeXYN op.family op.x op.y op.n = op := by
  have hkk : op.extractLsb' 4 4 ++ op.low = op.kk :=
    BitVec.extractLsb'_append_extractLsb'_eq_extractLsb' rfl
  calc encodeXYN op.family op.x op.y op.n
      = encodeXKK op.family op.x (op.extractLsb' 4 4 ++ op.low) := encodeXYN_eq_encodeXKK _ _ _ _
    _ = op := by rw [hkk, encodeXKK_fields]

/-! ## A word with the fields a row asks for matches it -/

theorem covers_of_family {f : BitVec 4} (hf : op.family = f) :
    OpcodeRow.covers ⟨f ++ 0x000#12, 0xF000#16⟩ op = true := by
  have h := encodeNNN_and_family op.family op.nnn
  rw [encodeNNN_fields, hf] at h
  exact MatchesRow.covers_of_and h

theorem covers_of_family_low {f l : BitVec 4} (hf : op.family = f) (hl : op.low = l) :
    OpcodeRow.covers ⟨f ++ 0x00#8 ++ l, 0xF00F#16⟩ op = true := by
  have h := encodeXYN_and_low op.family op.x op.y op.n
  rw [encodeXYN_fields, hf, show (⟨op.n⟩ : BitVec 4) = l from hl] at h
  exact MatchesRow.covers_of_and h

theorem covers_of_family_kk {f : BitVec 4} {kk : Byte} (hf : op.family = f) (hkk : op.kk = kk) :
    OpcodeRow.covers ⟨f ++ 0x0#4 ++ kk, 0xF0FF#16⟩ op = true := by
  have h := encodeXKK_and_kk op.family op.x op.kk
  rw [encodeXKK_fields, hf, hkk] at h
  exact MatchesRow.covers_of_and h

/-! ## A word that matches a row has the fields the row's mask keeps -/

theorem extractLsb'_of_covers {r : OpcodeRow} {start len : Nat} (h : r.covers op = true)
    (hmask : r.maskBits.extractLsb' start len = BitVec.allOnes len) :
    op.extractLsb' start len = r.matchBits.extractLsb' start len := by
  have hop : op &&& r.maskBits = r.matchBits := by simpa [OpcodeRow.covers] using h
  rw [← hop, BitVec.extractLsb'_and, hmask, BitVec.and_allOnes]

/-- Every row fixes the family. -/
theorem family_of_row_covers {i : Instr} (h : (i.row c).covers op = true) :
    op.family = (i.row c).matchBits.family := by
  refine extractLsb'_of_covers h ?_
  cases i with
  | seReg | sneReg => cases hs : c.strict59 <;> simp [Instr.row, hs]
  | _ => simp [Instr.row]

theorem low_of_covers {m : Word} (h : OpcodeRow.covers ⟨m, 0xF00F⟩ op = true) : op.low = m.low :=
  extractLsb'_of_covers h (by simp)

theorem kk_of_covers {m : Word} (h : OpcodeRow.covers ⟨m, 0xF0FF⟩ op = true) : op.kk = m.kk :=
  extractLsb'_of_covers h (by simp)

theorem eq_of_covers {m : Word} (h : OpcodeRow.covers ⟨m, 0xFFFF⟩ op = true) : op = m := by
  have hop := extractLsb'_of_covers (start := 0) (len := 16) h (by simp)
  simpa only [BitVec.extractLsb'_eq_self] using hop

/-- The rows of families 5 and 9 fix the low nibble under STRICT_5_9 only (R99). -/
theorem low_of_strict_row_covers {m : Word}
    (h : OpcodeRow.covers ⟨m, if c.strict59 then 0xF00F else 0xF000⟩ op = true)
    (hs : c.strict59 = true) : op.low = m.low := by
  rw [if_pos hs] at h
  exact low_of_covers h

/-! ## What a word decodes to fits the word -/

/-- An instruction's row matches the word; Unknown carries the word (R102). -/
def Fits (c : Config) (op : Word) : Decoded → Prop
  | .known i => (i.row c).covers op = true
  | .unknown w => w = op

/-- Under STRICT_5_9 the match bits of families 5 and 9 want a zero low nibble (R99). -/
theorem append_zero_append_zero : ∀ f : BitVec 4, f ++ 0x00#8 ++ 0x0#4 = f ++ 0x000#12 := by decide

theorem decodeFamily0_fits (hf : op.family = 0x0#4) : Fits c op (decodeFamily0 c op) := by
  have hop : op = encodeNNN 0x0#4 op.nnn := by rw [← hf, encodeNNN_fields]
  unfold decodeFamily0
  split
  next hcls => rw [hop, hcls]; exact MatchesRow.cls c
  next =>
    split
    next hret => rw [hop, hret]; exact MatchesRow.ret c
    next =>
      cases c.sysPolicy with
      | noop => exact covers_of_family hf
      | fault => rfl

theorem decodeStrict_fits {f : BitVec 4} {i : Instr} (hf : op.family = f)
    (hrow : i.row c = ⟨f ++ 0x000#12, if c.strict59 then 0xF00F else 0xF000⟩) :
    Fits c op (decodeStrict c op i) := by
  unfold decodeStrict
  split
  next => rfl
  next hok =>
    rw [Fits, hrow]
    cases hs : c.strict59 with
    | false => exact covers_of_family hf
    | true =>
      rw [if_pos rfl, ← append_zero_append_zero]
      exact covers_of_family_low hf (by simpa [hs] using hok)

theorem decodeFamily8_fits (hf : op.family = 0x8#4) : Fits c op (decodeFamily8 op) := by
  unfold decodeFamily8
  split
  case h_10 => rfl
  all_goals exact covers_of_family_low hf ‹_›

theorem decodeFamilyE_fits (hf : op.family = 0xE#4) : Fits c op (decodeFamilyE op) := by
  unfold decodeFamilyE
  split
  case h_3 => rfl
  all_goals exact covers_of_family_kk hf ‹_›

theorem decodeFamilyF_fits (hf : op.family = 0xF#4) : Fits c op (decodeFamilyF op) := by
  unfold decodeFamilyF
  split
  case h_10 => rfl
  all_goals exact covers_of_family_kk hf ‹_›

/-- The named cases are the families that decode further (0, 5, 8, 9, E, F); each other family is one
instruction (R94). -/
theorem decode_fits (c : Config) (op : Word) : Fits c op (decode c op) := by
  unfold decode
  split
  case h_1 hf => exact decodeFamily0_fits hf
  case h_6 hf => exact decodeStrict_fits hf rfl
  case h_9 hf => exact decodeFamily8_fits hf
  case h_10 hf => exact decodeStrict_fits hf rfl
  case h_15 hf => exact decodeFamilyE_fits hf
  case h_16 =>
    have hf : op.family = 0xF#4 := by
      generalize op.family = f at *
      revert f
      decide
    exact decodeFamilyF_fits hf
  all_goals exact covers_of_family ‹_›

theorem row_covers_of_decode {i : Instr} (h : decode c op = .known i) : (i.row c).covers op = true := by
  have hfits := decode_fits c op
  rwa [h] at hfits

theorem eq_of_decode_unknown {w : Word} (h : decode c op = .unknown w) : w = op := by
  have hfits := decode_fits c op
  rwa [h] at hfits

/-- A word that matches `SYS`'s row decodes as family 0 (R98). -/
theorem decode_eq_decodeFamily0_of_covers (nnn : Addr12) (h : ((Instr.sys nnn).row c).covers op = true) :
    decode c op = decodeFamily0 c op := by
  have hf := family_of_row_covers h
  unfold Word.family at hf
  simp [decode, Word.family, hf, Instr.row]

/-- `SYS` is an instruction under SYS_POLICY = `noop` only (R98). -/
theorem sysPolicy_of_decode {nnn : Addr12} (h : decode c op = .known (.sys nnn)) : c.sysPolicy = .noop := by
  rw [decode_eq_decodeFamily0_of_covers nnn (row_covers_of_decode h)] at h
  unfold decodeFamily0 at h
  split at h
  next => cases h
  next =>
    split at h
    next => cases h
    next =>
      split at h
      next hp => exact hp
      next => cases h

theorem row_mem_opcodeTable {i : Instr} (h : ∀ nnn, i = .sys nnn → c.sysPolicy = .noop) :
    i.row c ∈ opcodeTable c := by
  cases i with
  | sys nnn => simp [opcodeTable, h nnn rfl, Instr.row]
  | _ => simp [opcodeTable, tableInstrs, tableLow, tableMid, tableHigh, Instr.row]

/-! ## A word that matches a row of the table is an instruction -/

theorem decodeStrict_of_low {i : Instr} (h : c.strict59 = true → op.low = 0x0#4) :
    decodeStrict c op i = .known i :=
  if_neg fun hbad => hbad.2 (h hbad.1)

/-- A word that matches a row other than `SYS`'s decodes to an instruction of that row. -/
theorem decode_of_row_covers {i : Instr} (hi : i ∈ tableInstrs) (h : (i.row c).covers op = true) :
    ∃ j, decode c op = .known j ∧ i.row c = j.row c := by
  have hf := family_of_row_covers h
  unfold Word.family at hf
  cases i with
  | sys => simp [tableInstrs, tableLow, tableMid, tableHigh] at hi
  | cls | ret =>
    obtain rfl := eq_of_covers h
    simp [decode, Word.family, decodeFamily0, Word.nnn, Instr.row]
  | jp | call | seImm | sneImm | ldImm | addImm | ldI | jpV0 | rnd | drw =>
    simp [decode, Word.family, hf, Instr.row]
  | seReg | sneReg =>
    simp [decode, Word.family, hf, Instr.row, decodeStrict_of_low (low_of_strict_row_covers h)]
  | ldReg | orReg | andReg | xorReg | addReg | subReg | shr | subn | shl =>
    have hl := low_of_covers h
    unfold Word.low at hl
    simp [decode, Word.family, hf, decodeFamily8, Word.low, hl, Instr.row]
  | skp | sknp | ldVxDt | ldVxK | ldDtVx | ldStVx | addI | ldFont | ldB | ldMemVx | ldVxMem =>
    have hk := kk_of_covers h
    unfold Word.kk at hk
    simp [decode, Word.family, hf, decodeFamilyE, decodeFamilyF, Word.kk, hk, Instr.row]

/-- A word that matches `SYS`'s row is `CLS`, `RET` or, when the row is in the table, `SYS` (R98). -/
theorem decode_of_sysRow_covers (hp : c.sysPolicy = .noop) (h : ((Instr.sys 0).row c).covers op = true) :
    ∃ j, decode c op = .known j ∧ (j = .cls ∨ j = .ret ∨ j = .sys op.nnn) := by
  rw [decode_eq_decodeFamily0_of_covers 0 h]
  unfold decodeFamily0
  split
  next => exact ⟨_, rfl, .inl rfl⟩
  next =>
    split
    next => exact ⟨_, rfl, .inr (.inl rfl)⟩
    next => rw [hp]; exact ⟨_, rfl, .inr (.inr rfl)⟩

/-- What a row that matches a word says of it: the word is an instruction of that row, or the row is `SYS`'s and
the word is `CLS` or `RET` (R102). -/
theorem decode_of_mem_opcodeTable {r : OpcodeRow} (hr : r ∈ opcodeTable c) (h : r.covers op = true) :
    ∃ j, decode c op = .known j ∧
      (r = j.row c ∨ r = (Instr.sys 0).row c ∧ (j.row c = Instr.cls.row c ∨ j.row c = Instr.ret.row c)) := by
  rcases List.mem_append.1 hr with hsys | hrest
  · cases hp : c.sysPolicy with
    | fault => simp [hp] at hsys
    | noop =>
      obtain rfl : r = (Instr.sys 0).row c := by simpa [hp] using hsys
      obtain ⟨j, hj, rfl | rfl | rfl⟩ := decode_of_sysRow_covers hp h
      · exact ⟨_, hj, .inr ⟨rfl, .inl rfl⟩⟩
      · exact ⟨_, hj, .inr ⟨rfl, .inr rfl⟩⟩
      · exact ⟨_, hj, .inl rfl⟩
  · obtain ⟨i, hi, rfl⟩ := List.mem_map.1 hrest
    obtain ⟨j, hj, hrow⟩ := decode_of_row_covers hi h
    exact ⟨j, hj, .inl hrow⟩

/-- `SYS`'s mask has fewer bits than those of `CLS` and `RET`. -/
theorem maskCount_sys_lt {r : OpcodeRow} (h : r = Instr.cls.row c ∨ r = Instr.ret.row c) :
    maskCount ((Instr.sys 0).row c) < maskCount r := by
  have hcount : maskCount ⟨0x0000, 0xF000⟩ < maskCount ⟨0x00E0, 0xFFFF⟩ := by decide
  rcases h with rfl | rfl <;> exact hcount

/-- Settles O3: two rows that match one word both speak of the instruction it decodes to. -/
theorem decodeFollowsTheOpcodeTable : Obligations.DecodeFollowsTheOpcodeTable := by
  intro c op
  refine ⟨fun i hi => ⟨?_, row_covers_of_decode hi, fun r hr hcov => ?_⟩,
    fun w hw => ⟨eq_of_decode_unknown hw, fun r hr => ?_⟩, fun q hq r hr hne hqcov hrcov => ?_⟩
  · exact row_mem_opcodeTable fun nnn hsys => sysPolicy_of_decode (hsys ▸ hi)
  · obtain ⟨j, hj, hrow⟩ := decode_of_mem_opcodeTable hr hcov
    obtain rfl : i = j := by simpa using hi.symm.trans hj
    obtain hrow | ⟨rfl, hspecial⟩ := hrow
    · exact .inl hrow
    · exact .inr (maskCount_sys_lt hspecial)
  · by_contra hcov
    obtain ⟨j, hj, -⟩ := decode_of_mem_opcodeTable hr (by simpa using hcov)
    simp [hj] at hw
  · obtain ⟨j, hj, hqrow⟩ := decode_of_mem_opcodeTable hq hqcov
    obtain ⟨k, hk, hrrow⟩ := decode_of_mem_opcodeTable hr hrcov
    obtain rfl : j = k := by simpa using hj.symm.trans hk
    obtain rfl | ⟨rfl, hspecial⟩ := hqrow
    · obtain hrow | ⟨hsys, hspecial⟩ := hrrow
      · exact absurd hrow.symm hne
      · exact .inr ⟨hsys, hspecial⟩
    · obtain rfl | ⟨hsys, -⟩ := hrrow
      · exact .inl ⟨rfl, hspecial⟩
      · exact absurd hsys.symm hne

end Sys2Proof.Proofs

/-! The four skips (O19): a skip that matches runs the second advance from the next word, PC four on. -/

namespace Sys2Proof.Proofs

open Sys2Proof.Machine Sys2Proof.Safety

theorem cursorInRange_pc_iff_pcFits (s : State) (d : Nat) :
    cursorInRange s.cfg .pc (s.pc + d) = true ↔ PcFits s d := iff_of_eq (cursorInRange_pc _ _)

/-- Without a match a skip is one advance of PC (R120). -/
theorem skipWhen_false_of_pcFits {s : State} (h : PcFits s 2) :
    skipWhen false s = .go { s with pc := s.pc + 2 } :=
  advancePc_go ((cursorInRange_pc_iff_pcFits s 2).2 h)

/-- On a match the second advance is a cursor set four on from the skip, whose address an error records
(R120, R300). -/
theorem skipWhen_true_of_pcFits {s : State} (h : PcFits s 2) :
    skipWhen true s = cursorSet s.pc .pc (s.pc + 4) { s with pc := s.pc + 2 } := by
  have hfirst : cursorAdvance s.pc .pc s = .go { s with pc := s.pc + 2 } :=
    advancePc_go ((cursorInRange_pc_iff_pcFits s 2).2 h)
  rw [skipWhen, if_pos rfl, hfirst]
  rfl

/-- An instruction that means `skipWhen` of a condition is a skip on that condition. -/
theorem skipsWhen_of_exec {i : Instr} {cond : State → Prop} [DecidablePred cond]
    (hexec : ∀ s, exec i s = (skipWhen (decide (cond s)) s).finish) : SkipsWhen i cond := by
  intro s hnext
  rw [hexec]
  refine ⟨fun hc => ?_, fun hc hfour => ?_, fun hc hfour => ?_⟩
  · rw [decide_eq_false hc, skipWhen_false_of_pcFits hnext]
    rfl
  · rw [decide_eq_true hc, skipWhen_true_of_pcFits hnext,
      cursorSet_go (s := { s with pc := s.pc + 2 }) ((cursorInRange_pc_iff_pcFits s 4).2 hfour)]
    rfl
  · rw [decide_eq_true hc, skipWhen_true_of_pcFits hnext,
      cursorSet_fatal (s := { s with pc := s.pc + 2 }) (mt (cursorInRange_pc_iff_pcFits s 4).1 hfour)]
    exact ⟨_, rfl, rfl⟩

/-- Settles O19: each of the four is `skipWhen` of its comparison. -/
theorem skipsMoveTwoOrFour : Obligations.SkipsMoveTwoOrFour :=
  ⟨fun _ _ => skipsWhen_of_exec fun _ => rfl, fun _ _ => skipsWhen_of_exec fun _ => rfl,
    fun _ _ => skipsWhen_of_exec fun _ => rfl, fun _ _ => skipsWhen_of_exec fun _ => rfl⟩

end Sys2Proof.Proofs

/-! A PC advance past the Program region is fatal (O20): what runs before an instruction's final advance leaves PC
and the configuration, so the advance fails at the value and the address of the state the instruction began in. -/

namespace Sys2Proof.Proofs

open Sys2Proof.Machine Sys2Proof.Safety

/-- The answer that a failed advance of PC from `s` ends an instruction with (R28). -/
abbrev StopsAtAdvance (s : State) (r : Outcome) : Prop :=
  StopsWith r (.cursorRange .pc ((s.pc + 2 : Nat) : Int) s.pc)

/-! ## What the earlier checks let pass -/

/-- Loads of registers at addresses inside the space all go through, and write only V. -/
theorem loadRegs_go {ipc : Nat} {ks : List Reg} {s : State} (h : ∀ k ∈ ks, s.i + k.val < memEnd) :
    ∃ v, loadRegs ipc ks s = .go { s with v := v } := by
  induction ks generalizing s with
  | nil => exact ⟨s.v, rfl⟩
  | cons k ks ih =>
    obtain ⟨hk, hks⟩ := List.forall_mem_cons.mp h
    rw [loadRegs, loadByte_ok hk]
    exact ih (s := s.setV k (s.readMem (s.i + k.val))) hks

/-- The end of a block transfer goes on, with I moved or not, where the moved I is in range (R212, R213). -/
theorem blockIncrement_go {x : Reg} {s : State}
    (h : s.cfg.blockIncrementsI = true → cursorInRange s.cfg .i (s.i + x.val + 1) = true) :
    ∃ i, blockIncrement x s = .go { s with i := i } := by
  by_cases hinc : s.cfg.blockIncrementsI = true
  · rw [blockIncrement, if_pos hinc, cursorSet_go (h hinc)]
    exact ⟨_, rfl⟩
  · rw [blockIncrement, if_neg hinc]
    exact ⟨s.i, rfl⟩

/-- A digit in Vx, or any value under `mask`, gives a digit (R196). -/
theorem fontDigit_ok {x : Reg} {s : State} (h : (s.getV x).toNat ≤ 0xF ∨ s.cfg.fontDigitPolicy = .mask) :
    ∃ d, d ≤ 0xF ∧ fontDigit x s = .ok d := by
  by_cases hd : (s.getV x).toNat ≤ 0xF
  · exact ⟨_, hd, if_pos hd⟩
  · have hmask := h.resolve_left hd
    refine ⟨(s.getV x &&& 0x0F#8).toNat, ?_, by simp only [fontDigit, if_neg hd, hmask]⟩
    rw [BitVec.toNat_and]
    exact Nat.and_le_right

/-- In a machine's configuration the font lies below the Program region, so I may be at any glyph (R31, R65). -/
theorem glyphAddress_inRange {c : Config} {d : Nat} (hv : c.Valid) (hd : d ≤ 0xF) :
    cursorInRange c .i (glyphAddress c d) = true := by
  obtain ⟨hstart, hstack, hdisplay, -, -, -, hfont, -⟩ := hv
  simp only [programStart, memEnd, fontTableBytes] at hstart hdisplay hfont
  have hlow : glyphAddress c d < 0x200 := by simp only [glyphAddress, glyphBytes]; omega
  cases hrange : c.indexRange with
  | union => simp [cursorInRange, hrange, show glyphAddress c d < c.stackStart by omega]
  | whole => simp [cursorInRange, hrange, memEnd, show glyphAddress c d < 0x1000 by omega]

/-! ## The advance, and the statements before it -/

section

variable {s : State} (hpast : ¬ PcFits s 2)

include hpast

/-- The final advance, after statements that left PC and the configuration. -/
theorem stopsAtAdvance_advancePc {t : State} (hcfg : t.cfg = s.cfg) (hpc : t.pc = s.pc) :
    StopsAtAdvance s (advancePc t).finish := by
  have hout : ¬ cursorInRange t.cfg .pc (t.pc + 2) = true := by
    rwa [hcfg, hpc, cursorInRange_pc_iff_pcFits]
  rw [advancePc_fatal hout, StopsAtAdvance, ← hpc]
  exact ⟨_, rfl, rfl⟩

/-- The same after an operation that went on. -/
theorem stopsAtAdvance_andThen {r : Flow} {t : State} (hr : r = .go t) (hcfg : t.cfg = s.cfg)
    (hpc : t.pc = s.pc) : StopsAtAdvance s (r.andThen advancePc).finish := by
  rw [hr, andThen_go]
  exact stopsAtAdvance_advancePc hpast hcfg hpc

/-- A skip stops at its first advance, on a match or not (R120). -/
theorem stopsAtAdvance_skipWhen (cond : Bool) : StopsAtAdvance s (skipWhen cond s).finish := by
  have hfirst : cursorAdvance s.pc .pc s = .fatal _ :=
    advancePc_fatal (mt (cursorInRange_pc_iff_pcFits s 2).1 hpast)
  cases cond with
  | false => exact stopsAtAdvance_advancePc hpast rfl rfl
  | true =>
    rw [skipWhen, if_pos rfl, hfirst]
    exact ⟨_, rfl, rfl⟩

theorem stopsAtAdvance_writeLogicResult (x : Reg) (b : Byte) :
    StopsAtAdvance s (advancePc (writeLogicResult x b s)).finish := by
  rw [writeLogicResult]
  split <;> exact stopsAtAdvance_advancePc hpast rfl rfl

/-- `LD I,addr` and `ADD I,Vx`, with the new I in its range. -/
theorem stopsAtAdvance_cursorSet_i {a : Nat} (h : cursorInRange s.cfg .i a = true) :
    StopsAtAdvance s ((cursorSet s.pc .i a s).andThen advancePc).finish :=
  stopsAtAdvance_andThen hpast (cursorSet_go h) rfl rfl

/-- The end of a block transfer that has copied its bytes, with the moved I in its range (R212, R213). -/
theorem stopsAtAdvance_blockIncrement {x : Reg} {r : Flow} {t : State} (hr : r = .go t)
    (hcfg : t.cfg = s.cfg) (hpc : t.pc = s.pc) (hi : t.i = s.i)
    (h : s.cfg.blockIncrementsI = true → cursorInRange s.cfg .i (s.i + x.val + 1) = true) :
    StopsAtAdvance s ((r.andThen (blockIncrement x)).andThen advancePc).finish := by
  rw [← hcfg, ← hi] at h
  obtain ⟨i, hinc⟩ := blockIncrement_go h
  rw [hr, andThen_go]
  exact stopsAtAdvance_andThen hpast hinc hcfg hpc

/-! ## The instructions -/

theorem stopsAtAdvance_of_onlyAdvances {i : Instr} (hi : onlyAdvances s.cfg i = true) :
    StopsAtAdvance s (exec i s) := by
  cases i with
  | sys nnn =>
    have hnoop : s.cfg.sysPolicy = .noop := of_decide_eq_true hi
    simp only [exec, execSys, hnoop]
    exact stopsAtAdvance_advancePc hpast rfl rfl
  | cls => exact stopsAtAdvance_advancePc hpast (clearDisplay_cfg s) (clearDisplay_pc s)
  | orReg | andReg | xorReg => exact stopsAtAdvance_writeLogicResult hpast _ _
  | ldImm | addImm | ldReg | addReg | subReg | shr | subn | shl | rnd | skp | sknp | ldVxDt | ldVxK | ldDtVx
    | ldStVx => exact stopsAtAdvance_advancePc hpast rfl rfl
  | ret | jp | call | seImm | sneImm | seReg | sneReg | ldI | jpV0 | drw | addI | ldFont | ldB | ldMemVx
    | ldVxMem => exact absurd hi Bool.false_ne_true

theorem stopsAtAdvance_ldFont {x : Reg} (hv : s.cfg.Valid)
    (h : (s.getV x).toNat ≤ 0xF ∨ s.cfg.fontDigitPolicy = .mask) : StopsAtAdvance s (exec (.ldFont x) s) := by
  obtain ⟨d, hd, hdigit⟩ := fontDigit_ok h
  simp only [exec, execLdFont, hdigit]
  exact stopsAtAdvance_cursorSet_i hpast (glyphAddress_inRange hv hd)

theorem stopsAtAdvance_ldMemVx {x : Reg} (hmem : s.i + x.val + 1 ≤ memEnd)
    (h : s.cfg.blockIncrementsI = true → cursorInRange s.cfg .i (s.i + x.val + 1) = true) :
    StopsAtAdvance s (exec (.ldMemVx x) s) := by
  have hbytes : s.i + ((regsUpTo x).map s.getV).length ≤ memEnd := by
    rwa [List.length_map, length_regsUpTo]
  exact stopsAtAdvance_blockIncrement hpast (storeBytes_go _ _ _ s hbytes) rfl rfl rfl h

theorem stopsAtAdvance_ldVxMem {x : Reg} (hmem : s.i + x.val + 1 ≤ memEnd)
    (h : s.cfg.blockIncrementsI = true → cursorInRange s.cfg .i (s.i + x.val + 1) = true) :
    StopsAtAdvance s (exec (.ldVxMem x) s) := by
  have hbytes : ∀ k ∈ regsUpTo x, s.i + k.val < memEnd := fun k hk => by
    rw [mem_regsUpTo] at hk
    omega
  obtain ⟨v, hload⟩ := loadRegs_go hbytes
  exact stopsAtAdvance_blockIncrement hpast hload rfl rfl rfl h

/-- The pixels and VF come between the sprite's bytes, which are read first, and the advance (R240). -/
theorem stopsAtAdvance_drw {x y : Reg} {n : RowCount} (h : n.val = 0 ∨ s.i + n.val ≤ memEnd) :
    StopsAtAdvance s (exec (.drw x y n) s) := by
  have hread : ∃ rows, loadBytes s.pc s.i s n.val = .ok rows := by
    obtain hn | hn := h
    · exact ⟨[], by rw [hn]; rfl⟩
    · exact ⟨_, loadBytes_ok _ _ _ _ hn⟩
  obtain ⟨rows, hrows⟩ := hread
  have hplaces := blit_samePlaces (spritePixels (drawColumn x s) (drawRow y s) rows) s
  simp only [exec, execDrw, hrows]
  exact stopsAtAdvance_advancePc hpast hplaces.cfg hplaces.pc

end

/-- Settles O20: each instruction's earlier checks pass, so it gets to its final advance. -/
theorem advancePastTheProgramIsFatal : Obligations.AdvancePastTheProgramIsFatal := by
  intro s hpast
  have hskip := stopsAtAdvance_skipWhen hpast
  refine ⟨fun i hi => stopsAtAdvance_of_onlyAdvances hpast hi, fun x kk => ⟨hskip _, hskip _⟩,
    fun x y => ⟨hskip _, hskip _⟩, fun nnn h => stopsAtAdvance_cursorSet_i hpast h,
    fun x h => stopsAtAdvance_cursorSet_i hpast h, fun x hv h => stopsAtAdvance_ldFont hpast hv h, fun x h => ?_,
    fun x hmem h => ⟨stopsAtAdvance_ldMemVx hpast hmem h, stopsAtAdvance_ldVxMem hpast hmem h⟩,
    fun x y n h => stopsAtAdvance_drw hpast h⟩
  exact stopsAtAdvance_andThen hpast (storeBytes_go _ (bcdDigits (s.getV x)) _ s h) rfl rfl

end Sys2Proof.Proofs

/-! Block transfers (O49): the copy goes through and is read back register by register; what follows it, the move
of I and the advance, is one argument for both directions. -/

namespace Sys2Proof.Proofs

open Sys2Proof.Machine Sys2Proof.Safety

/-! ## The copy -/

/-- The registers V0 to Vx stand in the list at their own numbers. -/
theorem regsUpTo_getElem? {x k : Reg} (hk : k.val ≤ x.val) : (regsUpTo x)[k.val]? = some k := by
  rw [regsUpTo, List.getElem?_take_of_lt (Nat.lt_succ_of_le hk)]
  simp

/-- Stores of V0 to Vx inside the space all go through, write only memory, and put Vk at I + k (R212). -/
theorem storeBytes_regsUpTo_go {x : Reg} {s : State} (ipc : Nat) (hmem : s.i + x.val + 1 ≤ memEnd) :
    ∃ m, storeBytes ipc s.i ((regsUpTo x).map s.getV) s = .go { s with mem := m } ∧
      ∀ k : Reg, k.val ≤ x.val → m.read s.cfg (s.i + k.val) = s.getV k := by
  have hlength : ((regsUpTo x).map s.getV).length = x.val + 1 := by
    rw [List.length_map, length_regsUpTo]
  refine ⟨_, storeBytes_go ipc _ s.i s (by rwa [hlength]), fun k hk => ?_⟩
  rw [Memory.read_writeRange, if_pos ⟨by omega, by omega⟩, Nat.add_sub_cancel_left]
  simp [List.getElem?_map, regsUpTo_getElem? hk]

/-- Loads of registers at addresses inside the space leave each with its byte of memory, and the registers not
listed as they were (R213). -/
theorem loadRegs_go_reads {ipc : Nat} {ks : List Reg} {s : State} (h : ∀ k ∈ ks, s.i + k.val < memEnd) :
    ∃ v, loadRegs ipc ks s = .go { s with v := v } ∧
      ∀ j : Reg, v[j.val] = if j ∈ ks then s.readMem (s.i + j.val) else s.getV j := by
  induction ks generalizing s with
  | nil => exact ⟨s.v, rfl, fun _ => rfl⟩
  | cons k ks ih =>
    obtain ⟨hk, hks⟩ := List.forall_mem_cons.mp h
    obtain ⟨v, hload, hv⟩ := ih (s := s.setV k (s.readMem (s.i + k.val))) hks
    refine ⟨v, by rw [loadRegs, loadByte_ok hk]; exact hload, fun j => ?_⟩
    rw [hv, getV_setV]
    by_cases hj : j = k
    · subst hj
      simp [State.readMem]
    · simp [hj, State.readMem]

/-- Loads of V0 to Vx inside the space all go through, write only V, and put the byte at I + k in Vk (R213). -/
theorem loadRegs_regsUpTo_go {x : Reg} {s : State} (ipc : Nat) (hmem : s.i + x.val + 1 ≤ memEnd) :
    ∃ v, loadRegs ipc (regsUpTo x) s = .go { s with v := v } ∧
      ∀ k : Reg, k.val ≤ x.val → v[k.val] = s.readMem (s.i + k.val) := by
  have hbytes : ∀ k ∈ regsUpTo x, s.i + k.val < memEnd := fun k hk => by
    rw [mem_regsUpTo] at hk
    omega
  obtain ⟨v, hload, hv⟩ := loadRegs_go_reads (ipc := ipc) hbytes
  exact ⟨v, hload, fun k hk => by rw [hv, if_pos ((mem_regsUpTo x k).2 hk)]⟩

/-! ## What follows the copy -/

/-- The end of a block transfer moves I past the block under BLOCK_INCREMENTS_I and leaves it otherwise, where the
moved I is in range (R212, R213; D12). -/
theorem blockIncrement_eq_go {x : Reg} {t : State}
    (h : t.cfg.blockIncrementsI = true → cursorInRange t.cfg .i (t.i + x.val + 1) = true) :
    blockIncrement x t =
      .go (t.putCursor .i (if t.cfg.blockIncrementsI = true then t.i + x.val + 1 else t.i)) := by
  by_cases hinc : t.cfg.blockIncrementsI = true
  · rw [blockIncrement, if_pos hinc, if_pos hinc, cursorSet_go (h hinc)]
  · rw [blockIncrement, if_neg hinc, if_neg hinc]
    rfl

/-- Under BLOCK_INCREMENTS_I a move of I out of its range is fatal (R13, R212, R213). -/
theorem blockIncrement_eq_fatal {x : Reg} {t : State} (hinc : t.cfg.blockIncrementsI = true)
    (hout : cursorInRange t.cfg .i (t.i + x.val + 1) = false) :
    blockIncrement x t =
      .fatal (t.faultedWith (.cursorRange .i ((t.i + x.val + 1 : Nat) : Int) t.pc)) := by
  rw [blockIncrement, if_pos hinc, cursorSet_fatal (ne_true_of_eq_false hout)]

/-- A block transfer whose copy left the state `t` completes with I moved or not and PC at the next word. -/
theorem blockTransfer_completes {x : Reg} {copy : Flow} {t : State} (hcopy : copy = .go t) (hnext : PcFits t 2)
    (h : t.cfg.blockIncrementsI = true → cursorInRange t.cfg .i (t.i + x.val + 1) = true) :
    ((copy.andThen (blockIncrement x)).andThen advancePc).finish =
      .next ((t.putCursor .i (if t.cfg.blockIncrementsI = true then t.i + x.val + 1 else t.i)).putCursor
        .pc (t.pc + 2)) := by
  have hadvance (i : Nat) :
      advancePc (t.putCursor .i i) = .go ((t.putCursor .i i).putCursor .pc (t.pc + 2)) :=
    advancePc_go ((cursorInRange_pc_iff_pcFits t 2).2 hnext)
  rw [hcopy, andThen_go, blockIncrement_eq_go h, andThen_go, hadvance, finish_go]

/-- A block transfer whose copy left the state `t` stops there where the move of I is out of range (R303). -/
theorem blockTransfer_stops {x : Reg} {copy : Flow} {t : State} (hcopy : copy = .go t)
    (hinc : t.cfg.blockIncrementsI = true) (hout : cursorInRange t.cfg .i (t.i + x.val + 1) = false) :
    ((copy.andThen (blockIncrement x)).andThen advancePc).finish =
      .next (t.faultedWith (.cursorRange .i ((t.i + x.val + 1 : Nat) : Int) t.pc)) := by
  rw [hcopy, andThen_go, blockIncrement_eq_fatal hinc hout, andThen_fatal, finish_fatal]

/-- Settles O49: the copy changes memory or V alone, so the checks after it see I, PC and the configuration of the
state the instruction began in, and neither the move of I nor its failure touches what was copied. -/
theorem blockTransfersCopyV0ToVx : Obligations.BlockTransfersCopyV0ToVx := by
  intro s x hmem
  obtain ⟨m, hstore, hm⟩ := storeBytes_regsUpTo_go s.pc hmem
  obtain ⟨v, hload, hv⟩ := loadRegs_regsUpTo_go s.pc hmem
  refine ⟨fun hnext h => ⟨?_, ?_⟩, fun hinc hout => ⟨?_, ?_⟩⟩
  · exact ⟨_, blockTransfer_completes hstore hnext h, rfl, rfl, rfl, hm⟩
  · exact ⟨_, blockTransfer_completes hload hnext h, rfl, rfl, rfl, hv⟩
  · exact ⟨_, blockTransfer_stops hstore hinc hout, rfl, rfl, rfl, hm⟩
  · exact ⟨_, blockTransfer_stops hload hinc hout, rfl, rfl, rfl, hv⟩

end Sys2Proof.Proofs

/-! # The snapshot (R246)

The snapshot is indexed by the row-major index of a pixel: here, that the index gives the pixel's place back. -/

namespace Sys2Proof.Proofs

open Sys2Proof.Machine

/-- The row-major index of a pixel of the display lies in the snapshot (R38). -/
theorem pixelIndex_lt {px py : Nat} (hx : px < displayW) (hy : py < displayH) :
    pixelIndex px py < displayW * displayH := by
  simp only [pixelIndex, displayW, displayH] at *
  omega

/-- The column is recovered from the row-major index. -/
theorem pixelIndex_mod {px : Nat} (py : Nat) (hx : px < displayW) : pixelIndex px py % displayW = px :=
  Nat.mul_add_mod_of_lt hx

/-- The row is recovered from the row-major index. -/
theorem pixelIndex_div {px : Nat} (py : Nat) (hx : px < displayW) : pixelIndex px py / displayW = py := by
  simp only [pixelIndex, displayW] at *
  omega

@[simp] theorem length_snapshot (s : State) : s.snapshot.length = displayW * displayH := by
  rw [State.snapshot, List.length_map, List.length_range]

/-- Entry `k` of the snapshot is the pixel in column `k % 64` of row `k / 64` (R246). -/
theorem getElem?_snapshot (s : State) {k : Nat} (hk : k < displayW * displayH) :
    s.snapshot[k]? = some (s.pixel (k % displayW) (k / displayW)) := by
  rw [State.snapshot, List.getElem?_map, List.getElem?_range hk, Option.map_some]

/-- Settles O56: a pixel's row-major index gives back its column and its row, so the snapshot's entry there is that
pixel; no step looks into how the pixel is read, so the display mode does not matter. -/
theorem snapshotIsRowMajor : Obligations.SnapshotIsRowMajor := by
  intro s
  refine ⟨length_snapshot s, fun px py hx hy => ?_⟩
  have hentry := getElem?_snapshot s (pixelIndex_lt hx hy)
  rwa [pixelIndex_mod py hx, pixelIndex_div py hx] at hentry

end Sys2Proof.Proofs

/-! # The timers (R320 to R325)

A set writes a counter and the instant it counts from; a tick only takes off the counter. No instruction but
`LD Vx,DT` reads a timer and none but the two sets writes one: every operation does the same to a state whose timers
have been replaced, and leaves the replacements. One lemma per operation, then one for all instructions. -/

namespace Sys2Proof.Proofs

open Sys2Proof.Machine Sys2Proof.Safety

/-! ## A timer set -/

/-- An instruction whose last act is the advance of PC completes where the next word is in the Program region, with
what held before the advance. -/
theorem completes_of_advancePc {i : Instr} {s t : State} {what : State → Prop}
    (hexec : exec i s = (advancePc t).finish) (hcfg : t.cfg = s.cfg) (hpc : t.pc = s.pc)
    (hstatus : t.status = s.status) (hnext : PcFits s 2) (hwhat : what (t.putCursor .pc (s.pc + 2))) :
    Completes i s what := by
  have hin : cursorInRange t.cfg .pc (t.pc + 2) = true := by
    rwa [hcfg, hpc, cursorInRange_pc_iff_pcFits]
  exact ⟨t.putCursor .pc (s.pc + 2), by rw [hexec, advancePc_go hin, finish_go, hpc], hstatus, rfl, hwhat⟩

/-- Settles O43: each set is `Timer.set` of Vx at the execution instant, and then the advance. -/
theorem timerSetWritesCountAndAnchor : Obligations.TimerSetWritesCountAndAnchor := fun _ _ hnext =>
  ⟨completes_of_advancePc rfl rfl rfl rfl hnext ⟨rfl, rfl⟩,
    completes_of_advancePc rfl rfl rfl rfl hnext ⟨rfl, rfl⟩⟩

/-! ## A tick -/

/-- From an instant to the one `k` intervals on there are `k` whole intervals. -/
theorem wholeIntervals_add_div (start : Instant) (k : Nat) :
    wholeIntervals start (start + (k : Rat) / 60) = k := by
  have hcount : (start + (k : Rat) / 60 - start) * (timerHz : Rat) = (k : Rat) := by
    norm_num [timerHz]
  rw [wholeIntervals, hcount, Nat.floor_natCast]

/-- A tick never raises the counter (R325). -/
theorem tick_count_le (T : Timer) (t : Instant) : (T.tick t).count ≤ T.count := by
  rw [BitVec.le_def, tick_count]
  exact Nat.sub_le _ _

/-- A tick leaves a counter at 0 there (R325). -/
theorem tick_count_eq_zero {T : Timer} (t : Instant) (h : T.count = 0#8) : (T.tick t).count = 0#8 := by
  rw [Timer.tick, Timer.decay, if_pos h]

/-! ## Replacing the timers -/

/-- The state with other timers, each made from the timer it replaces. -/
def retime (f g : Timer → Timer) (s : State) : State := { s with dt := f s.dt, st := g s.st }

/-- A run through a rule that ends in such a state. -/
def retimeFlow (f g : Timer → Timer) : Flow → Flow
  | .go s => .go (retime f g s)
  | .fatal s => .fatal (retime f g s)

/-- An answer whose next state is such a state. -/
def retimeNext (f g : Timer → Timer) : Outcome → Outcome
  | .next s => .next (retime f g s)
  | .fault r => .fault r
  | .refused r => .refused r

section

variable {f g : Timer → Timer} {s s' : State}

@[simp] theorem retime_cfg : (retime f g s).cfg = s.cfg := rfl

/-! ### Sequencing -/

theorem andThen_retime {r r' : Flow} {k k' : State → Flow} (hr : r' = retimeFlow f g r)
    (hk : ∀ t, k' (retime f g t) = retimeFlow f g (k t)) :
    r'.andThen k' = retimeFlow f g (r.andThen k) := by
  subst hr
  cases r with
  | go t => exact hk t
  | fatal t => rfl

theorem finish_retime {r r' : Flow} (hr : r' = retimeFlow f g r) : r'.finish = retimeNext f g r.finish := by
  subst hr
  cases r with
  | go t => rfl
  | fatal t => rfl

theorem raiseFatal_retime (e : Fatal) (h : s' = retime f g s) :
    raiseFatal e s' = retimeFlow f g (raiseFatal e s) := by
  subst h
  rfl

/-! ### Registers and memory -/

theorem writeLogicResult_retime (x : Reg) (b : Byte) (h : s' = retime f g s) :
    writeLogicResult x b s' = retime f g (writeLogicResult x b s) := by
  subst h
  by_cases hreset : s.cfg.logicVfReset = true
  · rw [writeLogicResult, writeLogicResult, retime_cfg, if_pos hreset, if_pos hreset]
    rfl
  · rw [writeLogicResult, writeLogicResult, retime_cfg, if_neg hreset, if_neg hreset]
    rfl

theorem exitWhen_retime (cond : Bool) (h : s' = retime f g s) :
    exitWhen cond s' = retime f g (exitWhen cond s) := by
  subst h
  cases cond with
  | true => rfl
  | false => rfl

theorem loadByte_retime (ipc a : Nat) (h : s' = retime f g s) : loadByte ipc a s' = loadByte ipc a s := by
  subst h
  rfl

theorem loadBytes_retime (ipc n a : Nat) (h : s' = retime f g s) :
    loadBytes ipc a s' n = loadBytes ipc a s n := by
  induction n generalizing a with
  | zero => rfl
  | succ n ih => simp only [loadBytes, loadByte_retime ipc a h, ih (a + 1)]

theorem storeByte_retime (ipc a : Nat) (b : Byte) (h : s' = retime f g s) :
    storeByte ipc a b s' = retimeFlow f g (storeByte ipc a b s) := by
  by_cases ha : a < memEnd
  · rw [storeByte_go ha, storeByte_go ha, h]
    rfl
  · rw [storeByte_fatal ha, storeByte_fatal ha, h]
    rfl

theorem storeBytes_retime (ipc a : Nat) (bytes : List Byte) (h : s' = retime f g s) :
    storeBytes ipc a bytes s' = retimeFlow f g (storeBytes ipc a bytes s) := by
  induction bytes generalizing a s s' with
  | nil => exact congrArg Flow.go h
  | cons b bytes ih => exact andThen_retime (storeByte_retime ipc a b h) fun _ => ih (a + 1) rfl

theorem loadRegs_retime (ipc : Nat) (ks : List Reg) (h : s' = retime f g s) :
    loadRegs ipc ks s' = retimeFlow f g (loadRegs ipc ks s) := by
  induction ks generalizing s s' with
  | nil => exact congrArg Flow.go h
  | cons k ks ih =>
    have hi : s'.i = s.i := by rw [h]; rfl
    rw [loadRegs, loadRegs, hi, loadByte_retime ipc _ h]
    cases loadByte ipc (s.i + k.val) s with
    | error e => exact raiseFatal_retime e h
    | ok b => exact ih (by rw [h]; rfl)

/-! ### Cursors -/

theorem cursorSet_retime (ipc : Nat) (k : CursorName) (a : Nat) (h : s' = retime f g s) :
    cursorSet ipc k a s' = retimeFlow f g (cursorSet ipc k a s) := by
  subst h
  have hput : (retime f g s).putCursor k a = retime f g (s.putCursor k a) := by
    cases k with
    | pc | sp | i => rfl
  by_cases hin : cursorInRange s.cfg k a = true
  · rw [cursorSet_go (s := retime f g s) hin, cursorSet_go hin, hput]
    rfl
  · rw [cursorSet_fatal (s := retime f g s) hin, cursorSet_fatal hin]
    rfl

theorem getCursor_retime (k : CursorName) (h : s' = retime f g s) : s'.getCursor k = s.getCursor k := by
  subst h
  cases k with
  | pc | sp | i => rfl

theorem cursorAdvance_retime (ipc : Nat) (k : CursorName) (h : s' = retime f g s) :
    cursorAdvance ipc k s' = retimeFlow f g (cursorAdvance ipc k s) := by
  rw [cursorAdvance, cursorAdvance, getCursor_retime k h]
  exact cursorSet_retime _ _ _ h

theorem cursorRetreat_retime (ipc : Nat) (k : CursorName) (h : s' = retime f g s) :
    cursorRetreat ipc k s' = retimeFlow f g (cursorRetreat ipc k s) := by
  rw [cursorRetreat, cursorRetreat, getCursor_retime k h]
  split
  · exact cursorSet_retime _ _ _ h
  · exact raiseFatal_retime _ h

theorem advancePc_retime (h : s' = retime f g s) : advancePc s' = retimeFlow f g (advancePc s) := by
  have hpc : s'.pc = s.pc := getCursor_retime .pc h
  rw [advancePc, advancePc, hpc]
  exact cursorAdvance_retime _ _ h

theorem skipWhen_retime (cond : Bool) (h : s' = retime f g s) :
    skipWhen cond s' = retimeFlow f g (skipWhen cond s) := by
  have hpc : s'.pc = s.pc := getCursor_retime .pc h
  have hone := cursorAdvance_retime s.pc .pc h
  rw [skipWhen, skipWhen, hpc]
  cases cond with
  | true => exact andThen_retime hone fun _ => cursorAdvance_retime _ _ rfl
  | false => exact hone

theorem blockIncrement_retime (x : Reg) (h : s' = retime f g s) :
    blockIncrement x s' = retimeFlow f g (blockIncrement x s) := by
  subst h
  by_cases hinc : s.cfg.blockIncrementsI = true
  · rw [blockIncrement, blockIncrement, retime_cfg, if_pos hinc, if_pos hinc]
    exact cursorSet_retime _ _ _ rfl
  · rw [blockIncrement, blockIncrement, retime_cfg, if_neg hinc, if_neg hinc]
    rfl

theorem popPc_retime (ipc : Nat) (h : s' = retime f g s) :
    popPc ipc s' = retimeFlow f g (popPc ipc s) := by
  have hsp : s'.sp = s.sp := getCursor_retime .sp h
  rw [popPc, popPc, hsp, loadByte_retime ipc _ h, loadByte_retime ipc _ h]
  cases loadByte ipc s.sp s with
  | error e => exact raiseFatal_retime e h
  | ok hi =>
    cases loadByte ipc (s.sp + 1) s with
    | error e => exact raiseFatal_retime e h
    | ok lo => exact andThen_retime (cursorSet_retime _ _ _ h) fun _ => cursorAdvance_retime _ _ rfl

/-! ### The display -/

theorem flipPixel_retime (px py : Nat) (s : State) :
    (retime f g s).flipPixel px py = retime f g (s.flipPixel px py) := by
  cases hmode : s.cfg.displayMode with
  | inline | external =>
    simp only [State.flipPixel, retime_cfg, hmode]
    rfl

theorem clearDisplay_retime (s : State) : clearDisplay (retime f g s) = retime f g (clearDisplay s) := by
  cases hmode : s.cfg.displayMode with
  | inline | external => simp only [clearDisplay, hmode, retime]

theorem blit_retime (ps : List (Nat × Nat)) (s : State) :
    blit ps (retime f g s) = ((blit ps s).1, retime f g (blit ps s).2) := by
  induction ps generalizing s with
  | nil => rfl
  | cons p ps ih =>
    have hpixel : (retime f g s).pixel p.1 p.2 = s.pixel p.1 p.2 := rfl
    simp only [blit, xorPixel, hpixel, flipPixel_retime, ih]

/-! ### The instructions whose meaning branches -/

theorem execSys_retime (nnn : Addr12) (s : State) :
    execSys nnn (retime f g s) = retimeNext f g (execSys nnn s) := by
  cases hpolicy : s.cfg.sysPolicy with
  | noop =>
    simp only [execSys, retime_cfg, hpolicy]
    exact finish_retime (advancePc_retime rfl)
  | fault =>
    simp only [execSys, retime_cfg, hpolicy]
    exact finish_retime (raiseFatal_retime _ rfl)

theorem execLdFont_retime (x : Reg) (s : State) :
    execLdFont x (retime f g s) = retimeNext f g (execLdFont x s) := by
  have hdigit : fontDigit x (retime f g s) = fontDigit x s := rfl
  rw [execLdFont, execLdFont, hdigit]
  cases fontDigit x s with
  | error e => exact finish_retime (raiseFatal_retime e rfl)
  | ok d => exact finish_retime (andThen_retime (cursorSet_retime _ _ _ rfl) fun _ => advancePc_retime rfl)

theorem execDrw_retime (x y : Reg) (n : RowCount) (s : State) :
    execDrw x y n (retime f g s) = retimeNext f g (execDrw x y n s) := by
  have hrows : loadBytes (retime f g s).pc (retime f g s).i (retime f g s) n.val = loadBytes s.pc s.i s n.val :=
    loadBytes_retime _ _ _ rfl
  rw [execDrw, execDrw, hrows]
  cases loadBytes s.pc s.i s n.val with
  | error e => exact finish_retime (raiseFatal_retime e rfl)
  | ok rows =>
    simp only [blit_retime]
    exact finish_retime (advancePc_retime rfl)

/-! ### All instructions -/

/-- An instruction does the same whatever the timers hold, and leaves them, but that `LD DT,Vx` writes and `LD Vx,DT`
reads the delay timer, and `LD ST,Vx` writes the sound timer (R324, R325). -/
theorem exec_retime (i : Instr) (s : State) (hset : ∀ x, i = .ldDtVx x → f = id)
    (hread : ∀ x, i = .ldVxDt x → f = id) (hsound : ∀ x, i = .ldStVx x → g = id) :
    exec i (retime f g s) = retimeNext f g (exec i s) := by
  cases i with
  | sys nnn => exact execSys_retime nnn s
  | cls => exact finish_retime (advancePc_retime (clearDisplay_retime s))
  | ret => exact finish_retime (andThen_retime (cursorRetreat_retime _ _ rfl) fun _ => popPc_retime _ rfl)
  | jp | jpV0 => exact finish_retime (cursorSet_retime _ _ _ (exitWhen_retime _ rfl))
  | call nnn =>
    exact finish_retime (andThen_retime
      (andThen_retime (storeBytes_retime _ _ _ rfl) fun _ => cursorAdvance_retime _ _ rfl)
      fun _ => cursorSet_retime _ _ _ rfl)
  | seImm | sneImm | seReg | sneReg => exact finish_retime (skipWhen_retime _ rfl)
  | orReg | andReg | xorReg => exact finish_retime (advancePc_retime (writeLogicResult_retime _ _ rfl))
  | ldImm | addImm | ldReg | addReg | subReg | shr | subn | shl | rnd | skp | sknp | ldVxK =>
    exact finish_retime (advancePc_retime rfl)
  | ldI | addI =>
    exact finish_retime (andThen_retime (cursorSet_retime _ _ _ rfl) fun _ => advancePc_retime rfl)
  | ldFont x => exact execLdFont_retime x s
  | drw x y n => exact execDrw_retime x y n s
  | ldB x => exact finish_retime (andThen_retime (storeBytes_retime _ _ _ rfl) fun _ => advancePc_retime rfl)
  | ldMemVx x =>
    exact finish_retime (andThen_retime
      (andThen_retime (storeBytes_retime _ _ _ rfl) fun _ => blockIncrement_retime x rfl)
      fun _ => advancePc_retime rfl)
  | ldVxMem x =>
    exact finish_retime (andThen_retime
      (andThen_retime (loadRegs_retime _ _ rfl) fun _ => blockIncrement_retime x rfl)
      fun _ => advancePc_retime rfl)
  | ldDtVx x =>
    obtain rfl := hset x rfl
    exact finish_retime (advancePc_retime rfl)
  | ldVxDt x =>
    obtain rfl := hread x rfl
    exact finish_retime (advancePc_retime rfl)
  | ldStVx x =>
    obtain rfl := hsound x rfl
    exact finish_retime (advancePc_retime rfl)

end

/-! ## What the instructions do to either timer -/

section

variable {i : Instr} {s t : State}

/-- An instruction other than `LD ST,Vx` does the same whatever ST holds, and leaves it. -/
theorem exec_replace_st (T : Timer) (h : exec i s = .next t) (hi : ∀ x, i ≠ .ldStVx x) :
    exec i { s with st := T } = .next { t with st := T } := by
  have hexec := exec_retime (f := id) (g := fun _ => T) i s (fun _ _ => rfl) (fun _ _ => rfl)
    fun x hx => absurd hx (hi x)
  rwa [h] at hexec

/-- An instruction other than `LD DT,Vx` and `LD Vx,DT` does the same whatever DT holds, and leaves it. -/
theorem exec_replace_dt (T : Timer) (h : exec i s = .next t) (hset : ∀ x, i ≠ .ldDtVx x)
    (hread : ∀ x, i ≠ .ldVxDt x) : exec i { s with dt := T } = .next { t with dt := T } := by
  have hexec := exec_retime (f := fun _ => T) (g := id) i s (fun x hx => absurd hx (hset x))
    (fun x hx => absurd hx (hread x)) fun _ _ => rfl
  rwa [h] at hexec

/-- An instruction other than `LD ST,Vx` leaves ST: putting the ST it began with in its place changes nothing. -/
theorem st_of_exec (h : exec i s = .next t) (hi : ∀ x, i ≠ .ldStVx x) : t.st = s.st := by
  have hsame : exec i s = .next { t with st := s.st } := exec_replace_st s.st h hi
  have ht : t = { t with st := s.st } := by simpa using h.symm.trans hsame
  rw [ht]

end

/-- Settles O45: the tick's laws, the two replacements, and the sets, which overwrite the timer they are given and
pass the other through. -/
theorem timersOnlyCountDown : Obligations.TimersOnlyCountDown := by
  refine ⟨fun T t _ => ⟨tick_count_le T t, tick_count_eq_zero t, fun k hk => ?_⟩,
    fun _ _ _ T h hi => exec_replace_st T h hi,
    fun _ _ _ T h hset hread => exec_replace_dt T h hset hread, fun _ _ _ => ⟨rfl, rfl⟩⟩
  rw [tick_count, hk, wholeIntervals_add_div]

/-- The beep is on when ST counts (R35, R324). -/
theorem beep_iff (s : State) : s.beep = true ↔ 0 < s.st.count.toNat := by
  rw [State.beep, Timer.active, decide_eq_true_iff, BitVec.lt_def]
  rfl

/-- Settles O46: the beep is read off ST alone, which no instruction but its set writes. -/
theorem beepIsTheSoundCounter : Obligations.BeepIsTheSoundCounter := by
  refine ⟨beep_iff, fun i s t h hi => ?_⟩
  rw [State.beep, State.beep, st_of_exec h hi]

end Sys2Proof.Proofs

/-! An image longer than the Program region is refused, any other is loaded (O59). -/

namespace Sys2Proof.Proofs

open Sys2Proof.Machine

variable {c : Config} {image : List Byte}

/-- Data longer than its range is not loaded (R61). -/
theorem load_of_length_gt {m : Memory} {start size : Nat} {data : List Byte} (h : size < data.length) :
    Memory.load c m start size data = none := if_pos h

/-- Data that fits its range is written from its start on (R61). -/
theorem load_of_length_le {m : Memory} {start size : Nat} {data : List Byte} (h : data.length ≤ size) :
    Memory.load c m start size data = some (Memory.writeRange c m start data) := if_neg (Nat.not_lt.mpr h)

/-- Without room for the image a valid configuration has no machine (R344). -/
theorem init_of_oversized (t0 : Instant) (hv : c.Valid) (h : programBytes c < image.length) :
    init c image t0 = .fault (.initFailed (.oversizedLoad image.length (programBytes c))) := by
  rw [init, if_pos hv, load_of_length_gt h]

/-- With room for it the machine is the initial state with the image written at the first Program address; the
converse of `init_next` (R340, R344). -/
theorem init_of_fits (t0 : Instant) (hv : c.Valid) (h : image.length ≤ programBytes c) :
    init c image t0 =
      .next { State.initial c t0 with
        mem := Memory.writeRange c (State.initial c t0).mem programStart image } := by
  rw [init, if_pos hv, load_of_length_le h]

/-- Settles O59: the statement's bound S - 0x200 is `programBytes`, the size `init` hands to the load, so the two
sides of the bound are the two answers of the load. -/
theorem oversizedImageIsFatal : Obligations.OversizedImageIsFatal := fun _ _ t0 hv =>
  ⟨init_of_oversized t0 hv, fun hfits => ⟨_, init_of_fits t0 hv hfits⟩⟩

end Sys2Proof.Proofs

/-! Encoding and decoding are inverse (O1, O2): each word format gives its fields back, and the decoder dispatches on
fields alone. The same dispatch lists the unknown opcodes of the defaults (O4, O5). -/

namespace Sys2Proof.Proofs

open Sys2Proof.Laws Sys2Proof.Machine

variable {c : Config} {op : Word}

/-! ## The fields of an encoded word (R91, R92) -/

@[simp] theorem family_encodeNNN (f : BitVec 4) (nnn : Addr12) : (encodeNNN f nnn).family = f :=
  BitVec.extractLsb'_append_eq_left

@[simp] theorem nnn_encodeNNN (f : BitVec 4) (nnn : Addr12) : (encodeNNN f nnn).nnn = nnn :=
  BitVec.extractLsb'_append_eq_right

@[simp] theorem family_encodeXKK (f : BitVec 4) (x : Reg) (kk : Byte) : (encodeXKK f x kk).family = f := by
  rw [encodeXKK_eq_encodeNNN, family_encodeNNN]

@[simp] theorem kk_encodeXKK (f : BitVec 4) (x : Reg) (kk : Byte) : (encodeXKK f x kk).kk = kk :=
  BitVec.extractLsb'_append_eq_right

/-- The register bits of a word of format XKK, as bits (R91). -/
theorem extractLsb'_encodeXKK (f : BitVec 4) (x : Reg) (kk : Byte) :
    (encodeXKK f x kk).extractLsb' 8 4 = ⟨x⟩ := by
  refine BitVec.eq_of_getLsbD_eq fun i hi => ?_
  simp only [encodeXKK, BitVec.getLsbD_extractLsb', BitVec.getLsbD_append]
  simp [hi]

@[simp] theorem x_encodeXKK (f : BitVec 4) (x : Reg) (kk : Byte) : (encodeXKK f x kk).x = x :=
  congrArg BitVec.toFin (extractLsb'_encodeXKK f x kk)

@[simp] theorem family_encodeXYN (f : BitVec 4) (x y : Reg) (n : Fin 16) : (encodeXYN f x y n).family = f := by
  rw [encodeXYN_eq_encodeXKK, family_encodeXKK]

@[simp] theorem x_encodeXYN (f : BitVec 4) (x y : Reg) (n : Fin 16) : (encodeXYN f x y n).x = x := by
  rw [encodeXYN_eq_encodeXKK, x_encodeXKK]

/-- The second register of a word of format XYN, as bits (R91). -/
theorem extractLsb'_encodeXYN (f : BitVec 4) (x y : Reg) (n : Fin 16) :
    (encodeXYN f x y n).extractLsb' 4 4 = ⟨y⟩ := by
  refine BitVec.eq_of_getLsbD_eq fun i hi => ?_
  simp only [encodeXYN, BitVec.getLsbD_extractLsb', BitVec.getLsbD_append]
  simp [hi]

@[simp] theorem y_encodeXYN (f : BitVec 4) (x y : Reg) (n : Fin 16) : (encodeXYN f x y n).y = y :=
  congrArg BitVec.toFin (extractLsb'_encodeXYN f x y n)

@[simp] theorem low_encodeXYN (f : BitVec 4) (x y : Reg) (n : Fin 16) : (encodeXYN f x y n).low = ⟨n⟩ :=
  BitVec.extractLsb'_append_eq_right

@[simp] theorem n_encodeXYN (f : BitVec 4) (x y : Reg) (n : Fin 16) : (encodeXYN f x y n).n = n :=
  congrArg BitVec.toFin (low_encodeXYN f x y n)

/-- Settles O1: the dispatch on the fields of an instruction's word, family by family, leads back to its
constructor and its operands. -/
theorem decodeOfEncodeIsTheInstruction : Obligations.DecodeOfEncodeIsTheInstruction := by
  intro c i hwf
  cases i with
  | sys nnn =>
    obtain ⟨hnoop, hcls, hret⟩ : c.sysPolicy = .noop ∧ nnn ≠ 0x0E0#12 ∧ nnn ≠ 0x0EE#12 := by
      simpa [Instr.WellFormed] using hwf
    simp [decode, encode, decodeFamily0, hnoop, hcls, hret]
  | cls | ret => rfl
  | jp | call | ldI | jpV0 => simp [decode, encode]
  | seImm | sneImm | ldImm | addImm | rnd | drw => simp [decode, encode]
  | seReg | sneReg => simp [decode, encode, decodeStrict]
  | ldReg | orReg | andReg | xorReg | addReg | subReg | shr | subn | shl =>
    simp [decode, encode, decodeFamily8]
  | skp | sknp => simp [decode, encode, decodeFamilyE]
  | ldVxDt | ldVxK | ldDtVx | ldStVx | addI | ldFont | ldB | ldMemVx | ldVxMem =>
    simp [decode, encode, decodeFamilyF]

/-! ## The word of what a word decodes to -/

theorem encodeNNN_of_family {f : BitVec 4} (hf : op.family = f) : encodeNNN f op.nnn = op := by
  rw [← hf, encodeNNN_fields]

theorem encodeXKK_of_family_kk {f : BitVec 4} {kk : Byte} (hf : op.family = f) (hkk : op.kk = kk) :
    encodeXKK f op.x kk = op := by
  rw [← hf, ← hkk, encodeXKK_fields]

theorem encodeXYN_of_family_low {f : BitVec 4} {n : Fin 16} (hf : op.family = f) (hlow : op.low = ⟨n⟩) :
    encodeXYN f op.x op.y n = op := by
  have hn : op.n = n := congrArg BitVec.toFin hlow
  rw [← hf, ← hn, encodeXYN_fields]

/-- Clearing the low nibble of a word of format XYN. -/
theorem encodeXYN_and_high (f : BitVec 4) (x y : Reg) (n : Fin 16) :
    encodeXYN f x y n &&& 0xFFF0#16 = encodeXYN f x y 0 := by
  have hmask : ∀ i < 16, (0xFFF0#16).getLsbD i = decide (4 ≤ i) := by decide
  have hzero : (⟨0⟩ : BitVec 4) = 0#4 := rfl
  refine BitVec.eq_of_getLsbD_eq fun i hi => ?_
  simp only [encodeXYN, BitVec.getLsbD_and, BitVec.getLsbD_append, hmask i hi, hzero]
  by_cases h : i < 4
  · simp [h, show ¬ 4 ≤ i by omega]
  · simp [h, show 4 ≤ i by omega]

/-- The word that the encoder gives back: the low nibble that families 5 and 9 ignore is 0 (R99). -/
def canonicalWord (op : Word) : Word :=
  if op.family = 0x5#4 ∨ op.family = 0x9#4 then op &&& 0xFFF0#16 else op

/-- An instruction is well formed and has the canonical word. -/
def Recodes (c : Config) (op : Word) : Decoded → Prop
  | .known i => i.WellFormed c = true ∧ encode i = canonicalWord op
  | .unknown _ => True

theorem canonicalWord_of_family {f : BitVec 4} (hf : op.family = f) (h5 : f ≠ 0x5#4) (h9 : f ≠ 0x9#4) :
    canonicalWord op = op :=
  if_neg (by rw [hf]; exact not_or.mpr ⟨h5, h9⟩)

theorem decodeFamily0_recodes (hf : op.family = 0x0#4) : Recodes c op (decodeFamily0 c op) := by
  have hword : canonicalWord op = encodeNNN 0x0#4 op.nnn := by
    rw [encodeNNN_of_family hf, canonicalWord_of_family hf (by decide) (by decide)]
  unfold decodeFamily0
  split
  next hcls => exact ⟨rfl, by rw [hword, hcls]; rfl⟩
  next hcls =>
    split
    next hret => exact ⟨rfl, by rw [hword, hret]; rfl⟩
    next hret =>
      cases hpolicy : c.sysPolicy with
      | noop => exact ⟨by simp [Instr.WellFormed, hpolicy, hcls, hret], hword.symm⟩
      | fault => trivial

/-- Families 5 and 9 decode to an instruction with the nibble 0, or not at all (R99). -/
theorem decodeStrict_recodes {f : BitVec 4} {i : Instr} (hf : op.family = f) (hbits : f = 0x5#4 ∨ f = 0x9#4)
    (hwf : i.WellFormed c = true) (hword : encode i = encodeXYN f op.x op.y 0) :
    Recodes c op (decodeStrict c op i) := by
  unfold decodeStrict
  split
  next => trivial
  next =>
    refine ⟨hwf, ?_⟩
    rw [hword, canonicalWord, if_pos (by rwa [hf]), ← encodeXYN_and_high f op.x op.y op.n, ← hf, encodeXYN_fields]

theorem decodeFamily8_recodes (hf : op.family = 0x8#4) : Recodes c op (decodeFamily8 op) := by
  have hword : canonicalWord op = op := canonicalWord_of_family hf (by decide) (by decide)
  unfold decodeFamily8
  split
  case h_10 => trivial
  all_goals exact ⟨rfl, (encodeXYN_of_family_low hf ‹_›).trans hword.symm⟩

theorem decodeFamilyE_recodes (hf : op.family = 0xE#4) : Recodes c op (decodeFamilyE op) := by
  have hword : canonicalWord op = op := canonicalWord_of_family hf (by decide) (by decide)
  unfold decodeFamilyE
  split
  case h_3 => trivial
  all_goals exact ⟨rfl, (encodeXKK_of_family_kk hf ‹_›).trans hword.symm⟩

theorem decodeFamilyF_recodes (hf : op.family = 0xF#4) : Recodes c op (decodeFamilyF op) := by
  have hword : canonicalWord op = op := canonicalWord_of_family hf (by decide) (by decide)
  unfold decodeFamilyF
  split
  case h_10 => trivial
  all_goals exact ⟨rfl, (encodeXKK_of_family_kk hf ‹_›).trans hword.symm⟩

/-- A family that the dispatcher sends to its last arm is F: it is none of the other fifteen (R94). -/
theorem family_eq_F {f : BitVec 4} (h : f ∉ [0x0#4, 0x1#4, 0x2#4, 0x3#4, 0x4#4, 0x5#4, 0x6#4, 0x7#4, 0x8#4, 0x9#4,
    0xA#4, 0xB#4, 0xC#4, 0xD#4, 0xE#4]) : f = 0xF#4 := by
  revert f
  decide

theorem decode_recodes (c : Config) (op : Word) : Recodes c op (decode c op) := by
  unfold decode
  split
  case h_1 hf => exact decodeFamily0_recodes hf
  case h_2 hf | h_3 hf | h_11 hf | h_12 hf =>
    exact ⟨rfl, (encodeNNN_of_family hf).trans (canonicalWord_of_family hf (by decide) (by decide)).symm⟩
  case h_4 hf | h_5 hf | h_7 hf | h_8 hf | h_13 hf =>
    exact ⟨rfl, (encodeXKK_of_family_kk hf rfl).trans (canonicalWord_of_family hf (by decide) (by decide)).symm⟩
  case h_6 hf => exact decodeStrict_recodes hf (.inl rfl) rfl rfl
  case h_9 hf => exact decodeFamily8_recodes hf
  case h_10 hf => exact decodeStrict_recodes hf (.inr rfl) rfl rfl
  case h_14 hf =>
    exact ⟨rfl, (encodeXYN_of_family_low hf rfl).trans (canonicalWord_of_family hf (by decide) (by decide)).symm⟩
  case h_15 hf => exact decodeFamilyE_recodes hf
  case h_16 => exact decodeFamilyF_recodes (family_eq_F (by simp; tauto))

/-- Settles O2: every arm of the decoder keeps the fields its instruction's word is made of. -/
theorem encodeOfDecodeIsTheWord : Obligations.EncodeOfDecodeIsTheWord := by
  intro c op i h
  have hrecodes := decode_recodes c op
  rwa [h] at hrecodes

/-! ## The unknown opcodes of the default configuration (R100) -/

theorem decodeFamily0_ne_unknown {w : Word} (hnoop : c.sysPolicy = .noop) : decodeFamily0 c op ≠ .unknown w := by
  unfold decodeFamily0
  rw [hnoop]
  split
  next => simp
  next => split <;> simp

theorem decodeStrict_ne_unknown {w : Word} {i : Instr} (hlax : c.strict59 = false) :
    decodeStrict c op i ≠ .unknown w := by
  simp [decodeStrict, hlax]

theorem decodeFamily8_eq_unknown : decodeFamily8 op = .unknown op ↔
    op.low ∉ [0x0#4, 0x1#4, 0x2#4, 0x3#4, 0x4#4, 0x5#4, 0x6#4, 0x7#4, 0xE#4] := by
  unfold decodeFamily8
  split
  case h_10 => exact iff_of_true rfl (by simp; tauto)
  all_goals simp [*]

theorem decodeFamilyE_eq_unknown : decodeFamilyE op = .unknown op ↔ op.kk ∉ [0x9E#8, 0xA1#8] := by
  unfold decodeFamilyE
  split
  case h_3 => exact iff_of_true rfl (by simp; tauto)
  all_goals simp [*]

theorem decodeFamilyF_eq_unknown : decodeFamilyF op = .unknown op ↔
    op.kk ∉ [0x07#8, 0x0A#8, 0x15#8, 0x18#8, 0x1E#8, 0x29#8, 0x33#8, 0x55#8, 0x65#8] := by
  unfold decodeFamilyF
  split
  case h_10 => exact iff_of_true rfl (by simp; tauto)
  all_goals simp [*]

/-- The low nibbles that are no sub-operation of family 8 (R95). -/
theorem not_mem_subOperations : ∀ l : BitVec 4,
    l ∉ [0x0#4, 0x1#4, 0x2#4, 0x3#4, 0x4#4, 0x5#4, 0x6#4, 0x7#4, 0xE#4] ↔
      l ∈ [0x8#4, 0x9#4, 0xA#4, 0xB#4, 0xC#4, 0xD#4, 0xF#4] := by decide

/-- Settles O4: under the defaults only families 8, E and F have words that are no instruction. -/
theorem unknownOpcodesOfTheDefaults : Obligations.UnknownOpcodesOfTheDefaults := by
  intro op
  unfold decode
  split
  case h_1 hf => exact iff_of_false (decodeFamily0_ne_unknown rfl) (by simp [hf])
  case h_6 hf | h_10 hf => exact iff_of_false (decodeStrict_ne_unknown rfl) (by simp [hf])
  case h_9 hf => rw [decodeFamily8_eq_unknown, not_mem_subOperations, hf]; simp
  case h_15 hf => rw [decodeFamilyE_eq_unknown, hf]; simp
  case h_16 =>
    have hf : op.family = 0xF#4 := family_eq_F (by simp; tauto)
    rw [decodeFamilyF_eq_unknown, hf]
    simp
  all_goals exact iff_of_false (by simp) (by simp [*])

/-- Settles O5: the seven words, decoded. -/
theorem sampleWordsDecode : Obligations.SampleWordsDecode := by
  unfold Obligations.SampleWordsDecode
  decide

end Sys2Proof.Proofs

/-! What an instruction may write, once for all instructions: a footprint for each, and the principle that a property
of states kept by every operation of an instruction is kept by the instruction. The frames (O25 to O30) are one use
of the principle; VF (O24) and the picture (O57) follow from the frames. -/

namespace Sys2Proof.Proofs

open Sys2Proof.Machine Sys2Proof.Safety

/-- What each instruction, begun in a state, may write beside PC and STATUS (R75). -/
def footprint (s : State) : Instr → Footprint
  | .sys _ | .seImm _ _ | .sneImm _ _ | .seReg _ _ | .sneReg _ _ | .skp _ | .sknp _ | .ldVxK _ => writesNothing
  | .jp _ | .jpV0 _ => { exit := true }
  | .call _ => { sp := true, memStart := s.sp, memLen := 2 }
  | .ret => { sp := true }
  | .ldImm x _ | .addImm x _ | .ldReg x _ | .rnd x _ | .ldVxDt x => { regs := [x] }
  | .addReg x _ | .subReg x _ | .subn x _ | .shr x _ | .shl x _ => { regs := [x, 0xF] }
  | .orReg x _ | .andReg x _ | .xorReg x _ => { regs := if s.cfg.logicVfReset = true then [x, 0xF] else [x] }
  | .ldI _ | .addI _ | .ldFont _ => { i := true }
  | .ldDtVx _ => { dt := true }
  | .ldStVx _ => { st := true }
  | .ldB _ => { memStart := s.i, memLen := 3 }
  | .ldMemVx x => { i := s.cfg.blockIncrementsI, memStart := s.i, memLen := x.val + 1 }
  | .ldVxMem x =>
    { regs := (List.finRange 16).filter (fun k => decide (k.val ≤ x.val)), i := s.cfg.blockIncrementsI }
  | .drw _ _ _ => pictureFootprint [0xF] s
  | .cls => pictureFootprint [] s

@[simp] theorem pictureFootprint_regs (regs : List Reg) (s : State) : (pictureFootprint regs s).regs = regs := by
  rw [pictureFootprint]
  split <;> rfl

@[simp] theorem pictureFootprint_i (regs : List Reg) (s : State) : (pictureFootprint regs s).i = false := by
  rw [pictureFootprint]
  split <;> rfl

@[simp] theorem pictureFootprint_exit (regs : List Reg) (s : State) : (pictureFootprint regs s).exit = false := by
  rw [pictureFootprint]
  split <;> rfl

/-! ## A property kept by every operation of an instruction -/

/-- Everything that the instruction `i`, begun in `s`, may do to a state keeps the property `P`: a cursor is set
inside its range, SP by one entry, a timer at the execution instant, a byte inside the address space. -/
structure KeptBy (i : Instr) (s : State) (P : State → Prop) : Prop where
  cfg : ∀ {t}, P t → t.cfg = s.cfg
  fault : ∀ (e : Fatal) {t}, P t → P (t.faultedWith e)
  pc : ∀ {a t}, cursorInRange t.cfg .pc a = true → P t → P (t.putCursor .pc a)
  sp : (footprint s i).sp = true → ∀ {a t}, cursorInRange t.cfg .sp a = true → (a = t.sp + 2 ∨ t.sp = a + 2) →
    P t → P (t.putCursor .sp a)
  index : (footprint s i).i = true → ∀ {a t}, cursorInRange t.cfg .i a = true → P t → P (t.putCursor .i a)
  reg : ∀ {x}, x ∈ (footprint s i).regs → ∀ (b : Byte) {t}, P t → P (t.setV x b)
  mem : ∀ {a}, (footprint s i).memStart ≤ a → a < (footprint s i).memStart + (footprint s i).memLen →
    a < memEnd → ∀ (b : Byte) {t}, P t → P (t.writeMem a b)
  exit : (footprint s i).exit = true → ∀ (b : Bool) {t}, P t → P (exitWhen b t)
  dt : (footprint s i).dt = true → ∀ (b : Byte) {t}, P t → P { t with dt := Timer.set b t.env.current.tExec }
  st : (footprint s i).st = true → ∀ (b : Byte) {t}, P t → P { t with st := Timer.set b t.env.current.tExec }
  draw : (∃ x y n, i = .drw x y n) → ∀ {px py t}, px < displayW → py < displayH →
    P t → P (t.flipPixel px py)
  clear : i = .cls → ∀ {t}, P t → P (clearDisplay t)

/-- A run through a rule ends, completed or stopped, in a state with the property. -/
def Ends (P : State → Prop) : Flow → Prop
  | .go t => P t
  | .fatal t => P t

/-- An answer is a next state with the property. -/
def Answers (P : State → Prop) (r : Outcome) : Prop := ∃ t, r = .next t ∧ P t

theorem Ends.andThen {P : State → Prop} {r : Flow} {k : State → Flow} (hr : Ends P r)
    (hk : ∀ t, P t → Ends P (k t)) : Ends P (r.andThen k) := by
  cases r with
  | go t => exact hk t hr
  | fatal t => exact hr

theorem Ends.finish {P : State → Prop} {r : Flow} (hr : Ends P r) : Answers P r.finish := by
  cases r with
  | go t => exact ⟨t, rfl, hr⟩
  | fatal t => exact ⟨t, rfl, hr⟩

section

variable {i : Instr} {s t : State} {P : State → Prop} (hP : KeptBy i s P)

include hP

theorem KeptBy.raiseFatal (e : Fatal) (ht : P t) : Ends P (raiseFatal e t) := hP.fault e ht

theorem KeptBy.cursorSet_pc (ipc a : Nat) (ht : P t) : Ends P (cursorSet ipc .pc a t) := by
  obtain ⟨hin, hset⟩ | ⟨-, hset⟩ := cursorSet_cases ipc .pc a t
  · rw [hset]; exact hP.pc hin ht
  · rw [hset]; exact hP.fault _ ht

theorem KeptBy.cursorAdvance_pc (ipc : Nat) (ht : P t) : Ends P (cursorAdvance ipc .pc t) :=
  hP.cursorSet_pc ipc _ ht

theorem KeptBy.advancePc (ht : P t) : Ends P (advancePc t) := hP.cursorSet_pc _ _ ht

theorem KeptBy.cursorSet_i (hi : (footprint s i).i = true) (ipc a : Nat) (ht : P t) :
    Ends P (cursorSet ipc .i a t) := by
  obtain ⟨hin, hset⟩ | ⟨-, hset⟩ := cursorSet_cases ipc .i a t
  · rw [hset]; exact hP.index hi hin ht
  · rw [hset]; exact hP.fault _ ht

theorem KeptBy.cursorAdvance_sp (hsp : (footprint s i).sp = true) (ipc : Nat) (ht : P t) :
    Ends P (cursorAdvance ipc .sp t) := by
  obtain ⟨hin, hset⟩ | ⟨-, hset⟩ := cursorSet_cases ipc .sp (t.sp + 2) t
  · rw [show cursorAdvance ipc .sp t = _ from hset]; exact hP.sp hsp hin (.inl rfl) ht
  · rw [show cursorAdvance ipc .sp t = _ from hset]; exact hP.fault _ ht

theorem KeptBy.cursorRetreat_sp (hsp : (footprint s i).sp = true) (ipc : Nat) (ht : P t) :
    Ends P (cursorRetreat ipc .sp t) := by
  obtain ⟨a, hbelow, hin, hset⟩ | hset := cursorRetreat_cases ipc .sp t
  · rw [hset]; exact hP.sp hsp hin (.inr hbelow) ht
  · rw [hset]; exact hP.fault _ ht

theorem KeptBy.skipWhen (cond : Bool) (ht : P t) : Ends P (skipWhen cond t) := by
  cases cond with
  | true => exact (hP.cursorAdvance_pc _ ht).andThen fun _ hu => hP.cursorAdvance_pc _ hu
  | false => exact hP.cursorAdvance_pc _ ht

theorem KeptBy.storeBytes (ipc : Nat) {a : Nat} {bytes : List Byte} (ha : (footprint s i).memStart ≤ a)
    (hlen : a + bytes.length ≤ (footprint s i).memStart + (footprint s i).memLen) (ht : P t) :
    Ends P (storeBytes ipc a bytes t) := by
  induction bytes generalizing a t with
  | nil => exact ht
  | cons b bytes ih =>
    rw [List.length_cons] at hlen
    have hfirst : Ends P (storeByte ipc a b t) := by
      by_cases hin : a < memEnd
      · rw [storeByte_go hin]; exact hP.mem ha (by omega) hin b ht
      · rw [storeByte_fatal hin]; exact hP.fault _ ht
    exact hfirst.andThen fun _ hu => ih (by omega) (by omega) hu

theorem KeptBy.loadRegs (ipc : Nat) {ks : List Reg} (hks : ∀ k ∈ ks, k ∈ (footprint s i).regs) (ht : P t) :
    Ends P (loadRegs ipc ks t) := by
  induction ks generalizing t with
  | nil => exact ht
  | cons k ks ih =>
    obtain ⟨hk, hrest⟩ := List.forall_mem_cons.mp hks
    rw [Machine.loadRegs]
    cases loadByte ipc (t.i + k.val) t with
    | error e => exact hP.fault e ht
    | ok b => exact ih hrest (hP.reg hk b ht)

theorem KeptBy.blockIncrement (x : Reg) (hi : (footprint s i).i = s.cfg.blockIncrementsI) (ht : P t) :
    Ends P (blockIncrement x t) := by
  rw [Machine.blockIncrement, hP.cfg ht, ← hi]
  split
  next hflag => exact hP.cursorSet_i hflag _ _ ht
  next => exact ht

theorem KeptBy.popPc (ipc : Nat) (ht : P t) : Ends P (popPc ipc t) := by
  rw [Machine.popPc]
  cases loadByte ipc t.sp t with
  | error e => exact hP.fault e ht
  | ok hi =>
    cases loadByte ipc (t.sp + 1) t with
    | error e => exact hP.fault e ht
    | ok lo => exact (hP.cursorSet_pc _ _ ht).andThen fun _ hu => hP.cursorAdvance_pc _ hu

theorem KeptBy.writeLogicResult {x : Reg} (b : Byte)
    (hregs : (footprint s i).regs = if s.cfg.logicVfReset = true then [x, 0xF] else [x]) (ht : P t) :
    P (writeLogicResult x b t) := by
  rw [Machine.writeLogicResult, hP.cfg ht]
  split
  next hreset =>
    rw [if_pos hreset] at hregs
    exact hP.reg (by simp [hregs]) _ (hP.reg (by simp [hregs]) _ ht)
  next hkeep =>
    rw [if_neg hkeep] at hregs
    exact hP.reg (by simp [hregs]) _ ht

theorem KeptBy.writeResultAndFlag {x : Reg} (b flag : Byte) (hregs : (footprint s i).regs = [x, 0xF])
    (ht : P t) : P (writeResultAndFlag x b flag t) :=
  hP.reg (by simp [hregs]) _ (hP.reg (by simp [hregs]) _ ht)

theorem KeptBy.blit (hi : ∃ x y n, i = .drw x y n) {ps : List (Nat × Nat)}
    (hps : ∀ p ∈ ps, p.1 < displayW ∧ p.2 < displayH) (ht : P t) : P (blit ps t).2 := by
  induction ps generalizing t with
  | nil => exact ht
  | cons p ps ih =>
    obtain ⟨⟨hx, hy⟩, hrest⟩ := List.forall_mem_cons.mp hps
    exact ih hrest (hP.draw hi hx hy ht)

end

/-- A property kept by every operation of an instruction is kept by the instruction, whether it completes or a fatal
error ends it. -/
theorem exec_answers {i : Instr} {s : State} {P : State → Prop} (hP : KeptBy i s P) (hs : P s) :
    Answers P (exec i s) := by
  cases i with
  | sys nnn =>
    rw [exec, execSys]
    split
    · exact (hP.advancePc hs).finish
    · exact (hP.raiseFatal _ hs).finish
  | cls => exact (hP.advancePc (hP.clear rfl hs)).finish
  | ret => exact ((hP.cursorRetreat_sp rfl _ hs).andThen fun _ ht => hP.popPc _ ht).finish
  | jp | jpV0 => exact (hP.cursorSet_pc _ _ (hP.exit rfl _ hs)).finish
  | call nnn =>
    exact (((hP.storeBytes _ le_rfl le_rfl hs).andThen fun _ ht => hP.cursorAdvance_sp rfl _ ht).andThen
      fun _ ht => hP.cursorSet_pc _ _ ht).finish
  | seImm | sneImm | seReg | sneReg => exact (hP.skipWhen _ hs).finish
  | ldImm | addImm | ldReg | rnd | ldVxDt => exact (hP.advancePc (hP.reg List.mem_cons_self _ hs)).finish
  | orReg | andReg | xorReg => exact (hP.advancePc (hP.writeLogicResult _ rfl hs)).finish
  | addReg | subReg | shr | subn | shl => exact (hP.advancePc (hP.writeResultAndFlag _ _ rfl hs)).finish
  | skp | sknp | ldVxK => exact (hP.advancePc hs).finish
  | ldI | addI => exact ((hP.cursorSet_i rfl _ _ hs).andThen fun _ ht => hP.advancePc ht).finish
  | ldFont x =>
    rw [exec, execLdFont]
    split
    · exact (hP.raiseFatal _ hs).finish
    · exact ((hP.cursorSet_i rfl _ _ hs).andThen fun _ ht => hP.advancePc ht).finish
  | ldDtVx x => exact (hP.advancePc (hP.dt rfl _ hs)).finish
  | ldStVx x => exact (hP.advancePc (hP.st rfl _ hs)).finish
  | ldB x => exact ((hP.storeBytes _ le_rfl le_rfl hs).andThen fun _ ht => hP.advancePc ht).finish
  | ldMemVx x =>
    have hlen : s.i + ((regsUpTo x).map s.getV).length ≤ s.i + (x.val + 1) := by
      rw [List.length_map, length_regsUpTo]
    exact (((hP.storeBytes _ le_rfl hlen hs).andThen fun _ ht => hP.blockIncrement x rfl ht).andThen
      fun _ ht => hP.advancePc ht).finish
  | ldVxMem x =>
    have hregs : ∀ k ∈ regsUpTo x, k ∈ (footprint s (.ldVxMem x)).regs := fun k hk => by
      simpa [footprint] using hk
    exact (((hP.loadRegs _ hregs hs).andThen fun _ ht => hP.blockIncrement x rfl ht).andThen
      fun _ ht => hP.advancePc ht).finish
  | drw x y n =>
    rw [exec, execDrw]
    split
    · exact (hP.raiseFatal _ hs).finish
    · have hflag : flagReg ∈ (footprint s (.drw x y n)).regs := by
        rw [footprint, pictureFootprint_regs]
        exact List.mem_cons_self
      exact (hP.advancePc (hP.reg hflag _ (hP.blit ⟨x, y, n, rfl⟩ (fun _ => mem_spritePixels) hs))).finish

/-- So the next state it answers has the property. -/
theorem exec_keeps {i : Instr} {s t : State} {P : State → Prop} (hP : KeptBy i s P) (hs : P s)
    (h : exec i s = .next t) : P t := by
  obtain ⟨u, hu, hPu⟩ := exec_answers hP hs
  obtain rfl : u = t := by simpa using hu.symm.trans h
  exact hPu

end Sys2Proof.Proofs

/-! The frames (O25 to O30): every instruction respects its footprint. One lemma per update of the state, then one
for all instructions. -/

namespace Sys2Proof.Proofs

open Sys2Proof.Machine Sys2Proof.Safety

/-! ## The display operations in each mode (R39, R231, R241) -/

section

variable {s : State}

theorem pixel_inline (hmode : s.cfg.displayMode = .inline) (px py : Nat) :
    s.pixel px py = (s.readMem (pixelByte s.cfg px py)).getLsbD (pixelBit px) := by
  simp only [State.pixel, hmode]

theorem pixel_external (hmode : s.cfg.displayMode = .external) (px py : Nat) :
    s.pixel px py = s.fb.getLsbD (pixelIndex px py) := by
  simp only [State.pixel, hmode]

theorem flipPixel_inline (hmode : s.cfg.displayMode = .inline) (px py : Nat) :
    s.flipPixel px py =
      s.writeMem (pixelByte s.cfg px py) (s.readMem (pixelByte s.cfg px py) ^^^ (1#8 <<< pixelBit px)) := by
  simp only [State.flipPixel, hmode]

theorem flipPixel_external (hmode : s.cfg.displayMode = .external) (px py : Nat) :
    s.flipPixel px py = { s with fb := s.fb ^^^ (1#2048 <<< pixelIndex px py) } := by
  simp only [State.flipPixel, hmode]

theorem clearDisplay_inline (hmode : s.cfg.displayMode = .inline) :
    clearDisplay s = { s with mem := s.mem.writeRange s.cfg s.cfg.displayStart blankFramebuffer } := by
  simp only [clearDisplay, hmode]

theorem clearDisplay_external (hmode : s.cfg.displayMode = .external) :
    clearDisplay s = { s with fb := 0#2048 } := by
  simp only [clearDisplay, hmode]

end

/-! ## The updates of a state -/

section

variable {f : Footprint} {s t : State} (h : f.Respected s t)

theorem respected_refl (f : Footprint) (s : State) : f.Respected s s :=
  ⟨fun _ _ => rfl, fun _ => rfl, fun _ => rfl, fun _ => rfl, fun _ => rfl, fun _ => rfl, fun _ => rfl,
    fun _ _ => rfl, .inl rfl, rfl, rfl⟩

include h

theorem respected_faultedWith (e : Fatal) : f.Respected s (t.faultedWith e) := by
  obtain ⟨hreg, hsp, hi, hdt, hst, hexit, hfb, hmem, -, hcfg, henv⟩ := h
  exact ⟨hreg, hsp, hi, hdt, hst, hexit, hfb, hmem, .inr ⟨e, rfl⟩, hcfg, henv⟩

theorem respected_putCursor_pc (a : Nat) : f.Respected s (t.putCursor .pc a) := h

theorem respected_putCursor_sp (hwrites : f.sp = true) (a : Nat) : f.Respected s (t.putCursor .sp a) := by
  obtain ⟨hreg, -, hrest⟩ := h
  exact ⟨hreg, fun hkeep => absurd (hwrites.symm.trans hkeep) (by decide), hrest⟩

theorem respected_putCursor_i (hwrites : f.i = true) (a : Nat) : f.Respected s (t.putCursor .i a) := by
  obtain ⟨hreg, hsp, -, hrest⟩ := h
  exact ⟨hreg, hsp, fun hkeep => absurd (hwrites.symm.trans hkeep) (by decide), hrest⟩

theorem respected_setV {x : Reg} (hx : x ∈ f.regs) (b : Byte) : f.Respected s (t.setV x b) := by
  obtain ⟨hreg, hrest⟩ := h
  exact ⟨fun r hr => (getV_setV_other x r b t fun he => hr (he ▸ hx)).trans (hreg r hr), hrest⟩

/-- A change of memory inside the footprint's range. -/
theorem respected_mem {m : Memory}
    (hm : ∀ a, a < f.memStart ∨ f.memStart + f.memLen ≤ a → m.read t.cfg a = t.readMem a) :
    f.Respected s { t with mem := m } := by
  obtain ⟨hreg, hsp, hi, hdt, hst, hexit, hfb, hmem, hrest⟩ := h
  exact ⟨hreg, hsp, hi, hdt, hst, hexit, hfb, fun a ha => (hm a ha).trans (hmem a ha), hrest⟩

theorem respected_writeMem {a : Nat} (hlow : f.memStart ≤ a) (hhigh : a < f.memStart + f.memLen) (b : Byte) :
    f.Respected s (t.writeMem a b) :=
  respected_mem h fun _ hother => Memory.read_write_other (by omega)

theorem respected_exitWhen (hwrites : f.exit = true) (b : Bool) : f.Respected s (exitWhen b t) := by
  cases b with
  | false => exact h
  | true =>
    obtain ⟨hreg, hsp, hi, hdt, hst, -, hrest⟩ := h
    exact ⟨hreg, hsp, hi, hdt, hst, fun hkeep => absurd (hwrites.symm.trans hkeep) (by decide), hrest⟩

theorem respected_dt (hwrites : f.dt = true) (T : Timer) : f.Respected s { t with dt := T } := by
  obtain ⟨hreg, hsp, hi, -, hrest⟩ := h
  exact ⟨hreg, hsp, hi, fun hkeep => absurd (hwrites.symm.trans hkeep) (by decide), hrest⟩

theorem respected_st (hwrites : f.st = true) (T : Timer) : f.Respected s { t with st := T } := by
  obtain ⟨hreg, hsp, hi, hdt, -, hrest⟩ := h
  exact ⟨hreg, hsp, hi, hdt, fun hkeep => absurd (hwrites.symm.trans hkeep) (by decide), hrest⟩

theorem respected_fb (hwrites : f.plane = true) (plane : BitVec 2048) : f.Respected s { t with fb := plane } := by
  obtain ⟨hreg, hsp, hi, hdt, hst, hexit, -, hrest⟩ := h
  exact ⟨hreg, hsp, hi, hdt, hst, hexit, fun hkeep => absurd (hwrites.symm.trans hkeep) (by decide), hrest⟩

theorem cfg_of_respected : t.cfg = s.cfg := by
  obtain ⟨-, -, -, -, -, -, -, -, -, hcfg, -⟩ := h
  exact hcfg

end

section

variable {s t : State} {regs : List Reg}

/-- In inline mode the picture is the framebuffer (R39). -/
theorem pictureFootprint_inline (hmode : s.cfg.displayMode = .inline) :
    pictureFootprint regs s = { regs := regs, memStart := s.cfg.displayStart, memLen := framebufferBytes } := by
  simp only [pictureFootprint, hmode]

/-- In external mode it is the bit plane (R38). -/
theorem pictureFootprint_external (hmode : s.cfg.displayMode = .external) :
    pictureFootprint regs s = { regs := regs, plane := true } := by
  simp only [pictureFootprint, hmode]

variable (h : (pictureFootprint regs s).Respected s t)

include h

theorem respected_flipPixel {px py : Nat} (hx : px < displayW) (hy : py < displayH) :
    (pictureFootprint regs s).Respected s (t.flipPixel px py) := by
  have hcfg := cfg_of_respected h
  cases hmode : t.cfg.displayMode with
  | inline =>
    obtain ⟨hlow, hhigh⟩ := pixelByte_lt t.cfg hx hy
    rw [flipPixel_inline hmode]
    rw [hcfg] at hmode hlow hhigh
    rw [pictureFootprint_inline hmode] at h ⊢
    rw [hcfg]
    exact respected_writeMem h hlow hhigh _
  | external =>
    rw [flipPixel_external hmode]
    rw [hcfg] at hmode
    rw [pictureFootprint_external hmode] at h ⊢
    exact respected_fb h rfl _

theorem respected_clearDisplay : (pictureFootprint regs s).Respected s (clearDisplay t) := by
  have hcfg := cfg_of_respected h
  cases hmode : t.cfg.displayMode with
  | inline =>
    rw [clearDisplay_inline hmode]
    rw [hcfg] at hmode
    rw [pictureFootprint_inline hmode] at h ⊢
    refine respected_mem h fun a ha => ?_
    simp only [framebufferBytes] at ha
    rw [Memory.read_writeRange, length_blankFramebuffer, hcfg, if_neg (by omega), State.readMem, hcfg]
  | external =>
    rw [clearDisplay_external hmode]
    rw [hcfg] at hmode
    rw [pictureFootprint_external hmode] at h ⊢
    exact respected_fb h rfl _

end

/-- To respect its footprint is kept by every operation of an instruction. -/
theorem respected_keptBy (i : Instr) (s : State) : KeptBy i s ((footprint s i).Respected s) where
  cfg := cfg_of_respected
  fault e _ h := respected_faultedWith h e
  pc _ h := respected_putCursor_pc h _
  sp hwrites _ _ _ _ h := respected_putCursor_sp h hwrites _
  index hwrites _ _ _ h := respected_putCursor_i h hwrites _
  reg hx b _ h := respected_setV h hx b
  mem hlow hhigh _ b _ h := respected_writeMem h hlow hhigh b
  exit hwrites b _ h := respected_exitWhen h hwrites b
  dt hwrites _ _ h := respected_dt h hwrites _
  st hwrites _ _ h := respected_st h hwrites _
  draw hi _ _ _ hx hy h := by
    obtain ⟨x, y, n, rfl⟩ := hi
    exact respected_flipPixel h hx hy
  clear hi _ h := by
    subst hi
    exact respected_clearDisplay h

/-- An instruction writes at most its footprint. -/
theorem footprint_respected {i : Instr} {s t : State} (h : exec i s = .next t) :
    (footprint s i).Respected s t :=
  exec_keeps (respected_keptBy i s) (respected_refl _ s) h

/-- The form of the statements: a footprint that is the instruction's. -/
theorem writesOnly_of_footprint {i : Instr} {f : State → Footprint} (hf : ∀ s, footprint s i = f s) :
    WritesOnly i f := by
  intro s t h
  rw [← hf]
  exact footprint_respected h

/-- Settles O25: the three footprints of the register instructions. -/
theorem registerInstructionsWriteOnlyVxAndVF : Obligations.RegisterInstructionsWriteOnlyVxAndVF := by
  intro x y kk
  refine ⟨fun i hi => ?_, fun i hi => ?_, fun i hi => ?_⟩
  all_goals
    refine writesOnly_of_footprint fun s => ?_
    simp only [List.mem_cons, List.not_mem_nil, or_false] at hi
  · obtain rfl | rfl | rfl | rfl | rfl := hi <;> rfl
  · obtain rfl | rfl | rfl | rfl | rfl := hi <;> rfl
  · obtain rfl | rfl | rfl := hi <;> rfl

/-- Settles O26: the empty footprint, and that of a jump. -/
theorem skipsAndJumpsWriteOnlyPC : Obligations.SkipsAndJumpsWriteOnlyPC := by
  intro x y kk nnn
  refine ⟨fun i hi => ?_, fun i hi => ?_⟩
  all_goals
    refine writesOnly_of_footprint fun s => ?_
    simp only [List.mem_cons, List.not_mem_nil, or_false] at hi
  · obtain rfl | rfl | rfl | rfl | rfl | rfl | rfl | rfl := hi <;> rfl
  · obtain rfl | rfl := hi <;> rfl

/-- Settles O27: the footprints of the index instructions and of the timer sets. -/
theorem indexAndTimerSetsWriteOnlyTheirs : Obligations.IndexAndTimerSetsWriteOnlyTheirs := by
  intro x nnn
  refine ⟨fun i hi => writesOnly_of_footprint fun s => ?_, writesOnly_of_footprint fun _ => rfl,
    writesOnly_of_footprint fun _ => rfl⟩
  simp only [List.mem_cons, List.not_mem_nil, or_false] at hi
  obtain rfl | rfl | rfl := hi <;> rfl

/-- Settles O28: the footprints of `CALL` and `RET`. -/
theorem callAndReturnWriteOnlySPAndTheEntry : Obligations.CallAndReturnWriteOnlySPAndTheEntry :=
  ⟨fun _ => writesOnly_of_footprint fun _ => rfl, writesOnly_of_footprint fun _ => rfl⟩

/-- Settles O29: the footprints of BCD and the block transfers. -/
theorem blockTransfersWriteOnlyTheirRange : Obligations.BlockTransfersWriteOnlyTheirRange := fun _ =>
  ⟨writesOnly_of_footprint fun _ => rfl, writesOnly_of_footprint fun _ => rfl,
    writesOnly_of_footprint fun _ => rfl⟩

/-- Settles O30: the footprints of `DRW` and `CLS`. -/
theorem displayInstructionsWriteOnlyThePicture : Obligations.DisplayInstructionsWriteOnlyThePicture :=
  ⟨fun _ _ _ => writesOnly_of_footprint fun _ => rfl, writesOnly_of_footprint fun _ => rfl⟩

/-! ## What follows from the frames -/

/-- VF stands in the footprint of a flag writer or of an instruction that names it as destination (R23). -/
theorem flag_notMem_footprint {i : Instr} {s : State} (hflag : writesFlag s.cfg i = false)
    (hdest : destinationIsFlag i = false) : (0xF : Reg) ∉ (footprint s i).regs := by
  cases i with
  | ldImm | addImm | ldReg | rnd | ldVxDt =>
    simpa [footprint, destinationIsFlag, eq_comm] using hdest
  | orReg | andReg | xorReg =>
    have hkeep : s.cfg.logicVfReset = false := hflag
    simpa [footprint, hkeep, destinationIsFlag, eq_comm] using hdest
  | ldVxMem x =>
    have hx : x ≠ 0xF := by simpa [destinationIsFlag] using hdest
    simp only [footprint, List.mem_filter, decide_eq_true_eq, not_and]
    exact fun _ hle => hx (Fin.ext (by simpa using le_antisymm (Nat.le_of_lt_succ x.isLt) hle))
  | cls =>
    rw [footprint, pictureFootprint_regs]
    exact List.not_mem_nil
  | addReg | subReg | shr | subn | shl | drw => exact absurd hflag (by simp [writesFlag])
  | sys | ret | jp | call | seImm | sneImm | seReg | sneReg | ldI | jpV0 | skp | sknp | ldVxK | ldDtVx | ldStVx
    | addI | ldFont | ldB | ldMemVx => exact List.not_mem_nil

/-- Settles O24: VF is in no other instruction's footprint. -/
theorem onlyFlagWritersChangeVF : Obligations.OnlyFlagWritersChangeVF := by
  intro i s t h hflag hdest
  obtain ⟨hreg, -⟩ := footprint_respected h
  exact hreg 0xF (flag_notMem_footprint hflag hdest)

/-- A pixel is read off the configuration, the framebuffer bytes in inline mode and the plane in external mode. -/
theorem pixel_congr {s t : State} (hcfg : t.cfg = s.cfg) {px py : Nat}
    (hmem : s.cfg.displayMode = .inline → t.readMem (pixelByte s.cfg px py) = s.readMem (pixelByte s.cfg px py))
    (hfb : s.cfg.displayMode = .external → t.fb = s.fb) : t.pixel px py = s.pixel px py := by
  cases hmode : s.cfg.displayMode with
  | inline => rw [pixel_inline (hcfg ▸ hmode), pixel_inline hmode, hcfg, hmem hmode]
  | external => rw [pixel_external (hcfg ▸ hmode), pixel_external hmode, hfb hmode]

/-- The plane is in the footprint of the display instructions only. -/
theorem plane_footprint {i : Instr} {s : State} (hi : mayDraw s.cfg i = false) :
    (footprint s i).plane = false := by
  cases i with
  | drw | cls => exact absurd hi (by simp [mayDraw])
  | _ => rfl

/-- In inline mode the memory that any other than a display instruction or a data store writes is the entry of a
`CALL`, which lies below the framebuffer. -/
theorem memory_footprint_below {i : Instr} {s : State} (hinv : Inv s) (hmode : s.cfg.displayMode = .inline)
    (hi : mayDraw s.cfg i = false) {a : Nat} (ha : s.cfg.displayStart ≤ a) :
    (footprint s i).memStart + (footprint s i).memLen ≤ a := by
  cases i with
  | call nnn =>
    have hsp := hinv.spInRange
    have heven := hinv.spEven
    obtain ⟨-, -, -, -, hdisplay, -⟩ := hinv.valid
    rw [cursorInRange_sp] at hsp
    show s.sp + 2 ≤ a
    omega
  | drw | cls => exact absurd hi (by simp [mayDraw])
  | ldB | ldMemVx => exact absurd hi (by simp [mayDraw, hmode])
  | _ => exact Nat.zero_le a

/-- Settles O57: no other instruction's footprint reaches the picture. -/
theorem onlyDrawClearAndStoresChangeThePicture : Obligations.OnlyDrawClearAndStoresChangeThePicture := by
  intro i s t hinv h hi px py hx hy
  obtain ⟨-, -, -, -, -, -, hfb, hmem, -, hcfg, -⟩ := footprint_respected h
  refine pixel_congr hcfg (fun hmode => hmem _ (.inr ?_)) fun _ => hfb (plane_footprint hi)
  exact memory_footprint_below hinv hmode hi (pixelByte_lt s.cfg hx hy).1

end Sys2Proof.Proofs

/-! The step (O7 to O9, O11, O13, O17, O18, O47) and the invariant (O14 to O16): what holds while an instruction runs
is kept by every operation, and the end of the step turns it back into the invariant. -/

namespace Sys2Proof.Proofs

open Sys2Proof.Machine Sys2Proof.Safety

/-! ## The fetched word and what it leads to -/

/-- A word is the word of its two bytes (R71). -/
theorem wordOfBytes_hiByte_loByte (op : Word) : wordOfBytes op.hiByte op.loByte = op :=
  BitVec.extractLsb'_append_extractLsb'

/-- Settles O7: the two stores of `placeWord` are read back, each at its own address. -/
theorem fetchSeesTheStoredWord : Obligations.FetchSeesTheStoredWord := by
  intro s op h
  have hhi : (placeWord op s).readMem s.pc = op.hiByte := by simp [placeWord]
  have hlo : (placeWord op s).readMem (s.pc + 1) = op.loByte := by simp [placeWord]
  calc fetch (placeWord op s)
      = .ok (wordOfBytes ((placeWord op s).readMem s.pc) ((placeWord op s).readMem (s.pc + 1))) := fetch_ok h
    _ = .ok op := by rw [hhi, hlo, wordOfBytes_hiByte_loByte]

section

variable {s : State} (hpc : s.pc + 1 < memEnd)

include hpc

theorem runInstruction_of_known {i : Instr}
    (h : decodeBytes s.cfg (s.readMem s.pc) (s.readMem (s.pc + 1)) = .known i) :
    runInstruction s = exec i s := by
  rw [decodeBytes] at h
  simp only [runInstruction, fetch_ok hpc, h]

theorem runInstruction_of_unknown {op : Word}
    (h : decodeBytes s.cfg (s.readMem s.pc) (s.readMem (s.pc + 1)) = .unknown op) :
    runInstruction s = .next (s.faultedWith (.unknownOpcode op s.pc)) := by
  rw [decodeBytes] at h
  simp only [runInstruction, fetch_ok hpc, h]
  rfl

end

/-- A step that answers an instruction's state ends with that state's own end of the step. -/
theorem step_of_steppable {s u : State} (hs : Steppable s) (hu : runInstruction s = .next u) :
    step s = .next (endStep u) := by
  obtain ⟨hvalid, hrunning, hcall⟩ := hs
  exact step_of_next hvalid hrunning hcall hu

/-- Settles O8: the two ends of a step, by the STATUS that the instruction left. -/
theorem stepRunsTheDecodedInstruction : Obligations.StepRunsTheDecodedInstruction := by
  intro s u i hs hpc hdecode hexec
  have hstep : step s = .next (endStep u) :=
    step_of_steppable hs ((runInstruction_of_known hpc hdecode).trans hexec)
  refine ⟨fun hrunning => by rw [hstep, endStep_running hrunning], fun hstopped => ?_⟩
  cases hstatus : u.status with
  | running => exact absurd hstatus hstopped
  | faulted e => rw [hstep, endStep_faulted hstatus]

/-- Settles O9: the rejection of a word sets STATUS alone, and a faulted state's step ends without a tick. -/
theorem unknownOpcodeChangesNothingElse : Obligations.UnknownOpcodeChangesNothingElse := by
  intro s op hs hpc hdecode
  refine ⟨eq_of_decode_unknown hdecode, ?_⟩
  rw [step_of_steppable hs (runInstruction_of_unknown hpc hdecode), endStep_faulted (faultedWith_status _ s)]
  rfl

/-- Settles O11: the step of a machine the host may step is the core's step on its inputs, which has an answer. -/
theorem everyStepOfARunningMachineIsTaken : Obligations.EveryStepOfARunningMachineIsTaken := by
  intro s hs
  obtain ⟨t, hstep, -⟩ := step_and_coreStep hs
  exact ⟨t, hstep⟩

/-- Settles O17: a step takes the configuration over and puts the clock at its own tick instant. -/
theorem stepKeepsConfigAndClockOrder : Obligations.StepKeepsConfigAndClockOrder := by
  intro s t h
  obtain ⟨hvalid, hrunning, hcall, -⟩ := step_next h
  obtain ⟨u, hu, -, hcfg, henv⟩ := step_and_coreStep ⟨hvalid, hrunning, hcall⟩
  obtain rfl : u = t := by simpa using hu.symm.trans h
  obtain ⟨hexec, htick⟩ := current_ordered hcall
  exact ⟨hcfg, by rw [henv, consumed_clock]; exact hexec.trans htick⟩

/-- Settles O47: an instruction that reads no input does the same to one core under two hosts. -/
theorem otherInstructionsIgnoreTheInputs : Obligations.OtherInstructionsIgnoreTheInputs := by
  intro i s t e hreads h
  obtain ⟨u, u', hu, hu', m, rfl, rfl⟩ := exec_twins (c := s.cfg) (e := s.env) (e' := e) i s.toCoreState
    fun hr => absurd (hreads.symm.trans hr) (by decide)
  obtain rfl : t = ⟨m, s.cfg, s.env⟩ := by simpa using h.symm.trans hu
  exact hu'

/-! ## EXIT -/

/-- A cursor set leaves EXIT, whether it goes on or stops. -/
theorem exit_of_cursorSet_pc {ipc a : Nat} {s t : State} (h : (cursorSet ipc .pc a s).finish = .next t) :
    t.exit = s.exit := by
  obtain ⟨-, hset⟩ | ⟨-, hset⟩ := cursorSet_cases ipc .pc a s
  all_goals
    rw [hset] at h
    cases h
    rfl

/-- `JP` sets EXIT on a self-jump (R171). -/
theorem exit_of_exec_jp {nnn : Addr12} {s t : State} (h : exec (.jp nnn) s = .next t) :
    t.exit = (s.exit || decide (nnn.toNat = s.pc)) :=
  (exit_of_cursorSet_pc h).trans (exitWhen_exit _ s)

/-- `JP V0` sets EXIT on a self-jump under BNNN_SELF_JUMP_HALTS (R177). -/
theorem exit_of_exec_jpV0 {nnn : Addr12} {s t : State} (h : exec (.jpV0 nnn) s = .next t) :
    t.exit = (s.exit || (s.cfg.bnnnSelfJumpHalts && decide (nnn.toNat + (s.getV 0).toNat = s.pc))) :=
  (exit_of_cursorSet_pc h).trans (exitWhen_exit _ s)

/-- An instruction that is no jump leaves EXIT: it is not in its footprint (R36). -/
theorem exit_of_exec {i : Instr} {s t : State} (h : exec i s = .next t) (hjp : ∀ nnn, i ≠ .jp nnn)
    (hjpV0 : ∀ nnn, i ≠ .jpV0 nnn) : t.exit = s.exit := by
  obtain ⟨-, -, -, -, -, hexit, -⟩ := footprint_respected h
  refine hexit ?_
  cases i with
  | jp nnn => exact absurd rfl (hjp nnn)
  | jpV0 nnn => exact absurd rfl (hjpV0 nnn)
  | drw | cls => exact pictureFootprint_exit _ s
  | _ => rfl

/-- What a step does to EXIT: it keeps a set one, and sets it by the two jumps only. -/
def ExitRule (s t : State) : Prop :=
  (s.exit = true → t.exit = true) ∧
  (s.exit = false → t.exit = true → ∃ op nnn, fetch s = .ok op ∧
    ((decode s.cfg op = .known (.jp nnn) ∧ nnn.toNat = s.pc) ∨
     (decode s.cfg op = .known (.jpV0 nnn) ∧ s.cfg.bnnnSelfJumpHalts = true ∧
       nnn.toNat + (s.getV 0).toNat = s.pc)))

theorem exitRule_of_eq {s t : State} (h : t.exit = s.exit) : ExitRule s t :=
  ⟨fun hset => h.trans hset, fun hclear hset => absurd (hclear.symm.trans (h.symm.trans hset)) (by decide)⟩

theorem exitRule_of_exec {s t : State} {op : Word} {i : Instr} (hfetch : fetch s = .ok op)
    (hdecode : decode s.cfg op = .known i) (h : exec i s = .next t) : ExitRule s t := by
  cases i with
  | jp nnn =>
    have hexit := exit_of_exec_jp h
    refine ⟨fun hset => by simp [hexit, hset], fun hclear hset => ⟨op, nnn, hfetch, .inl ⟨hdecode, ?_⟩⟩⟩
    simpa [hclear, hset] using hexit
  | jpV0 nnn =>
    have hexit := exit_of_exec_jpV0 h
    refine ⟨fun hset => by simp [hexit, hset], fun hclear hset => ⟨op, nnn, hfetch, .inr ⟨hdecode, ?_⟩⟩⟩
    simpa [hclear, hset] using hexit
  | _ => exact exitRule_of_eq (exit_of_exec h (by simp) (by simp))

/-- Settles O18: of the three ways a fetch can end, only a jump sets EXIT, and a rejection leaves it. -/
theorem exitIsSetOnlyBySelfJumpAndStays : Obligations.ExitIsSetOnlyBySelfJumpAndStays := by
  intro s t h
  obtain ⟨-, -, -, u, hu, rfl⟩ := step_next h
  suffices hrule : ExitRule s u by
    rw [ExitRule, ← endStep_exit u] at hrule
    exact hrule
  obtain ⟨op, i, hfetch, hdecode, hrun⟩ | ⟨op, w, -, -, hrun⟩ | ⟨e, -, hrun⟩ := runInstruction_cases s
  · exact exitRule_of_exec hfetch hdecode (hrun.symm.trans hu)
  all_goals
    rw [hrun] at hu
    cases hu
    exact exitRule_of_eq rfl

/-- Settles O13: PC is in its range, so the jump to it completes, with nothing but EXIT, which is set, written. -/
theorem stepAfterExitRepeatsTheJump : Obligations.StepAfterExitRepeatsTheJump := by
  intro s nnn hinv hs hexit hself hdecode
  have hin := hinv.pcInRange
  have hpc : s.pc + 1 < memEnd := by
    obtain ⟨-, hstack, hdisplay, -⟩ := hinv.valid
    rw [cursorInRange_pc] at hin
    omega
  have hjump : exec (.jp nnn) s = .next ((exitWhen (decide (nnn.toNat = s.pc)) s).putCursor .pc nnn.toNat) := by
    have hset := cursorSet_go (ipc := s.pc) (k := .pc) (a := nnn.toNat)
      (s := exitWhen (decide (nnn.toNat = s.pc)) s) (by rw [exitWhen_cfg, hself]; exact hin)
    exact congrArg Flow.finish hset
  refine ⟨_, step_of_steppable hs ((runInstruction_of_known hpc hdecode).trans hjump), ?_⟩
  obtain ⟨-, hrunning, -⟩ := hs
  simp [hself, hexit, hrunning]

/-! ## The invariant -/

/-- Settles O41: the range of I, read off the two cases of INDEX_RANGE. -/
theorem indexRangeLeavesOutTheStack : Obligations.IndexRangeLeavesOutTheStack := by
  intro c a hvalid
  obtain ⟨-, hstack, hdisplay, -⟩ := hvalid
  cases hrange : c.indexRange with
  | union =>
    simp only [cursorInRange, hrange, Bool.or_eq_true, Bool.and_eq_true, decide_eq_true_eq, true_imp_iff]
    omega
  | whole => simp [cursorInRange, hrange]

/-- Settles O15: the cursors start at the ends of their regions, memory is canonical since the image fits the
Program region, and the anchors start at the clock. -/
theorem initMeetsTheInvariant : Obligations.InitMeetsTheInvariant := by
  intro c image t0 s h0 h
  obtain ⟨hvalid, hfits, rfl⟩ := init_next h
  have hbounds := hvalid
  obtain ⟨hprogram, hstack, hdisplay, heven, -⟩ := hbounds
  have hend : programStart + image.length ≤ memEnd := by
    have hsize : image.length ≤ c.stackStart - programStart := hfits
    omega
  exact {
    valid := hvalid
    pcInRange := by rw [cursorInRange_pc]; exact ⟨le_rfl, hprogram⟩
    spInRange := by rw [cursorInRange_sp]; exact ⟨le_rfl, show c.stackStart < c.displayStart by omega⟩
    spEven := heven
    iInRange := (indexRangeLeavesOutTheStack c 0 hvalid).2 ⟨by decide, fun _ hbad => by omega⟩
    memWf := Memory.writeRange_wf _ _ _ Memory.wf_nil hend
    planeUnused := fun _ => rfl
    clockNonneg := h0
    dtAnchor := ⟨h0, le_rfl⟩
    stAnchor := ⟨h0, le_rfl⟩ }

/-- The default column of R8 meets the constraint of R341. -/
theorem defaultConfig_valid : defaultConfig.Valid :=
  ⟨by decide, by decide, by decide, by decide, by decide, fun _ => rfl, by decide, rfl⟩

/-- Settles O14: the reset state is `init` of the defaults with the empty image at instant 0. -/
theorem resetMeetsTheInvariant : Obligations.ResetMeetsTheInvariant :=
  initMeetsTheInvariant defaultConfig [] 0 State.reset le_rfl
    (init_of_fits (c := defaultConfig) (image := []) 0 defaultConfig_valid (Nat.zero_le _))

/-- What holds of a state while an instruction runs: the invariant, with the instants of the call under way in place
of the clock. -/
structure InvDuring (s : State) : Prop where
  valid : s.cfg.Valid
  pcInRange : cursorInRange s.cfg .pc s.pc = true
  spInRange : cursorInRange s.cfg .sp s.sp = true
  spEven : s.sp % 2 = 0
  iInRange : cursorInRange s.cfg .i s.i = true
  memWf : Memory.wf s.cfg s.mem
  planeUnused : s.cfg.displayMode = .inline → s.fb = 0#2048
  execNonneg : 0 ≤ s.env.current.tExec
  ordered : s.env.current.tExec ≤ s.env.current.tTick
  dtAnchor : 0 ≤ s.dt.anchor ∧ s.dt.anchor ≤ s.env.current.tExec
  stAnchor : 0 ≤ s.st.anchor ∧ s.st.anchor ≤ s.env.current.tExec

/-- The call's instants come after the clock (R326). -/
theorem invDuring_of_inv {s : State} (h : Inv s) (hcall : s.env.admissible = true) : InvDuring s := by
  obtain ⟨hexec, htick⟩ := current_ordered hcall
  exact {
    valid := h.valid
    pcInRange := h.pcInRange
    spInRange := h.spInRange
    spEven := h.spEven
    iInRange := h.iInRange
    memWf := h.memWf
    planeUnused := h.planeUnused
    execNonneg := h.clockNonneg.trans hexec
    ordered := htick
    dtAnchor := ⟨h.dtAnchor.1, h.dtAnchor.2.trans hexec⟩
    stAnchor := ⟨h.stAnchor.1, h.stAnchor.2.trans hexec⟩ }

/-- A tick leaves an anchor between 0 and the tick instant (R321). -/
theorem tick_anchor_mem {T : Timer} {t : Instant} (h0 : 0 ≤ T.anchor) (h : T.anchor ≤ t) :
    0 ≤ (T.tick t).anchor ∧ (T.tick t).anchor ≤ t := by
  obtain ⟨hforward, hbound⟩ := tick_anchor_le T t h
  exact ⟨h0.trans hforward, hbound⟩

/-- The end of the step puts the clock at the tick instant, which no anchor passes, ticked or not. -/
theorem inv_endStep {s : State} (h : InvDuring s) : Inv (endStep s) := by
  have hclock : (endStep s).env.clock = s.env.current.tTick := by rw [endStep_env, consumed_clock]
  have htimer : ∀ T : Timer, 0 ≤ T.anchor ∧ T.anchor ≤ s.env.current.tExec →
      0 ≤ T.anchor ∧ T.anchor ≤ s.env.current.tTick := fun T hT => ⟨hT.1, hT.2.trans h.ordered⟩
  have hanchors : (0 ≤ (endStep s).dt.anchor ∧ (endStep s).dt.anchor ≤ s.env.current.tTick) ∧
      (0 ≤ (endStep s).st.anchor ∧ (endStep s).st.anchor ≤ s.env.current.tTick) := by
    obtain ⟨hdt0, hdt⟩ := htimer _ h.dtAnchor
    obtain ⟨hst0, hst⟩ := htimer _ h.stAnchor
    cases hstatus : s.status with
    | running =>
      rw [endStep_running hstatus]
      exact ⟨tick_anchor_mem hdt0 hdt, tick_anchor_mem hst0 hst⟩
    | faulted e =>
      rw [endStep_faulted hstatus]
      exact ⟨⟨hdt0, hdt⟩, ⟨hst0, hst⟩⟩
  obtain ⟨hdt, hst⟩ := hanchors
  exact {
    valid := by rw [endStep_cfg]; exact h.valid
    pcInRange := by rw [endStep_cfg, endStep_pc]; exact h.pcInRange
    spInRange := by rw [endStep_cfg, endStep_sp]; exact h.spInRange
    spEven := by rw [endStep_sp]; exact h.spEven
    iInRange := by rw [endStep_cfg, endStep_i]; exact h.iInRange
    memWf := by rw [endStep_cfg, endStep_mem]; exact h.memWf
    planeUnused := by rw [endStep_cfg, endStep_fb]; exact h.planeUnused
    clockNonneg := by rw [hclock]; exact h.execNonneg.trans h.ordered
    dtAnchor := by rw [hclock]; exact hdt
    stAnchor := by rw [hclock]; exact hst }

section

variable {s : State} (h : InvDuring s)

include h

theorem invDuring_faultedWith (e : Fatal) : InvDuring (s.faultedWith e) := { h with }

theorem invDuring_setV (x : Reg) (b : Byte) : InvDuring (s.setV x b) := { h with }

theorem invDuring_exitWhen (b : Bool) : InvDuring (exitWhen b s) := by
  cases b with
  | false => exact h
  | true => exact { h with }

theorem invDuring_writeMem {a : Nat} (ha : a < memEnd) (b : Byte) : InvDuring (s.writeMem a b) :=
  { h with memWf := Memory.write_wf h.memWf ha }

/-- A pixel of the inline framebuffer is a byte of memory; the plane changes in external mode only. -/
theorem invDuring_flipPixel {px py : Nat} (hx : px < displayW) (hy : py < displayH) :
    InvDuring (s.flipPixel px py) := by
  cases hmode : s.cfg.displayMode with
  | inline =>
    obtain ⟨-, -, -, -, -, hdisplay, -⟩ := h.valid
    obtain ⟨-, hhigh⟩ := pixelByte_lt s.cfg hx hy
    rw [flipPixel_inline hmode]
    exact invDuring_writeMem h (by rw [hdisplay hmode] at hhigh; exact hhigh) _
  | external =>
    rw [flipPixel_external hmode]
    exact { h with planeUnused := fun hinline => absurd (hmode.symm.trans hinline) (by decide) }

theorem invDuring_clearDisplay : InvDuring (clearDisplay s) := by
  have hwf := clearDisplay_wf h.valid h.memWf
  cases hmode : s.cfg.displayMode with
  | inline =>
    rw [clearDisplay_inline hmode] at hwf ⊢
    exact { h with memWf := hwf }
  | external =>
    rw [clearDisplay_external hmode]
    exact { h with planeUnused := fun _ => rfl }

end

/-- What holds while an instruction runs is kept by every operation of every instruction. -/
theorem invDuring_keptBy (i : Instr) (s : State) : KeptBy i s (fun t => t.cfg = s.cfg ∧ InvDuring t) where
  cfg h := h.1
  fault e _ h := ⟨h.1, invDuring_faultedWith h.2 e⟩
  pc hin h := ⟨h.1, { h.2 with pcInRange := hin }⟩
  sp _ a t hin hentry h := by
    have heven := h.2.spEven
    exact ⟨h.1, { h.2 with spInRange := hin, spEven := show a % 2 = 0 by omega }⟩
  index _ _ _ hin h := ⟨h.1, { h.2 with iInRange := hin }⟩
  reg _ b _ h := ⟨h.1, invDuring_setV h.2 _ b⟩
  mem _ _ ha b _ h := ⟨h.1, invDuring_writeMem h.2 ha b⟩
  exit _ b _ h := ⟨(exitWhen_cfg b _).trans h.1, invDuring_exitWhen h.2 b⟩
  dt _ _ _ h := ⟨h.1, { h.2 with dtAnchor := ⟨h.2.execNonneg, le_rfl⟩ }⟩
  st _ _ _ h := ⟨h.1, { h.2 with stAnchor := ⟨h.2.execNonneg, le_rfl⟩ }⟩
  draw _ _ _ _ hx hy h := ⟨(flipPixel_cfg _ _ _).trans h.1, invDuring_flipPixel h.2 hx hy⟩
  clear _ _ h := ⟨(clearDisplay_cfg _).trans h.1, invDuring_clearDisplay h.2⟩

/-- So it holds of the state an instruction, or a rejection, answers. -/
theorem invDuring_of_runInstruction {s u : State} (h : InvDuring s) (hu : runInstruction s = .next u) :
    InvDuring u := by
  obtain ⟨op, i, -, -, hrun⟩ | ⟨op, w, -, -, hrun⟩ | ⟨e, -, hrun⟩ := runInstruction_cases s
  · obtain ⟨-, hu⟩ := exec_keeps (invDuring_keptBy i s) ⟨rfl, h⟩ (hrun.symm.trans hu)
    exact hu
  all_goals
    rw [hrun] at hu
    cases hu
    exact invDuring_faultedWith h _

/-- Settles O16: the call's instants take the clock's place while the instruction runs, and the end of the step moves
the clock to the last of them. -/
theorem stepKeepsTheInvariant : Obligations.StepKeepsTheInvariant := by
  intro s t hinv h
  obtain ⟨-, -, hcall, u, hu, rfl⟩ := step_next h
  exact inv_endStep (invDuring_of_runInstruction (invDuring_of_inv hinv hcall) hu)

end Sys2Proof.Proofs

/-! Loads, arithmetic and the inert instructions (O21 to O23, O39): a result, and where there is one a flag written
after it, then the advance. -/

namespace Sys2Proof.Proofs

open Sys2Proof.Machine Sys2Proof.Safety

variable {s : State} {i : Instr} {x y : Reg} {r flag : Byte}

/-! ## The inert instructions and the loads -/

theorem advancePc_of_pcFits (h : PcFits s 2) : advancePc s = .go { s with pc := s.pc + 2 } :=
  advancePc_go ((cursorInRange_pc_iff_pcFits s 2).2 h)

/-- Settles O39: each of the four is the advance. -/
theorem inertInstructionsOnlyAdvance : Obligations.InertInstructionsOnlyAdvance := by
  intro s x nnn hnext
  have hadvance : (advancePc s).finish = .next { s with pc := s.pc + 2 } := by
    rw [advancePc_of_pcFits hnext, finish_go]
  refine ⟨fun hnoop => ?_, hadvance, hadvance, hadvance⟩
  rw [exec, execSys, hnoop]
  exact hadvance

/-- An instruction that writes one register and advances completes with the value there. -/
theorem completes_of_setV (hexec : exec i s = (advancePc (s.setV x r)).finish) (hnext : PcFits s 2) :
    Completes i s (fun t => t.getV x = r) :=
  completes_of_advancePc hexec rfl rfl rfl hnext (getV_setV_same x r s)

/-- Settles O21: each load writes its source to Vx. -/
theorem loadsCompleteWithTheirSource : Obligations.LoadsCompleteWithTheirSource := fun _ _ _ _ hnext =>
  ⟨completes_of_setV rfl hnext, completes_of_setV rfl hnext, completes_of_setV rfl hnext,
    completes_of_setV rfl hnext⟩

/-! ## A result and its flag -/

theorem completes_imp {what what' : State → Prop} (h : Completes i s what) (himp : ∀ t, what t → what' t) :
    Completes i s what' := by
  obtain ⟨t, hexec, hstatus, hpc, hwhat⟩ := h
  exact ⟨t, hexec, hstatus, hpc, himp t hwhat⟩

/-- A flag writer completes with its flag in VF, whatever its destination (R24). -/
theorem completes_with_flag (hexec : exec i s = (advancePc (writeResultAndFlag x r flag s)).finish)
    (hnext : PcFits s 2) : Completes i s (fun t => t.getV 0xF = flag) :=
  completes_of_advancePc hexec rfl rfl rfl hnext (getV_setV_same flagReg flag (s.setV x r))

/-- With another destination than VF it completes with the result there too. -/
theorem completes_with_result_and_flag (hx : x ≠ 0xF)
    (hexec : exec i s = (advancePc (writeResultAndFlag x r flag s)).finish) (hnext : PcFits s 2) :
    Completes i s (fun t => t.getV x = r ∧ t.getV 0xF = flag) :=
  completes_of_advancePc hexec rfl rfl rfl hnext
    ⟨(getV_setV_other flagReg x flag (s.setV x r) hx).trans (getV_setV_same x r s),
      getV_setV_same flagReg flag (s.setV x r)⟩

/-- A logical operation completes with its result in Vx, and VF cleared under LOGIC_VF_RESET or left (R145 to R147). -/
theorem completes_logic (hx : x ≠ 0xF) (hexec : exec i s = (advancePc (writeLogicResult x r s)).finish)
    (hnext : PcFits s 2) : Completes i s (fun t => t.getV x = r ∧
      t.getV 0xF = if s.cfg.logicVfReset = true then 0#8 else s.getV 0xF) := by
  by_cases hreset : s.cfg.logicVfReset = true
  · simp only [if_pos hreset]
    exact completes_with_result_and_flag hx (by rw [hexec, writeLogicResult, if_pos hreset]) hnext
  · simp only [if_neg hreset]
    refine completes_of_advancePc (t := s.setV x r) (by rw [hexec, writeLogicResult, if_neg hreset]) rfl rfl rfl
      hnext ⟨getV_setV_same x r s, getV_setV_other x 0xF r s hx.symm⟩

/-- With x = F it completes with 0 in VF under LOGIC_VF_RESET and with the result otherwise (R154). -/
theorem completes_logic_flag (hexec : exec i s = (advancePc (writeLogicResult 0xF r s)).finish)
    (hnext : PcFits s 2) :
    Completes i s (fun t => t.getV 0xF = if s.cfg.logicVfReset = true then 0#8 else r) := by
  by_cases hreset : s.cfg.logicVfReset = true
  · simp only [if_pos hreset]
    exact completes_with_flag (by rw [hexec, writeLogicResult, if_pos hreset]) hnext
  · simp only [if_neg hreset]
    exact completes_of_setV (by rw [hexec, writeLogicResult, if_neg hreset]) hnext

/-! ## The arithmetic of the flags and results (R153) -/

section

variable (a b : Byte)

theorem carryFlag_eq : carryFlag a b = if 256 ≤ a.toNat + b.toNat then 1 else 0 := by
  simp only [carryFlag, flagByte, decide_eq_true_eq]
  rfl

theorem noBorrowFlag_eq : noBorrowFlag a b = if b.toNat ≤ a.toNat then 1 else 0 := by
  simp only [noBorrowFlag, flagByte, decide_eq_true_eq]
  rfl

/-- The difference of two bytes is the exact difference reduced modulo 256. -/
theorem toNat_sub_eq_emod : ((a - b).toNat : Int) = ((a.toNat : Int) - b.toNat) % 256 := by
  have ha := a.isLt
  have hb := b.isLt
  rw [BitVec.toNat_sub]
  omega

theorem toNat_ushiftRight_one : (a >>> 1).toNat = a.toNat / 2 := by
  rw [BitVec.toNat_ushiftRight, Nat.shiftRight_eq_div_pow, pow_one]

theorem toNat_shiftLeft_one : (a <<< 1).toNat = 2 * a.toNat % 256 := by
  rw [BitVec.toNat_shiftLeft, Nat.shiftLeft_eq, pow_one, Nat.mul_comm]

theorem toNat_flagByte (c : Bool) : (flagByte c).toNat = c.toNat := by
  cases c <;> rfl

theorem toNat_shiftRightFlag : (shiftRightFlag a).toNat = a.toNat % 2 := by
  rw [shiftRightFlag, toNat_flagByte, BitVec.getLsbD, Nat.testBit_zero]
  rcases Nat.mod_two_eq_zero_or_one a.toNat with h | h <;> simp [h]

theorem toNat_shiftLeftFlag : (shiftLeftFlag a).toNat = a.toNat / 128 := by
  have ha := a.isLt
  rw [shiftLeftFlag, toNat_flagByte, BitVec.getLsbD, Nat.toNat_testBit]
  omega

end

/-- The operand of a shift, as the statements write it (D11). -/
theorem toNat_shiftOperand (x y : Reg) (s : State) : (shiftOperand x y s).toNat =
    match s.cfg.shiftSource with
    | .vy => (s.getV y).toNat
    | .vx => (s.getV x).toNat := by
  rw [shiftOperand]
  cases s.cfg.shiftSource <;> rfl

/-- Settles O22: with x other than F the result and the flag are two registers, and each is its arithmetic law. -/
theorem aluLaws : Obligations.AluLaws := by
  intro s x y kk hnext hx a b src logicFlag
  have hsrc : (shiftOperand x y s).toNat = src := toNat_shiftOperand x y s
  refine ⟨?_, ?_, ?_, ?_, ?_, ?_, completes_logic hx rfl hnext, completes_logic hx rfl hnext,
    completes_logic hx rfl hnext⟩
  · refine completes_of_advancePc rfl rfl rfl rfl hnext ⟨?_, getV_setV_other x 0xF _ s hx.symm⟩
    exact (congrArg BitVec.toNat (getV_setV_same x _ s)).trans (BitVec.toNat_add _ _)
  · refine completes_imp (completes_with_result_and_flag hx rfl hnext) fun t ⟨hresult, hflag⟩ => ?_
    exact ⟨by rw [hresult, BitVec.toNat_add], by rw [hflag, carryFlag_eq]⟩
  · refine completes_imp (completes_with_result_and_flag hx rfl hnext) fun t ⟨hresult, hflag⟩ => ?_
    exact ⟨by rw [hresult, toNat_sub_eq_emod], by rw [hflag, noBorrowFlag_eq]⟩
  · refine completes_imp (completes_with_result_and_flag hx rfl hnext) fun t ⟨hresult, hflag⟩ => ?_
    exact ⟨by rw [hresult, toNat_sub_eq_emod], by rw [hflag, noBorrowFlag_eq]⟩
  · refine completes_imp (completes_with_result_and_flag hx rfl hnext) fun t ⟨hresult, hflag⟩ => ?_
    exact ⟨by rw [hresult, toNat_ushiftRight_one, hsrc], by rw [hflag, toNat_shiftRightFlag, hsrc]⟩
  · refine completes_imp (completes_with_result_and_flag hx rfl hnext) fun t ⟨hresult, hflag⟩ => ?_
    exact ⟨by rw [hresult, toNat_shiftLeft_one, hsrc], by rw [hflag, toNat_shiftLeftFlag, hsrc]⟩

/-- Settles O23: VF is written with the result first and with the flag last. -/
theorem flagSurvivesWhenVFIsTheDestination : Obligations.FlagSurvivesWhenVFIsTheDestination := by
  intro s y kk hnext a b src
  have hsrc : (shiftOperand 0xF y s).toNat = src := toNat_shiftOperand 0xF y s
  refine ⟨?_, ?_, ?_, ?_, ?_, ?_, completes_logic_flag rfl hnext, completes_logic_flag rfl hnext,
    completes_logic_flag rfl hnext⟩
  · exact completes_imp (completes_of_setV rfl hnext) fun t hresult => by rw [hresult, BitVec.toNat_add]
  · exact completes_imp (completes_with_flag rfl hnext) fun t hflag => by rw [hflag, carryFlag_eq]
  · exact completes_imp (completes_with_flag rfl hnext) fun t hflag => by rw [hflag, noBorrowFlag_eq]
  · exact completes_imp (completes_with_flag rfl hnext) fun t hflag => by rw [hflag, noBorrowFlag_eq]
  · exact completes_imp (completes_with_flag rfl hnext) fun t hflag => by rw [hflag, toNat_shiftRightFlag, hsrc]
  · exact completes_imp (completes_with_flag rfl hnext) fun t hflag => by rw [hflag, toNat_shiftLeftFlag, hsrc]

end Sys2Proof.Proofs

/-! Control flow (O31 to O38): a cursor set at the target, after the push of a call, or after the pop of a return. -/

namespace Sys2Proof.Proofs

open Sys2Proof.Machine Sys2Proof.Safety

variable {s : State} {nnn : Addr12} {a : Nat}

/-! ## A cursor set that ends an instruction -/

theorem cursorInRange_pc_of_bounds {c : Config} (hlow : programStart ≤ a) (hhigh : a < c.stackStart) :
    cursorInRange c .pc a = true := by
  rw [cursorInRange_pc]
  exact ⟨hlow, hhigh⟩

theorem not_cursorInRange_pc {c : Config} (h : ¬ (programStart ≤ a ∧ a < c.stackStart)) :
    ¬ cursorInRange c .pc a = true := by
  rwa [cursorInRange_pc]

/-- A jump of PC into the Program region completes (R13). -/
theorem finish_cursorSet_pc {ipc : Nat} (hlow : programStart ≤ a) (hhigh : a < s.cfg.stackStart) :
    (cursorSet ipc .pc a s).finish = .next (s.putCursor .pc a) := by
  rw [cursorSet_go (cursorInRange_pc_of_bounds hlow hhigh), finish_go]

/-- A jump of PC out of the Program region stops there (R13, R170). -/
theorem stopsWith_cursorSet_pc {ipc : Nat} (h : ¬ (programStart ≤ a ∧ a < s.cfg.stackStart)) :
    StopsWith (cursorSet ipc .pc a s).finish (.cursorRange .pc (a : Int) ipc) := by
  rw [cursorSet_fatal (not_cursorInRange_pc h), finish_fatal]
  exact ⟨_, rfl, rfl⟩

/-! ## Jumps -/

/-- Settles O31: the jump sets PC, after EXIT. -/
theorem jumpCompletesAtItsTarget : Obligations.JumpCompletesAtItsTarget := by
  intro s nnn hlow hhigh
  refine ⟨_, finish_cursorSet_pc hlow (by rwa [exitWhen_cfg]), exitWhen_status _ s, rfl, exitWhen_exit _ s,
    exitWhen_mem _ s⟩

/-- Settles O32: the same at the sum. -/
theorem indexedJumpCompletesAtTheSum : Obligations.IndexedJumpCompletesAtTheSum := by
  intro s nnn hlow hhigh
  refine ⟨_, finish_cursorSet_pc hlow (by rwa [exitWhen_cfg]), exitWhen_status _ s, rfl, exitWhen_exit _ s⟩

/-! ## The push of a call -/

/-- The state after the push of PC at SP (R174). -/
def pushed (s : State) : State := { s with mem := s.mem.writeRange s.cfg s.sp (stackEntry s.pc) }

theorem readMem_pushed_high (s : State) : (pushed s).readMem s.sp = BitVec.ofNat 8 (s.pc / 256) := by
  rw [pushed, State.readMem, Memory.read_writeRange, if_pos ⟨le_rfl, show s.sp < s.sp + 2 by omega⟩, Nat.sub_self]
  rfl

theorem readMem_pushed_low (s : State) : (pushed s).readMem (s.sp + 1) = BitVec.ofNat 8 (s.pc % 256) := by
  rw [pushed, State.readMem, Memory.read_writeRange,
    if_pos ⟨Nat.le_add_right _ _, show s.sp + 1 < s.sp + 2 by omega⟩, Nat.add_sub_cancel_left]
  exact BitVec.eq_of_toNat_eq (by simp [stackEntry])

/-- A call whose entry is inside the space pushes, and goes on with the advance of SP and the jump. -/
theorem exec_call (hmem : s.sp + 1 < memEnd) : exec (.call nnn) s =
    ((cursorAdvance s.pc .sp (pushed s)).andThen (cursorSet s.pc .pc nnn.toNat)).finish := by
  have hpush : storeBytes s.pc s.sp (stackEntry s.pc) s = .go (pushed s) :=
    storeBytes_go s.pc (stackEntry s.pc) s.sp s (show s.sp + 2 ≤ memEnd by omega)
  rw [exec, execCall, hpush, andThen_go]
  rfl

/-- With room for the entry SP moves on, and the jump ends the call. -/
theorem exec_call_of_room (hmem : s.sp + 1 < memEnd) (hroom : cursorInRange s.cfg .sp (s.sp + 2) = true) :
    exec (.call nnn) s = (cursorSet s.pc .pc nnn.toNat ((pushed s).putCursor .sp (s.sp + 2))).finish := by
  have hadvance : cursorAdvance s.pc .sp (pushed s) = .go ((pushed s).putCursor .sp (s.sp + 2)) :=
    cursorSet_go (s := pushed s) hroom
  rw [exec_call hmem, hadvance, andThen_go]

/-- An entry that SP may stand after is inside the space, in a machine's configuration. -/
theorem sp_lt_of_room (hv : s.cfg.Valid) (hroom : cursorInRange s.cfg .sp (s.sp + 2) = true) :
    s.sp + 1 < memEnd := by
  obtain ⟨-, -, hdisplay, -⟩ := hv
  rw [cursorInRange_sp] at hroom
  omega

/-- The state after a call that completes (R174). -/
def called (nnn : Addr12) (s : State) : State := ((pushed s).putCursor .sp (s.sp + 2)).putCursor .pc nnn.toNat

/-- A call with room and a target in the Program region completes. -/
theorem exec_call_completes (hmem : s.sp + 1 < memEnd) (hroom : cursorInRange s.cfg .sp (s.sp + 2) = true)
    (hlow : programStart ≤ nnn.toNat) (hhigh : nnn.toNat < s.cfg.stackStart) :
    exec (.call nnn) s = .next (called nnn s) := by
  rw [exec_call_of_room hmem hroom]
  exact finish_cursorSet_pc hlow hhigh

/-- Settles O34: the call pushes, moves SP on and jumps, and neither of the two moves writes memory. -/
theorem callPushesItsOwnAddress : Obligations.CallPushesItsOwnAddress := by
  intro s nnn hv hroom hlow hhigh
  exact ⟨_, exec_call_completes (sp_lt_of_room hv hroom) hroom hlow hhigh, rfl, readMem_pushed_high s,
    readMem_pushed_low s, rfl, rfl, rfl⟩

/-- In the last slot SP would move to D, which is past the Stack region (R30). -/
theorem exec_call_of_full (hmem : s.sp + 1 < memEnd) (hlast : s.sp + 2 = s.cfg.displayStart) :
    exec (.call nnn) s =
      .next ((pushed s).faultedWith (.cursorRange .sp (s.cfg.displayStart : Int) s.pc)) := by
  have hout : ¬ cursorInRange s.cfg .sp (s.sp + 2) = true := by
    rw [cursorInRange_sp]
    omega
  have hfull : cursorAdvance s.pc .sp (pushed s) =
      .fatal ((pushed s).faultedWith (.cursorRange .sp ((s.sp + 2 : Nat) : Int) s.pc)) :=
    cursorSet_fatal (s := pushed s) hout
  rw [exec_call hmem, hfull, andThen_fatal, finish_fatal, hlast]

/-- Settles O35: in the last slot the push goes through and the advance of SP does not. -/
theorem callOverflowIsFatalAfterThePush : Obligations.CallOverflowIsFatalAfterThePush := by
  intro s nnn hv hlast
  obtain ⟨-, -, hdisplay, -⟩ := hv
  exact ⟨_, exec_call_of_full (by omega) hlast, rfl, readMem_pushed_high s, readMem_pushed_low s, rfl, rfl⟩

/-! ## The pop of a return -/

/-- A return whose entry is in the Stack region and inside the space moves SP back, sets PC to the popped value and
advances it (R175). -/
theorem exec_ret {k : Nat} (hsp : s.sp = k + 2) (hmem : k + 1 < memEnd)
    (hin : cursorInRange s.cfg .sp k = true) : exec .ret s =
      ((cursorSet s.pc .pc ((s.readMem k).toNat * 256 + (s.readMem (k + 1)).toNat) (s.putCursor .sp k)).andThen
        (cursorAdvance s.pc .pc)).finish := by
  have hretreat : cursorRetreat s.pc .sp s = .go (s.putCursor .sp k) := by
    have hcursor : s.getCursor .sp = k + cursorStep := hsp
    rw [cursorRetreat, hcursor, if_pos (Nat.le_add_left _ _), Nat.add_sub_cancel, cursorSet_go hin]
  have hpop : popPc s.pc (s.putCursor .sp k) =
      (cursorSet s.pc .pc ((s.readMem k).toNat * 256 + (s.readMem (k + 1)).toNat) (s.putCursor .sp k)).andThen
        (cursorAdvance s.pc .pc) := by
    rw [popPc, putCursor_sp_sp, loadByte_ok (show k < memEnd by omega), loadByte_ok hmem]
    rfl
  rw [exec, execRet, hretreat, andThen_go, hpop]

/-- The state after a return to the word after `a` (R175). -/
def returned (k a : Nat) (s : State) : State := (s.putCursor .sp k).putCursor .pc (a + 2)

/-- With the popped value in the Program region the advance from it ends the return. -/
theorem exec_ret_of_popped {k : Nat} (hsp : s.sp = k + 2) (hmem : k + 1 < memEnd)
    (hin : cursorInRange s.cfg .sp k = true)
    (ha : (s.readMem k).toNat * 256 + (s.readMem (k + 1)).toNat = a)
    (hlow : programStart ≤ a) (hhigh : a < s.cfg.stackStart) :
    exec .ret s = (cursorSet s.pc .pc (a + 2) ((s.putCursor .sp k).putCursor .pc a)).finish := by
  rw [exec_ret hsp hmem hin, ha,
    cursorSet_go (s := s.putCursor .sp k) (cursorInRange_pc_of_bounds hlow hhigh), andThen_go]
  rfl

/-- With the word after it there too the return completes. -/
theorem exec_ret_completes {k : Nat} (hsp : s.sp = k + 2) (hmem : k + 1 < memEnd)
    (hin : cursorInRange s.cfg .sp k = true)
    (ha : (s.readMem k).toNat * 256 + (s.readMem (k + 1)).toNat = a)
    (hlow : programStart ≤ a) (hhigh : a + 2 < s.cfg.stackStart) :
    exec .ret s = .next (returned k a s) :=
  (exec_ret_of_popped hsp hmem hin ha hlow (Nat.lt_of_le_of_lt (Nat.le_add_right a 2) hhigh)).trans
    (finish_cursorSet_pc (hlow.trans (Nat.le_add_right a 2)) hhigh)

/-- Settles O36: the pop and the advance both stay in their regions. -/
theorem returnResumesAfterThePoppedAddress : Obligations.ReturnResumesAfterThePoppedAddress := by
  intro s k hsp hmem hin popped hlow hhigh
  exact ⟨_, exec_ret_completes hsp hmem hin rfl hlow hhigh, rfl, rfl, rfl, rfl⟩

/-- Settles O37: with an empty stack the retreat leaves the Stack region; from the region's last two bytes the advance
leaves the Program region. -/
theorem returnFailsOnEmptyStackOrRegionEnd : Obligations.ReturnFailsOnEmptyStackOrRegionEnd := by
  intro s
  refine ⟨fun hv hempty => ?_, ?_⟩
  · obtain ⟨k, hbelow, hin, -⟩ | hretreat := cursorRetreat_cases s.pc .sp s
    · rw [cursorInRange_sp] at hin
      have : s.sp = k + 2 := hbelow
      omega
    · rw [exec, execRet, hretreat, andThen_fatal, finish_fatal, ← hempty]
      exact ⟨_, rfl, rfl⟩
  · intro k hsp hmem hin popped hlow hhigh hend
    have hout : ¬ cursorInRange s.cfg .pc (popped + 2) = true :=
      not_cursorInRange_pc fun hin => absurd hin.2 (Nat.not_lt.mpr hend)
    have hexec := exec_ret_of_popped hsp hmem hin rfl hlow hhigh
    rw [cursorSet_fatal (s := (s.putCursor .sp k).putCursor .pc popped) hout, finish_fatal] at hexec
    exact ⟨_, hexec, rfl, rfl, rfl⟩

/-- Settles O33: each of the four ends with a jump of PC, from a state whose configuration is the first one's. -/
theorem transferOutsideTheProgramIsFatal : Obligations.TransferOutsideTheProgramIsFatal := by
  intro s nnn
  refine ⟨fun hout => ⟨?_, fun hmem hroom => ?_⟩, fun hout => ?_, fun k hsp hmem hin hout => ?_⟩
  · exact stopsWith_cursorSet_pc (by rwa [exitWhen_cfg])
  · rw [exec_call_of_room hmem hroom]
    exact stopsWith_cursorSet_pc hout
  · exact stopsWith_cursorSet_pc (by rwa [exitWhen_cfg])
  · rw [exec_ret hsp hmem hin, cursorSet_fatal (s := s.putCursor .sp k) (not_cursorInRange_pc hout), andThen_fatal,
      finish_fatal]
    exact ⟨_, rfl, rfl⟩

/-- The two bytes of an entry give back the address they were made from, if it has sixteen bits. -/
theorem bigEndian_entry (ha : a < 0x10000) :
    (BitVec.ofNat 8 (a / 256)).toNat * 256 + (BitVec.ofNat 8 (a % 256)).toNat = a := by
  rw [BitVec.toNat_ofNat, BitVec.toNat_ofNat]
  omega

/-- Settles O38: the return pops the entry that the call pushed, the call's own address. -/
theorem callThenReturnResumesAfterTheCall : Obligations.CallThenReturnResumesAfterTheCall := by
  intro s nnn hinv hbelow hnext hlow hhigh
  have hsp := hinv.spInRange
  have hpc := hinv.pcInRange
  obtain ⟨-, hstack, hdisplay, -⟩ := hinv.valid
  rw [cursorInRange_sp] at hsp
  rw [cursorInRange_pc] at hpc
  have hmem : s.sp + 1 < memEnd := by omega
  have hroom : cursorInRange s.cfg .sp (s.sp + 2) = true := by
    rw [cursorInRange_sp]
    omega
  have hentry : ((pushed s).readMem s.sp).toNat * 256 + ((pushed s).readMem (s.sp + 1)).toNat = s.pc := by
    rw [readMem_pushed_high, readMem_pushed_low]
    exact bigEndian_entry (by simp only [memEnd] at hdisplay; omega)
  have hret : exec .ret (called nnn s) = .next (returned s.sp s.pc (called nnn s)) :=
    exec_ret_completes rfl hmem hinv.spInRange hentry hpc.1 hnext.2
  exact ⟨_, _, exec_call_completes hmem hroom hlow hhigh, hret, rfl, rfl, rfl, rfl, hentry⟩

end Sys2Proof.Proofs

/-! Index, timers, BCD and the transfers past the end of memory (O40, O42, O44, O48, O50), and the initial state
(O60). -/

namespace Sys2Proof.Proofs

open Sys2Proof.Machine Sys2Proof.Safety

/-! ## Sequences whose first part is known -/

section

variable {r : Flow} {t : State} {k : State → Flow}

theorem andThen_of_go (h : r = .go t) : r.andThen k = k t := by rw [h, andThen_go]

theorem andThen_of_fatal (h : r = .fatal t) : r.andThen k = .fatal t := by rw [h, andThen_fatal]

theorem finish_of_fatal (h : r = .fatal t) : r.finish = .next t := by rw [h, finish_fatal]

end

/-! ## Sets of I -/

section

variable {s : State} {i : Instr} {a : Nat}

/-- A set of I in its range, then the advance. -/
theorem completes_of_cursorSet_i (hexec : exec i s = ((cursorSet s.pc .i a s).andThen advancePc).finish)
    (hin : cursorInRange s.cfg .i a = true) (hnext : PcFits s 2) : Completes i s (fun t => t.i = a) :=
  completes_of_advancePc (hexec.trans (congrArg Flow.finish (andThen_of_go (cursorSet_go hin))))
    rfl rfl rfl hnext rfl

/-- A set of I out of its range ends the instruction before anything has moved (R13). -/
theorem stops_of_cursorSet_i (hexec : exec i s = ((cursorSet s.pc .i a s).andThen advancePc).finish)
    (hout : cursorInRange s.cfg .i a = false) :
    ∃ t, exec i s = .next t ∧ t.i = s.i ∧ t.pc = s.pc ∧
      t.status = .faulted (.cursorRange .i (a : Int) s.pc) := by
  have hstop := cursorSet_fatal (ipc := s.pc) (s := s) (ne_true_of_eq_false hout)
  exact ⟨_, hexec.trans (finish_of_fatal (andThen_of_fatal hstop)), rfl, rfl, rfl⟩

/-- Settles O40: both instructions are one cursor set of I. -/
theorem indexSetsAreExactAndRangeChecked : Obligations.IndexSetsAreExactAndRangeChecked := fun _ _ _ =>
  ⟨fun hin hnext => completes_of_cursorSet_i rfl hin hnext, fun hout => stops_of_cursorSet_i rfl hout,
    fun hin hnext => completes_of_cursorSet_i rfl hin hnext, fun hout => stops_of_cursorSet_i rfl hout⟩

variable {x : Reg}

/-- A digit of the font, then the set of I at its glyph, which is in I's range (R65, R196). -/
theorem completes_ldFont {d : Nat} (hv : s.cfg.Valid) (hdigit : fontDigit x s = .ok d) (hd : d ≤ 0xF)
    (hnext : PcFits s 2) : Completes (.ldFont x) s (fun t => t.i = s.cfg.fontBase + 5 * d) :=
  completes_of_cursorSet_i (by simp only [exec, execLdFont, hdigit]; rfl) (glyphAddress_inRange hv hd) hnext

/-- The low nibble of a byte. -/
theorem toNat_and_low_nibble (b : Byte) : (b &&& 0x0F#8).toNat = b.toNat % 16 := by
  rw [BitVec.toNat_and]
  exact Nat.and_two_pow_sub_one_eq_mod b.toNat 4

/-- Settles O42: the three answers of the digit. -/
theorem fontIndexIsTheGlyphAddress : Obligations.FontIndexIsTheGlyphAddress := by
  intro s x hv
  refine ⟨fun hd hnext => completes_ldFont hv (if_pos hd) hd hnext, fun hd hmask hnext => ?_, fun hd hfault => ?_⟩
  · have hdigit : fontDigit x s = .ok ((s.getV x).toNat % 16) := by
      simp only [fontDigit, if_neg (Nat.not_le.mpr hd), hmask, toNat_and_low_nibble]
    exact completes_ldFont hv hdigit (by omega) hnext
  · have hdigit : fontDigit x s = .error (.fontDigit (s.getV x) s.pc) := by
      simp only [fontDigit, if_neg (Nat.not_le.mpr hd), hfault]
    exact ⟨s.faultedWith (.fontDigit (s.getV x) s.pc), by simp only [exec, execLdFont, hdigit]; rfl, rfl, rfl, rfl⟩

end

/-! ## The decay law -/

/-- The whole intervals from an anchor that has counted `k` of them are those that are left (R321). -/
theorem wholeIntervals_of_anchor (start t : Instant) (k : Nat) :
    wholeIntervals (start + (k : Rat) / 60) t = wholeIntervals start t - k := by
  have hrest : (t - (start + (k : Rat) / 60)) * (timerHz : Rat) = (t - start) * (timerHz : Rat) - (k : Rat) := by
    simp only [timerHz]
    push_cast
    ring
  rw [wholeIntervals, hrest, Nat.floor_sub_natCast, wholeIntervals]

theorem wholeIntervals_mono {start t t' : Instant} (h : t ≤ t') :
    wholeIntervals start t ≤ wholeIntervals start t' :=
  Nat.floor_le_floor (mul_le_mul_of_nonneg_right (sub_le_sub_right h start) (Nat.cast_nonneg _))

/-- A timer set to `v` at `start` has counted the whole intervals up to `t`, and its anchor stands after them. -/
structure CountedTo (v : Byte) (start t : Instant) (T : Timer) : Prop where
  count : T.count.toNat = v.toNat - wholeIntervals start t
  anchor : T.anchor = start + (wholeIntervals start t : Rat) / 60

theorem countedTo_set (v : Byte) (start : Instant) : CountedTo v start start (Timer.set v start) := by
  have hnone : wholeIntervals start start = 0 := by simp [wholeIntervals]
  constructor
  · rw [hnone, set_count, Nat.sub_zero]
  · rw [hnone, set_anchor]
    simp

/-- A tick counts on, however far the last one is back. -/
theorem countedTo_tick {v : Byte} {start t t' : Instant} {T : Timer} (hT : CountedTo v start t T) (h : t ≤ t') :
    CountedTo v start t' (T.tick t') := by
  obtain ⟨hcount, hanchor⟩ := hT
  have hmono := wholeIntervals_mono (start := start) h
  have hleft : wholeIntervals T.anchor t' = wholeIntervals start t' - wholeIntervals start t := by
    rw [hanchor, wholeIntervals_of_anchor]
  constructor
  · rw [tick_count, hcount, hleft]
    omega
  · rw [tick_anchor, hleft, hanchor, Nat.cast_sub hmono]
    ring

theorem countedTo_tickAll {v : Byte} {start t last : Instant} {T : Timer} {instants : List Instant}
    (hT : CountedTo v start t T) (h : (t :: instants ++ [last]).Pairwise (· ≤ ·)) :
    CountedTo v start last (tickAll T (instants ++ [last])) := by
  induction instants generalizing t T with
  | nil => exact countedTo_tick hT (List.rel_of_pairwise_cons h List.mem_cons_self)
  | cons t' instants ih =>
    exact ih (countedTo_tick hT (List.rel_of_pairwise_cons h List.mem_cons_self)) (List.pairwise_cons.mp h).2

/-- Settles O44: through any ticks in order the count is what the clock says, the anchor keeping the fraction. -/
theorem timerDecaysWithTheClockAlone : Obligations.TimerDecaysWithTheClockAlone := fun v t0 _ _ h =>
  (countedTo_tickAll (countedTo_set v t0) h).count

/-! ## BCD -/

/-- Digit `k` of a byte, hundreds first (R211). -/
theorem toNat_bcdDigits {k : Nat} (b : Byte) (hk : k < 3) :
    ((bcdDigits b).getD k 0#8).toNat = b.toNat / 10 ^ (2 - k) % 10 := by
  have hb := b.isLt
  obtain rfl | rfl | rfl : k = 0 ∨ k = 1 ∨ k = 2 := by omega
  · show (BitVec.ofNat 8 (b.toNat / 100)).toNat = b.toNat / 100 % 10
    rw [BitVec.toNat_ofNat]
    omega
  · show (BitVec.ofNat 8 (b.toNat / 10 % 10)).toNat = b.toNat / 10 % 10
    rw [BitVec.toNat_ofNat]
    omega
  · show (BitVec.ofNat 8 (b.toNat % 10)).toNat = b.toNat / 1 % 10
    rw [BitVec.toNat_ofNat]
    omega

/-- A byte of a list stored from `a` on, as far as the space goes, is read back at its place. -/
theorem read_writeRange_take {c : Config} {m : Memory} {a k : Nat} {bytes : List Byte} (hk : k < bytes.length)
    (hmem : a + k < memEnd) :
    Memory.read c (m.writeRange c a (bytes.take (memEnd - a))) (a + k) = bytes.getD k 0#8 := by
  have hlen : k < (bytes.take (memEnd - a)).length := by
    rw [List.length_take]
    omega
  rw [Memory.read_writeRange, if_pos ⟨Nat.le_add_right a k, by omega⟩, Nat.add_sub_cancel_left,
    List.getD_eq_getElem?_getD, List.getD_eq_getElem?_getD, List.getElem?_take_of_lt (by omega)]

/-- A list that fits the space is stored whole. -/
theorem read_writeRange_of_lt {c : Config} {m : Memory} {a k : Nat} {bytes : List Byte} (hk : k < bytes.length) :
    Memory.read c (m.writeRange c a bytes) (a + k) = bytes.getD k 0#8 := by
  rw [Memory.read_writeRange, if_pos ⟨Nat.le_add_right a k, by omega⟩, Nat.add_sub_cancel_left]

/-- Settles O48: the three stores go through and are read back. -/
theorem bcdStoresTheThreeDigits : Obligations.BcdStoresTheThreeDigits := by
  intro s x hnext hmem
  have hstore := storeBytes_go s.pc (bcdDigits (s.getV x)) s.i s hmem
  have hdigit : ∀ k < 3, (Memory.read s.cfg (s.mem.writeRange s.cfg s.i (bcdDigits (s.getV x))) (s.i + k)).toNat =
      (s.getV x).toNat / 10 ^ (2 - k) % 10 := fun k hk => by
    rw [read_writeRange_of_lt hk, toNat_bcdDigits _ hk]
  have hhundreds : (s.getV x).toNat / 100 % 10 = (s.getV x).toNat / 100 := by
    have hv := (s.getV x).isLt
    omega
  refine completes_of_advancePc (congrArg Flow.finish (andThen_of_go hstore)) rfl rfl rfl hnext
    ⟨(hdigit 0 (by decide)).trans hhundreds, hdigit 1 (by decide), (hdigit 2 (by decide)).trans ?_⟩
  rw [Nat.sub_self, pow_zero, Nat.div_one]

/-! ## Transfers past the end of memory -/

/-- Loads of a list of registers are loads of its first part, then of its second. -/
theorem loadRegs_append (ipc : Nat) (ks ls : List Reg) (s : State) :
    loadRegs ipc (ks ++ ls) s = (loadRegs ipc ks s).andThen (loadRegs ipc ls) := by
  induction ks generalizing s with
  | nil => rfl
  | cons k ks ih =>
    rw [List.cons_append, loadRegs, loadRegs]
    cases loadByte ipc (s.i + k.val) s with
    | error e => rfl
    | ok b => exact ih _

/-- The registers V0 to Vx are those below V`n`, V`n` and those above it. -/
theorem regsUpTo_split {x n : Reg} (h : n.val ≤ x.val) :
    regsUpTo x = (List.finRange 16).take n.val ++ n :: (regsUpTo x).drop (n.val + 1) := by
  revert x n
  decide

/-- The registers below V`n` are those of a smaller number. -/
theorem mem_take_finRange {n k : Reg} : k ∈ (List.finRange 16).take n.val ↔ k.val < n.val := by
  revert n k
  decide

/-- Loads of V0 to Vx that pass the end stop there, with the registers below loaded (R62, R302). -/
theorem loadRegs_past {s : State} {x : Reg} (ipc : Nat) (hpast : memEnd < s.i + x.val + 1) :
    ∃ v, loadRegs ipc (regsUpTo x) s =
        .fatal (State.faultedWith (.memBounds (max s.i memEnd) ipc) { s with v := v }) ∧
      ∀ k : Reg, k.val ≤ x.val →
        v[k.val] = if s.i + k.val < memEnd then s.readMem (s.i + k.val) else s.getV k := by
  have hx := x.isLt
  obtain ⟨n, hn⟩ : ∃ n : Reg, n.val = max s.i memEnd - s.i := ⟨⟨max s.i memEnd - s.i, by omega⟩, rfl⟩
  have hsplit := regsUpTo_split (x := x) (n := n) (by omega)
  have hbelow : ∀ k ∈ (List.finRange 16).take n.val, s.i + k.val < memEnd := fun k hk => by
    rw [mem_take_finRange] at hk
    omega
  obtain ⟨v, hload, hv⟩ := loadRegs_go_reads (ipc := ipc) hbelow
  refine ⟨v, ?_, fun k hk => ?_⟩
  · have hfirst : s.i + n.val = max s.i memEnd := by omega
    rw [hsplit, loadRegs_append, hload, andThen_go, loadRegs,
      loadByte_error (show ¬ s.i + n.val < memEnd by omega), hfirst]
    rfl
  · rw [hv]
    exact if_congr (mem_take_finRange.trans (by omega)) rfl rfl

/-- Settles O50: the lowest address outside the space is where the transfer stops. -/
theorem transferPastTheEndIsFatal : Obligations.TransferPastTheEndIsFatal := by
  intro s x y n
  refine ⟨fun hpast => ?_, fun hpast => ⟨?_, ?_⟩, fun hn hpast => ?_⟩
  · have hstop := storeBytes_fatal s.pc (bcdDigits (s.getV x)) s.i s (Nat.succ_pos 2) hpast
    refine ⟨_, finish_of_fatal (andThen_of_fatal hstop), rfl, fun k hk hmem => ?_⟩
    exact (congrArg BitVec.toNat (read_writeRange_take hk hmem)).trans (toNat_bcdDigits _ hk)
  · have hlen : ((regsUpTo x).map s.getV).length = x.val + 1 := by rw [List.length_map, length_regsUpTo]
    have hstop := storeBytes_fatal s.pc ((regsUpTo x).map s.getV) s.i s (by omega) (by omega)
    refine ⟨_, finish_of_fatal (andThen_of_fatal (andThen_of_fatal hstop)), rfl, fun k hk hmem => ?_⟩
    refine (read_writeRange_take (by omega) hmem).trans ?_
    simp [List.getElem?_map, regsUpTo_getElem? hk]
  · obtain ⟨v, hstop, hv⟩ := loadRegs_past s.pc hpast
    exact ⟨_, finish_of_fatal (andThen_of_fatal (andThen_of_fatal hstop)), rfl, hv⟩
  · have hstop := loadBytes_error s.pc s n.val s.i hn hpast
    simp only [exec, execDrw, hstop]
    rfl

/-! ## The initial state -/

/-- The background is the font table at its base (R65). -/
theorem background_fontTable {c : Config} {k : Nat} (hk : k < 80) :
    Memory.background c (c.fontBase + k) = c.fontTable.getD k 0#8 := by
  rw [Memory.background, if_pos ⟨Nat.le_add_right _ _, Nat.add_lt_add_left hk _⟩, Nat.add_sub_cancel_left]

/-- Settles O60: the fields of `State.initial`, and bytes that are the image's, the font's or zero. -/
theorem initialStateValues : Obligations.InitialStateValues := by
  intro c image t0 s h
  have hread := readMem_of_init h
  obtain ⟨hvalid, hfits, hs⟩ := init_next h
  have hcfg : s.cfg = c := by rw [hs]; rfl
  have hfb : s.fb = 0#2048 := by rw [hs]; rfl
  have hbounds := hvalid
  obtain ⟨hprogram, hstack, hdisplay, -, -, -, hfont, -⟩ := hbounds
  have hsize : image.length ≤ c.stackStart - programStart := hfits
  refine ⟨fun r => ?_, by rw [hs]; rfl, by rw [hs]; rfl, by rw [hs]; rfl, by rw [hs]; rfl, by rw [hs]; rfl,
    by rw [hs]; rfl, by rw [hs]; rfl, fun k hk => ?_, fun a _ hnotFont hnotImage => ?_, fun px py hx hy => ?_⟩
  · rw [hs]
    exact Vector.getElem_replicate _
  · rw [hread, if_neg (by simp only [fontTableBytes] at hfont; omega), background_fontTable hk]
  · rw [hread, if_neg hnotImage]
    exact if_neg hnotFont
  · cases hmode : s.cfg.displayMode with
    | inline =>
      obtain ⟨hlow, -⟩ := pixelByte_lt s.cfg hx hy
      rw [hcfg] at hlow
      rw [pixel_inline hmode, hread, hcfg, if_neg (by omega),
        background_eq_zero_of_programStart_le hvalid (by omega), BitVec.getLsbD_zero]
    | external => rw [pixel_external hmode, hfb, BitVec.getLsbD_zero]

end Sys2Proof.Proofs

/-! The display (O51, O52, O54, O55): a flip inverts one pixel, a sprite's pixels are those it covers, each once, so a
blit inverts exactly these. -/

namespace Sys2Proof.Proofs

open Sys2Proof.Machine Sys2Proof.Safety

/-! ## A flip -/

theorem getLsbD_xor_bit {w j k : Nat} (b : BitVec w) (hk : k < w) :
    (b ^^^ (1#w <<< k)).getLsbD j = (b.getLsbD j ^^ decide (k = j)) := by
  have hbit : (1#w <<< k).getLsbD j = (decide (k < w) && decide (k = j)) := BitVec.getLsbD_twoPow k j
  rw [BitVec.getLsbD_xor, hbit, decide_eq_true hk, Bool.true_and]

/-- Two pixels of the display on one framebuffer byte have different bits of it. -/
theorem pixelByte_eq_iff {c : Config} {px py qx qy : Nat} (hx : px < displayW) (hqx : qx < displayW) :
    pixelByte c qx qy = pixelByte c px py ∧ pixelBit px = pixelBit qx ↔ qx = px ∧ qy = py := by
  simp only [pixelByte, pixelBit, displayW] at *
  omega

theorem pixelIndex_eq_iff {px py qx qy : Nat} (hx : px < displayW) (hqx : qx < displayW) :
    pixelIndex px py = pixelIndex qx qy ↔ qx = px ∧ qy = py := by
  simp only [pixelIndex, displayW] at *
  omega

/-- PixelXor inverts its pixel and no other (R231). -/
theorem pixel_flipPixel {s : State} {px py qx qy : Nat} (hx : px < displayW) (hy : py < displayH)
    (hqx : qx < displayW) :
    (s.flipPixel px py).pixel qx qy = (s.pixel qx qy ^^ decide (qx = px ∧ qy = py)) := by
  have hcfg := flipPixel_cfg px py s
  cases hmode : s.cfg.displayMode with
  | inline =>
    have hsame := pixelByte_eq_iff (c := s.cfg) (py := py) (qy := qy) hx hqx
    rw [pixel_inline (hcfg ▸ hmode), hcfg, flipPixel_inline hmode, readMem_writeMem, pixel_inline hmode]
    by_cases hbyte : pixelByte s.cfg qx qy = pixelByte s.cfg px py
    · have hbit : pixelBit px = pixelBit qx ↔ qx = px ∧ qy = py := by rw [← hsame, and_iff_right hbyte]
      rw [if_pos hbyte, getLsbD_xor_bit _ (show pixelBit px < 8 by rw [pixelBit]; omega), ← hbyte,
        decide_eq_decide.2 hbit]
    · rw [if_neg hbyte, decide_eq_false fun h => hbyte (hsame.2 h).1, Bool.xor_false]
  | external =>
    rw [pixel_external (hcfg ▸ hmode), flipPixel_external hmode, pixel_external hmode]
    refine (getLsbD_xor_bit s.fb (pixelIndex_lt hx hy)).trans ?_
    rw [decide_eq_decide.2 (pixelIndex_eq_iff hx hqx)]

/-! ## The pixels of a sprite -/

/-- A row at column `xs` lights the pixels of a column: it is `dx < 8` columns on, wrapping, and bit `7 - dx` of the
row is set (R232). -/
def rowCovers (xs : Nat) (row : Byte) (px : Nat) : Bool :=
  decide ((px + displayW - xs) % displayW < 8) && row.getLsbD (7 - (px + displayW - xs) % displayW)

/-- A sprite covers a pixel when the row at the pixel's height does. -/
theorem spriteCovers_eq (xs ys : Nat) (rows : List Byte) (px py : Nat) :
    spriteCovers xs ys rows px py = rowCovers xs (rows.getD ((py + displayH - ys) % displayH) 0#8) px := rfl

theorem rowCovers_zero (xs px : Nat) : rowCovers xs 0#8 px = false := by
  rw [rowCovers, BitVec.getLsbD_zero, Bool.and_false]

theorem mem_rowPixels_iff {xs px py qy : Nat} {row : Byte} (hxs : xs < displayW) :
    (px, py) ∈ rowPixels xs qy row ↔ px < displayW ∧ py = qy ∧ rowCovers xs row px = true := by
  simp only [rowPixels, rowCovers, displayW, List.mem_map, List.mem_filter, List.mem_range, Prod.mk.injEq,
    Bool.and_eq_true, decide_eq_true_eq] at *
  constructor
  · rintro ⟨c, ⟨hc, hbit⟩, hpx, hpy⟩
    have hdx : (px + 64 - xs) % 64 = c := by omega
    rw [hdx]
    exact ⟨by omega, hpy.symm, hc, hbit⟩
  · rintro ⟨hpx, hpy, hdx, hbit⟩
    exact ⟨(px + 64 - xs) % 64, ⟨hdx, hbit⟩, by omega, hpy.symm⟩

/-- The pixels of a sprite are those of its rows, one row below the other, wrapping. -/
theorem mem_spritePixels_iff_exists {xs px py : Nat} (hxs : xs < displayW) (rows : List Byte) (ys : Nat) :
    (px, py) ∈ spritePixels xs ys rows ↔
      px < displayW ∧ ∃ k < rows.length, py = (ys + k) % displayH ∧ rowCovers xs (rows.getD k 0#8) px = true := by
  induction rows generalizing ys with
  | nil => simp [spritePixels]
  | cons row rows ih =>
    rw [spritePixels, List.mem_append, mem_rowPixels_iff hxs, ih]
    constructor
    · rintro (⟨hpx, hpy, hcov⟩ | ⟨hpx, k, hk, hpy, hcov⟩)
      · exact ⟨hpx, 0, Nat.succ_pos _, hpy, hcov⟩
      · exact ⟨hpx, k + 1, Nat.succ_lt_succ hk, by rw [hpy, Nat.add_right_comm, Nat.add_assoc], hcov⟩
    · rintro ⟨hpx, k, hk, hpy, hcov⟩
      cases k with
      | zero => exact .inl ⟨hpx, hpy, hcov⟩
      | succ k =>
        exact .inr ⟨hpx, k, Nat.lt_of_succ_lt_succ hk, by rw [hpy, Nat.add_right_comm, Nat.add_assoc], hcov⟩

/-- The pixels of a sprite of at most 32 rows are those of the display that it covers. -/
theorem mem_spritePixels_iff {xs ys px py : Nat} {rows : List Byte} (hxs : xs < displayW) (hys : ys < displayH)
    (hrows : rows.length ≤ displayH) :
    (px, py) ∈ spritePixels xs ys rows ↔
      px < displayW ∧ py < displayH ∧ spriteCovers xs ys rows px py = true := by
  rw [mem_spritePixels_iff_exists hxs, spriteCovers_eq]
  simp only [displayH] at *
  constructor
  · rintro ⟨hpx, k, hk, hpy, hcov⟩
    have hdy : (py + 32 - ys) % 32 = k := by omega
    rw [hdy]
    exact ⟨hpx, by omega, hcov⟩
  · rintro ⟨hpx, hpy, hcov⟩
    refine ⟨hpx, (py + 32 - ys) % 32, ?_, by omega, hcov⟩
    by_contra hpast
    rw [List.getD_eq_default _ _ (Nat.le_of_not_lt hpast), rowCovers_zero] at hcov
    exact Bool.false_ne_true hcov

/-- Settles O51: PixelXor is a flip of one pixel, applied where the sprite covers. -/
theorem pixelXorInvertsOnePixel : Obligations.PixelXorInvertsOnePixel := by
  refine ⟨fun s px py qx qy hx hy hqx _ => ⟨rfl, ?_⟩,
    fun xs ys px py rows hxs hys hrows => mem_spritePixels_iff hxs hys hrows⟩
  rw [xorPixel, pixel_flipPixel hx hy hqx]
  split
  next hsame => rw [decide_eq_true hsame, hsame.1, hsame.2, Bool.xor_true]
  next hother => rw [decide_eq_false hother, Bool.xor_false]

/-! ## No pixel twice -/

theorem nodup_rowPixels (xs qy : Nat) (row : Byte) : (rowPixels xs qy row).Nodup := by
  refine (List.nodup_range.filter _).map_on fun c hc d hd hsame => ?_
  have hc8 := List.mem_range.mp (List.mem_filter.mp hc).1
  have hd8 := List.mem_range.mp (List.mem_filter.mp hd).1
  simp only [displayW, Prod.mk.injEq] at hsame
  omega

theorem nodup_spritePixels {xs : Nat} (hxs : xs < displayW) {rows : List Byte} {ys : Nat}
    (hrows : rows.length ≤ displayH) : (spritePixels xs ys rows).Nodup := by
  induction rows generalizing ys with
  | nil => exact List.nodup_nil
  | cons row rows ih =>
    rw [List.length_cons] at hrows
    refine List.nodup_append'.mpr ⟨nodup_rowPixels _ _ _, ih (by omega), fun p hrow hrest => ?_⟩
    obtain ⟨-, hfirst⟩ := mem_rowPixels hrow
    obtain ⟨-, k, hk, hlater, -⟩ := (mem_spritePixels_iff_exists hxs rows (ys + 1)).mp hrest
    simp only [displayH] at *
    omega

/-! ## A blit -/

section

variable {ps : List (Nat × Nat)} {s : State}

/-- A blit inverts the pixels of its list, none of which comes twice (R232). -/
theorem pixel_blit (hps : ∀ p ∈ ps, p.1 < displayW ∧ p.2 < displayH) (hnodup : ps.Nodup) {qx qy : Nat}
    (hqx : qx < displayW) : (blit ps s).2.pixel qx qy = (s.pixel qx qy ^^ decide ((qx, qy) ∈ ps)) := by
  induction ps generalizing s with
  | nil => simp [blit]
  | cons p ps ih =>
    obtain ⟨⟨hx, hy⟩, hrest⟩ := List.forall_mem_cons.mp hps
    obtain ⟨hfresh, hnodup⟩ := List.nodup_cons.mp hnodup
    calc (blit (p :: ps) s).2.pixel qx qy
        = ((s.flipPixel p.1 p.2).pixel qx qy ^^ decide ((qx, qy) ∈ ps)) := ih hrest hnodup
      _ = (s.pixel qx qy ^^ decide ((qx, qy) ∈ p :: ps)) := by
        rw [pixel_flipPixel hx hy hqx]
        by_cases heq : (qx, qy) = p
        · obtain rfl := heq
          simp [hfresh]
        · have hne : ¬ (qx = p.1 ∧ qy = p.2) := fun hsame => heq (Prod.ext hsame.1 hsame.2)
          simp [hne, heq]

/-- It reports a collision when one of them was on (R234). -/
theorem blit_hit (hps : ∀ p ∈ ps, p.1 < displayW ∧ p.2 < displayH) (hnodup : ps.Nodup) :
    (blit ps s).1 = true ↔ ∃ p ∈ ps, s.pixel p.1 p.2 = true := by
  induction ps generalizing s with
  | nil => simp [blit]
  | cons p ps ih =>
    obtain ⟨⟨hx, hy⟩, hrest⟩ := List.forall_mem_cons.mp hps
    obtain ⟨hfresh, hnodup⟩ := List.nodup_cons.mp hnodup
    have hlater : ∀ q ∈ ps, (s.flipPixel p.1 p.2).pixel q.1 q.2 = s.pixel q.1 q.2 := fun q hq => by
      have hne : ¬ (q.1 = p.1 ∧ q.2 = p.2) := fun hsame => hfresh (Prod.ext hsame.1 hsame.2 ▸ hq)
      rw [pixel_flipPixel hx hy (hrest q hq).1, decide_eq_false hne, Bool.xor_false]
    have hsplit : (blit (p :: ps) s).1 = (s.pixel p.1 p.2 || (blit ps (s.flipPixel p.1 p.2)).1) := rfl
    rw [hsplit, Bool.or_eq_true, ih hrest hnodup, List.exists_mem_cons_iff]
    exact or_congr_right (exists_congr fun q => and_congr_right fun hq => by rw [hlater q hq])

end

/-! ## DRW -/

section

variable {s : State} {x y : Reg} {n : RowCount}

/-- The pixels that `DRW` applies PixelXor to (R240). -/
def drawnPixels (x y : Reg) (n : RowCount) (s : State) : List (Nat × Nat) :=
  spritePixels (drawColumn x s) (drawRow y s) (rowsAt s n.val)

/-- The state after the pixels and VF have been written. -/
def drawn (x y : Reg) (n : RowCount) (s : State) : State :=
  (blit (drawnPixels x y n s) s).2.setV flagReg (collisionFlag (blit (drawnPixels x y n s) s).1)

theorem length_rowsAt (s : State) (n : Nat) : (rowsAt s n).length = n := by
  rw [rowsAt, List.length_map, List.length_range]

theorem mem_drawnPixels_iff {px py : Nat} : (px, py) ∈ drawnPixels x y n s ↔ px < displayW ∧ py < displayH ∧
    spriteCovers (drawColumn x s) (drawRow y s) (rowsAt s n.val) px py = true :=
  mem_spritePixels_iff (Nat.mod_lt _ (by decide)) (Nat.mod_lt _ (by decide))
    (by rw [length_rowsAt, displayH]; omega)

theorem drawnPixels_inDisplay : ∀ p ∈ drawnPixels x y n s, p.1 < displayW ∧ p.2 < displayH :=
  fun _ => mem_spritePixels

theorem nodup_drawnPixels : (drawnPixels x y n s).Nodup :=
  nodup_spritePixels (Nat.mod_lt _ (by decide)) (by rw [length_rowsAt, displayH]; omega)

/-- With the sprite inside memory, or no row of it, `DRW` draws and advances. -/
theorem exec_drw (h : n.val = 0 ∨ s.i + n.val ≤ memEnd) :
    exec (.drw x y n) s = (advancePc (drawn x y n s)).finish := by
  have hrows : loadBytes s.pc s.i s n.val = .ok (rowsAt s n.val) := by
    obtain hnone | hin := h
    · rw [hnone]
      rfl
    · exact loadBytes_ok _ _ _ _ hin
  simp only [exec, execDrw, hrows]
  rfl

/-- Settles O52: the blit inverts the covered pixels and reports whether one of them was on. -/
theorem drawTogglesTheCoveredPixels : Obligations.DrawTogglesTheCoveredPixels := by
  intro s x y n _ hnext hmem covers
  have hplaces := blit_samePlaces (drawnPixels x y n s) s
  have hmemPixels : ∀ {px py : Nat}, (px, py) ∈ drawnPixels x y n s ↔
      px < displayW ∧ py < displayH ∧ covers px py = true := mem_drawnPixels_iff
  have hhit := blit_hit (s := s) (drawnPixels_inDisplay (x := x) (y := y) (n := n) (s := s)) nodup_drawnPixels
  refine completes_of_advancePc (exec_drw hmem) hplaces.cfg hplaces.pc hplaces.status hnext ⟨?_, ?_, ?_⟩
  · intro px py hx hy
    refine (pixel_blit drawnPixels_inDisplay nodup_drawnPixels hx).trans ?_
    simp [hmemPixels, hx, hy]
  · rintro ⟨px, py, hx, hy, hon, hcov⟩
    have hcollision := hhit.2 ⟨(px, py), hmemPixels.2 ⟨hx, hy, hcov⟩, hon⟩
    refine (getV_setV_same flagReg _ _).trans ?_
    rw [hcollision]
    rfl
  · intro hoff
    have hclear : (blit (drawnPixels x y n s) s).1 = false := by
      rw [← Bool.not_eq_true, hhit]
      rintro ⟨p, hp, hon⟩
      obtain ⟨hx, hy, hcov⟩ := hmemPixels.1 hp
      exact Bool.false_ne_true ((hoff p.1 p.2 hx hy hcov).symm.trans hon)
    refine (getV_setV_same flagReg _ _).trans ?_
    rw [hclear]
    rfl

end

/-! ## Drawing twice -/

theorem exists_getLsbD_of_ne_zero {b : Byte} (hb : b ≠ 0#8) : ∃ j < 8, b.getLsbD j = true := by
  by_contra hnone
  exact hb (BitVec.eq_of_getLsbD_eq fun j hj => by simpa using fun hbit => hnone ⟨j, hj, hbit⟩)

/-- A row with a bit set lights a pixel. -/
theorem exists_rowCovers {xs : Nat} (hxs : xs < displayW) {row : Byte} (hrow : row ≠ 0#8) :
    ∃ px < displayW, rowCovers xs row px = true := by
  obtain ⟨j, hj, hbit⟩ := exists_getLsbD_of_ne_zero hrow
  refine ⟨(xs + (7 - j)) % displayW, Nat.mod_lt _ (by decide), ?_⟩
  simp only [displayW] at *
  have hdx : ((xs + (7 - j)) % 64 + 64 - xs) % 64 = 7 - j := by omega
  have hback : 7 - (7 - j) = j := by omega
  simp only [rowCovers, displayW, hdx, hback, hbit]
  simp
  omega

/-- So a sprite with a bit set covers a pixel of the display. -/
theorem exists_spriteCovers {xs ys : Nat} {rows : List Byte} (hxs : xs < displayW) (hys : ys < displayH)
    (hrows : rows.length ≤ displayH) (hbit : ∃ r ∈ rows, r ≠ 0#8) :
    ∃ px py, px < displayW ∧ py < displayH ∧ spriteCovers xs ys rows px py = true := by
  obtain ⟨r, hr, hne⟩ := hbit
  obtain ⟨k, hk, rfl⟩ := List.mem_iff_getElem.mp hr
  obtain ⟨px, hpx, hcov⟩ := exists_rowCovers hxs hne
  rw [List.getElem_eq_getD 0#8] at hcov
  exact ⟨px, _, (mem_spritePixels_iff hxs hys hrows).1
    ((mem_spritePixels_iff_exists hxs rows ys).2 ⟨hpx, k, hk, rfl, hcov⟩)⟩

/-- A sprite that does not overlap the inline framebuffer is the same after a draw. -/
theorem rowsAt_of_drw {s t : State} {x y : Reg} {n : RowCount} (h : exec (.drw x y n) s = .next t)
    (hapart : s.cfg.displayMode = .inline → s.i + n.val ≤ s.cfg.displayStart) :
    rowsAt t n.val = rowsAt s n.val := by
  obtain ⟨-, -, hi, -, -, -, -, hmem, -⟩ := footprint_respected h
  have hstays : t.i = s.i := hi (pictureFootprint_i _ s)
  refine List.map_congr_left fun k hk => ?_
  rw [List.mem_range] at hk
  rw [hstays]
  refine hmem _ ?_
  rw [footprint]
  cases hmode : s.cfg.displayMode with
  | inline =>
    have hbelow := hapart hmode
    rw [pictureFootprint_inline hmode]
    exact .inl (show s.i + k < s.cfg.displayStart by omega)
  | external =>
    rw [pictureFootprint_external hmode]
    exact .inr (Nat.zero_le _)

/-- Settles O54: the second draw covers the same pixels, since the first leaves the sprite, its place and I. -/
theorem drawingTwiceErases : Obligations.DrawingTwiceErases := by
  intro s x y n hv hnext hnext4 hx hy hmem hapart
  obtain ⟨t, ht, htstatus, htpc, htpixel, -, htoff⟩ := drawTogglesTheCoveredPixels s x y n hv hnext (.inr hmem)
  have hframe := footprint_respected ht
  have hcfg : t.cfg = s.cfg := cfg_of_respected hframe
  obtain ⟨hreg, -, hi, -⟩ := hframe
  have hregs : ∀ r : Reg, r ≠ 0xF → t.getV r = s.getV r := fun r hr =>
    hreg r (by rw [footprint, pictureFootprint_regs]; simpa using hr)
  have hstays : t.i = s.i := hi (pictureFootprint_i _ s)
  have htnext : PcFits t 2 := by
    rw [PcFits, htpc, hcfg]
    exact hnext4
  obtain ⟨u, hu, hustatus, -, hupixel, huon, -⟩ :=
    drawTogglesTheCoveredPixels t x y n (hcfg ▸ hv) htnext (.inr (hstays ▸ hmem))
  rw [hregs x hx, hregs y hy, rowsAt_of_drw ht hapart] at hupixel huon
  refine ⟨t, u, ht, hu, hustatus.trans htstatus, fun px py hpx hpy => ?_, fun hclear hbit => ⟨?_, ?_⟩⟩
  · rw [hupixel px py hpx hpy, htpixel px py hpx hpy, Bool.xor_assoc, Bool.xor_self, Bool.xor_false]
  · exact htoff fun px py hpx hpy _ => hclear px py hpx hpy
  · obtain ⟨px, py, hpx, hpy, hcov⟩ := exists_spriteCovers
      (show drawColumn x s < displayW from Nat.mod_lt _ (by decide))
      (show drawRow y s < displayH from Nat.mod_lt _ (by decide))
      (show (rowsAt s n.val).length ≤ displayH by rw [length_rowsAt, displayH]; omega) hbit
    have hon : t.pixel px py = true := by
      rw [htpixel px py hpx hpy, hclear px py hpx hpy]
      exact (Bool.false_xor _).trans hcov
    exact huon ⟨px, py, hpx, hpy, hon, hcov⟩

/-! ## CLS -/

/-- Every pixel of a cleared display is off (R241). -/
theorem pixel_clearDisplay {s : State} {px py : Nat} (hx : px < displayW) (hy : py < displayH) :
    (clearDisplay s).pixel px py = false := by
  have hcfg := clearDisplay_cfg s
  cases hmode : s.cfg.displayMode with
  | inline =>
    rw [pixel_inline (hcfg ▸ hmode), hcfg, clearDisplay_inline hmode, State.readMem, Memory.read_writeRange,
      length_blankFramebuffer, if_pos (pixelByte_lt s.cfg hx hy), getD_blankFramebuffer, BitVec.getLsbD_zero]
  | external => rw [pixel_external (hcfg ▸ hmode), clearDisplay_external hmode, BitVec.getLsbD_zero]

/-- Settles O55: the clear leaves V, and the advance leaves the picture. -/
theorem clearTurnsEveryPixelOff : Obligations.ClearTurnsEveryPixelOff := fun s _ hnext =>
  completes_of_advancePc rfl (clearDisplay_cfg s) (clearDisplay_pc s) (clearDisplay_status s) hnext
    ⟨clearDisplay_v s, fun _ _ hx hy => pixel_clearDisplay hx hy⟩

end Sys2Proof.Proofs

/-! The byte-wise blit is the pixel-by-pixel blit (O53). A state of inline mode with canonical memory is known by its
pixels once all else is fixed; so it is enough that both blits of a row toggle the pixels the row covers, and both
report a collision when one of those was on. -/

namespace Sys2Proof.Proofs

open Sys2Proof.Machine Sys2Proof.Safety

/-! ## States that differ in the framebuffer alone -/

/-- A state with another picture in the framebuffer: nothing else differs, and memory is canonical. -/
structure Repainted (s t : State) : Prop where
  places : SamePlaces s t
  fb : t.fb = s.fb
  memWf : Memory.wf s.cfg t.mem
  outside : ∀ a, a < s.cfg.displayStart ∨ s.cfg.displayStart + framebufferBytes ≤ a → t.readMem a = s.readMem a

theorem Repainted.trans {s t u : State} (h : Repainted s t) (g : Repainted t u) : Repainted s u where
  places := h.places.trans g.places
  fb := g.fb.trans h.fb
  memWf := h.places.cfg ▸ g.memWf
  outside a ha := (g.outside a (by rwa [h.places.cfg])).trans (h.outside a ha)

/-- States that differ in the picture alone, and have the same one, are the same. -/
theorem SamePlaces.eq_of_mem_fb {s t u : State} (ht : SamePlaces s t) (hu : SamePlaces s u) (hmem : t.mem = u.mem)
    (hfb : t.fb = u.fb) : t = u := by
  obtain ⟨⟨v, pc, sp, i, dt, st, mem, fb, exit, status⟩, cfg, env⟩ := t
  obtain ⟨⟨v', pc', sp', i', dt', st', mem', fb', exit', status'⟩, cfg', env'⟩ := u
  simp only [State.mk.injEq, CoreState.mk.injEq]
  exact ⟨⟨ht.v.trans hu.v.symm, ht.pc.trans hu.pc.symm, ht.sp.trans hu.sp.symm, ht.i.trans hu.i.symm,
    ht.dt.trans hu.dt.symm, ht.st.trans hu.st.symm, hmem, hfb, ht.exit.trans hu.exit.symm,
    ht.status.trans hu.status.symm⟩, ht.cfg.trans hu.cfg.symm, ht.env.trans hu.env.symm⟩

/-- A framebuffer byte is its eight pixels (R39). -/
theorem readMem_eq_of_pixels {t u : State} (hmode : t.cfg.displayMode = .inline) (hcfg : u.cfg = t.cfg)
    (h : ∀ px py, px < displayW → py < displayH → t.pixel px py = u.pixel px py) {a : Nat}
    (hlow : t.cfg.displayStart ≤ a) (hhigh : a < t.cfg.displayStart + framebufferBytes) :
    t.readMem a = u.readMem a := by
  simp only [framebufferBytes] at hhigh
  refine BitVec.eq_of_getLsbD_eq fun j hj => ?_
  have hbyte : pixelByte t.cfg ((a - t.cfg.displayStart) % 8 * 8 + (7 - j)) ((a - t.cfg.displayStart) / 8) = a := by
    rw [pixelByte]
    omega
  have hbit : pixelBit ((a - t.cfg.displayStart) % 8 * 8 + (7 - j)) = j := by
    rw [pixelBit]
    omega
  have hpixel := h ((a - t.cfg.displayStart) % 8 * 8 + (7 - j)) ((a - t.cfg.displayStart) / 8)
    (by rw [displayW]; omega) (by rw [displayH]; omega)
  rwa [pixel_inline hmode, pixel_inline (hcfg ▸ hmode), hcfg, hbyte, hbit] at hpixel

/-- Two repaintings of one state with the same pixels are the same state. -/
theorem Repainted.eq_of_pixels {s t u : State} (hmode : s.cfg.displayMode = .inline) (ht : Repainted s t)
    (hu : Repainted s u) (h : ∀ px py, px < displayW → py < displayH → t.pixel px py = u.pixel px py) : t = u := by
  have hmem : t.mem = u.mem := by
    refine Memory.ext_of_wf ht.memWf hu.memWf fun a => ?_
    have hread : t.readMem a = u.readMem a := by
      by_cases hin : s.cfg.displayStart ≤ a ∧ a < s.cfg.displayStart + framebufferBytes
      · have htcfg := ht.places.cfg
        exact readMem_eq_of_pixels (htcfg ▸ hmode) (hu.places.cfg.trans htcfg.symm) h (htcfg ▸ hin.1)
          (htcfg ▸ hin.2)
      · have hout : a < s.cfg.displayStart ∨ s.cfg.displayStart + framebufferBytes ≤ a := by omega
        rw [ht.outside a hout, hu.outside a hout]
    rwa [State.readMem, State.readMem, ht.places.cfg, hu.places.cfg] at hread
  exact SamePlaces.eq_of_mem_fb ht.places hu.places hmem (ht.fb.trans hu.fb.symm)

theorem blit_fb_inline {s : State} (hmode : s.cfg.displayMode = .inline) (ps : List (Nat × Nat)) :
    (blit ps s).2.fb = s.fb := by
  induction ps generalizing s with
  | nil => rfl
  | cons p ps ih =>
    have hflip : (s.flipPixel p.1 p.2).cfg.displayMode = .inline := by rwa [flipPixel_cfg]
    exact (ih hflip).trans (flipPixel_fb_inline hmode p.1 p.2)

/-- A blit of pixels of the display repaints. -/
theorem blit_repainted {s : State} {ps : List (Nat × Nat)} (hv : s.cfg.Valid) (hmode : s.cfg.displayMode = .inline)
    (hwf : Memory.wf s.cfg s.mem) (hps : ∀ p ∈ ps, p.1 < displayW ∧ p.2 < displayH) :
    Repainted s (blit ps s).2 where
  places := blit_samePlaces ps s
  fb := blit_fb_inline hmode ps
  memWf := blit_wf hv hps hwf
  outside _ ha := blit_readMem hps ha

/-! ## XOR of one framebuffer byte -/

/-- A framebuffer byte XORed with a mask (R233). -/
def xorByte (a : Nat) (mask : Byte) (s : State) : State := s.writeMem a (s.readMem a ^^^ mask)

/-- The address of the framebuffer byte `k` of a row of pixels (R39). -/
def rowByte (c : Config) (k py : Nat) : Nat := c.displayStart + 8 * py + k

section

variable {s : State} {k py : Nat} (mask : Byte) (hmode : s.cfg.displayMode = .inline)

include hmode

theorem xorByte_repainted (hv : s.cfg.Valid) (hwf : Memory.wf s.cfg s.mem) (hk : k < 8) (hpy : py < displayH) :
    Repainted s (xorByte (rowByte s.cfg k py) mask s) := by
  obtain ⟨-, -, -, -, -, hdisplay, -⟩ := hv
  have hstart := hdisplay hmode
  simp only [displayH] at hpy
  refine ⟨⟨rfl, rfl, rfl, rfl, rfl, rfl, rfl, rfl, rfl, rfl⟩, rfl, Memory.write_wf hwf ?_, fun a ha => ?_⟩
  · rw [rowByte, hstart, memEnd]
    omega
  · rw [xorByte, readMem_writeMem, if_neg]
    simp only [framebufferBytes] at ha
    rw [rowByte]
    omega

/-- It toggles the pixels of the byte whose bit of the mask is set. -/
theorem pixel_xorByte {qx qy : Nat} (hk : k < 8) (hqx : qx < displayW) :
    (xorByte (rowByte s.cfg k py) mask s).pixel qx qy =
      (s.pixel qx qy ^^ (decide (qy = py) && (decide (qx / 8 = k) && mask.getLsbD (pixelBit qx)))) := by
  simp only [displayW] at hqx
  have hbyte : pixelByte s.cfg qx qy = rowByte s.cfg k py ↔ qy = py ∧ qx / 8 = k := by
    rw [pixelByte, rowByte]
    omega
  rw [pixel_inline (s := xorByte _ mask s) hmode, pixel_inline hmode]
  show ((xorByte _ mask s).readMem (pixelByte s.cfg qx qy)).getLsbD (pixelBit qx) = _
  rw [xorByte, readMem_writeMem]
  by_cases hsame : qy = py ∧ qx / 8 = k
  · rw [if_pos (hbyte.2 hsame), ← hbyte.2 hsame, BitVec.getLsbD_xor, decide_eq_true hsame.1, decide_eq_true hsame.2]
    rfl
  · rw [if_neg (mt hbyte.1 hsame), ← Bool.and_assoc, ← Bool.decide_and, decide_eq_false hsame, Bool.false_and,
      Bool.xor_false]

/-- It collides when one of these pixels was on (R234). -/
theorem xorByte_hit (hk : k < 8) : s.readMem (rowByte s.cfg k py) &&& mask ≠ 0#8 ↔
    ∃ px < displayW, s.pixel px py = true ∧ px / 8 = k ∧ mask.getLsbD (pixelBit px) = true := by
  have hbyte : ∀ px, px / 8 = k → pixelByte s.cfg px py = rowByte s.cfg k py := fun px hpx => by
    rw [pixelByte, rowByte, hpx]
  constructor
  · intro hne
    obtain ⟨j, hj, hbit⟩ := exists_getLsbD_of_ne_zero hne
    rw [BitVec.getLsbD_and, Bool.and_eq_true] at hbit
    have hcol : (8 * k + (7 - j)) / 8 = k := by omega
    have hplace : pixelBit (8 * k + (7 - j)) = j := by
      rw [pixelBit]
      omega
    refine ⟨8 * k + (7 - j), by rw [displayW]; omega, ?_, hcol, by rw [hplace]; exact hbit.2⟩
    rw [pixel_inline hmode, hbyte _ hcol, hplace]
    exact hbit.1
  · rintro ⟨px, -, hon, hpx, hbit⟩ hzero
    rw [pixel_inline hmode, hbyte px hpx] at hon
    have hboth : (s.readMem (rowByte s.cfg k py) &&& mask).getLsbD (pixelBit px) = true := by
      rw [BitVec.getLsbD_and, hon, hbit]
      rfl
    rw [hzero, BitVec.getLsbD_zero] at hboth
    exact Bool.false_ne_true hboth

end

/-! ## The two halves of a row -/

/-- The mask of a row at column `xs` for the framebuffer byte of its first pixel (R233). -/
def firstHalf (xs : Nat) (row : Byte) : Byte := row >>> (xs % 8)

/-- The mask for the next byte, which a row that starts inside a byte straddles into, wrapping. -/
def secondHalf (xs : Nat) (row : Byte) : Byte := row <<< (8 - xs % 8)

theorem getLsbD_firstHalf (xs px : Nat) (row : Byte) :
    (firstHalf xs row).getLsbD (pixelBit px) = row.getLsbD (xs % 8 + (7 - px % 8)) := by
  rw [firstHalf, BitVec.getLsbD_ushiftRight, pixelBit]

theorem getLsbD_secondHalf (xs px : Nat) (row : Byte) : (secondHalf xs row).getLsbD (pixelBit px) =
    (decide (8 - xs % 8 ≤ 7 - px % 8) && row.getLsbD (7 - px % 8 - (8 - xs % 8))) := by
  have hlt : 7 - px % 8 < 8 := by omega
  rw [secondHalf, BitVec.getLsbD_shiftLeft, pixelBit, decide_eq_true hlt, Bool.true_and, ← decide_not]
  simp

/-- A row covers, on the byte of its first pixel, what its first half masks; on the next byte, unless it starts at a
byte, what its second half masks; and nothing elsewhere (R233). -/
theorem rowCovers_eq_halves {xs px : Nat} (hxs : xs < displayW) (hpx : px < displayW) (row : Byte) :
    rowCovers xs row px =
      ((decide (px / 8 = xs / 8) && (firstHalf xs row).getLsbD (pixelBit px)) ||
        (decide (xs % 8 ≠ 0) &&
          (decide (px / 8 = (xs / 8 + 1) % 8) && (secondHalf xs row).getLsbD (pixelBit px)))) := by
  rw [rowCovers, getLsbD_firstHalf, getLsbD_secondHalf]
  simp only [displayW] at *
  by_cases hfirst : px / 8 = xs / 8
  · have hsecond : ¬ px / 8 = (xs / 8 + 1) % 8 := by omega
    by_cases hcol : xs % 8 ≤ px % 8
    · have hdx : (px + 64 - xs) % 64 = px % 8 - xs % 8 := by omega
      have hbit : 7 - (px % 8 - xs % 8) = xs % 8 + (7 - px % 8) := by omega
      have hlt : px % 8 - xs % 8 < 8 := by omega
      rw [decide_eq_true hfirst, decide_eq_false hsecond, hdx, hbit, decide_eq_true hlt]
      simp
    · have hdx : ¬ (px + 64 - xs) % 64 < 8 := by omega
      have hbit : row.getLsbD (xs % 8 + (7 - px % 8)) = false := BitVec.getLsbD_of_ge _ _ (by omega)
      rw [decide_eq_true hfirst, decide_eq_false hsecond, decide_eq_false hdx, hbit]
      simp
  · by_cases hsecond : xs % 8 ≠ 0 ∧ px / 8 = (xs / 8 + 1) % 8
    · obtain ⟨hstraddles, hsecond⟩ := hsecond
      by_cases hcol : px % 8 < xs % 8
      · have hdx : (px + 64 - xs) % 64 = 8 + px % 8 - xs % 8 := by omega
        have hbit : 7 - (8 + px % 8 - xs % 8) = 7 - px % 8 - (8 - xs % 8) := by omega
        have hlt : 8 + px % 8 - xs % 8 < 8 := by omega
        have hle : 8 - xs % 8 ≤ 7 - px % 8 := by omega
        rw [decide_eq_false hfirst, decide_eq_true hsecond, decide_eq_true hstraddles, hdx, hbit, decide_eq_true hlt,
          decide_eq_true hle]
        simp
      · have hdx : ¬ (px + 64 - xs) % 64 < 8 := by omega
        have hle : ¬ 8 - xs % 8 ≤ 7 - px % 8 := by omega
        rw [decide_eq_false hfirst, decide_eq_false hdx, decide_eq_false hle]
        simp
    · have hdx : ¬ (px + 64 - xs) % 64 < 8 := by omega
      rw [decide_eq_false hfirst, decide_eq_false hdx, ← Bool.and_assoc (decide (xs % 8 ≠ 0)), ← Bool.decide_and,
        decide_eq_false hsecond]
      simp

/-! ## A row -/

section

variable {s : State} {xs py : Nat}

/-- A row that starts at a byte is that byte alone (R233). -/
theorem blitRowBytes_aligned (row : Byte) (hbyte : xs % 8 = 0) : blitRowBytes xs py row s =
    (decide (s.readMem (rowByte s.cfg (xs / 8) py) &&& firstHalf xs row ≠ 0#8),
      xorByte (rowByte s.cfg (xs / 8) py) (firstHalf xs row) s) := by
  simp only [blitRowBytes, if_pos hbyte]
  rfl

/-- The two bytes of a row that starts inside a byte are different ones. -/
theorem rowByte_second_ne_first (c : Config) (xs py : Nat) :
    rowByte c ((xs / 8 + 1) % 8) py ≠ rowByte c (xs / 8) py := by
  rw [rowByte, rowByte]
  omega

/-- Such a row is that byte and then the next, each collision being read off the first state. -/
theorem blitRowBytes_straddling (row : Byte) (hbyte : xs % 8 ≠ 0) : blitRowBytes xs py row s =
    (decide (s.readMem (rowByte s.cfg (xs / 8) py) &&& firstHalf xs row ≠ 0#8) ||
        decide (s.readMem (rowByte s.cfg ((xs / 8 + 1) % 8) py) &&& secondHalf xs row ≠ 0#8),
      xorByte (rowByte s.cfg ((xs / 8 + 1) % 8) py) (secondHalf xs row)
        (xorByte (rowByte s.cfg (xs / 8) py) (firstHalf xs row) s)) := by
  have hread : (xorByte (rowByte s.cfg (xs / 8) py) (firstHalf xs row) s).readMem
      (rowByte s.cfg ((xs / 8 + 1) % 8) py) = s.readMem (rowByte s.cfg ((xs / 8 + 1) % 8) py) := by
    rw [xorByte, readMem_writeMem, if_neg (rowByte_second_ne_first s.cfg xs py)]
  simp only [blitRowBytes, if_neg hbyte]
  rw [← hread]
  rfl

variable (hmode : s.cfg.displayMode = .inline) (hxs : xs < displayW)

include hmode hxs

theorem blitRowBytes_repainted (hv : s.cfg.Valid) (hwf : Memory.wf s.cfg s.mem) (hpy : py < displayH) (row : Byte) :
    Repainted s (blitRowBytes xs py row s).2 := by
  have hk : xs / 8 < 8 := by simp only [displayW] at hxs; omega
  have hfirst := xorByte_repainted (firstHalf xs row) hmode hv hwf hk hpy
  by_cases hbyte : xs % 8 = 0
  · rw [blitRowBytes_aligned row hbyte]
    exact hfirst
  · rw [blitRowBytes_straddling row hbyte]
    exact hfirst.trans (xorByte_repainted (s := xorByte _ _ s) _ hmode hv hfirst.memWf (Nat.mod_lt _ (by decide)) hpy)

/-- The bytes of a row toggle the pixels the row covers. -/
theorem pixel_blitRowBytes (row : Byte) {qx qy : Nat} (hqx : qx < displayW) :
    (blitRowBytes xs py row s).2.pixel qx qy =
      (s.pixel qx qy ^^ (decide (qy = py) && rowCovers xs row qx)) := by
  have hk : xs / 8 < 8 := by simp only [displayW] at hxs; omega
  rw [rowCovers_eq_halves hxs hqx]
  by_cases hbyte : xs % 8 = 0
  · rw [blitRowBytes_aligned row hbyte, pixel_xorByte _ hmode hk hqx, decide_eq_false (not_not.mpr hbyte)]
    simp
  · rw [blitRowBytes_straddling row hbyte]
    refine (pixel_xorByte (s := xorByte _ _ s) _ hmode (Nat.mod_lt _ (by decide)) hqx).trans ?_
    rw [pixel_xorByte _ hmode hk hqx, decide_eq_true hbyte, Bool.true_and]
    by_cases hfirst : qx / 8 = xs / 8
    · have hsecond : ¬ qx / 8 = (xs / 8 + 1) % 8 := by omega
      rw [decide_eq_true hfirst, decide_eq_false hsecond]
      simp
    · rw [decide_eq_false hfirst]
      simp

/-- They collide when one of these was on. -/
theorem blitRowBytes_hit (row : Byte) : (blitRowBytes xs py row s).1 = true ↔
    ∃ px < displayW, s.pixel px py = true ∧ rowCovers xs row px = true := by
  have hk : xs / 8 < 8 := by simp only [displayW] at hxs; omega
  have hcovers : (∃ px < displayW, s.pixel px py = true ∧ rowCovers xs row px = true) ↔
      (∃ px < displayW, s.pixel px py = true ∧ px / 8 = xs / 8 ∧ (firstHalf xs row).getLsbD (pixelBit px) = true) ∨
      (xs % 8 ≠ 0 ∧ ∃ px < displayW, s.pixel px py = true ∧
        px / 8 = (xs / 8 + 1) % 8 ∧ (secondHalf xs row).getLsbD (pixelBit px) = true) := by
    constructor
    · rintro ⟨px, hpx, hon, hcov⟩
      rw [rowCovers_eq_halves hxs hpx] at hcov
      simp only [Bool.or_eq_true, Bool.and_eq_true, decide_eq_true_eq] at hcov
      obtain ⟨hbyte, hbit⟩ | ⟨hstraddles, hbyte, hbit⟩ := hcov
      · exact .inl ⟨px, hpx, hon, hbyte, hbit⟩
      · exact .inr ⟨hstraddles, px, hpx, hon, hbyte, hbit⟩
    · rintro (⟨px, hpx, hon, hbyte, hbit⟩ | ⟨hstraddles, px, hpx, hon, hbyte, hbit⟩)
      · exact ⟨px, hpx, hon, by rw [rowCovers_eq_halves hxs hpx, decide_eq_true hbyte, hbit]; simp⟩
      · exact ⟨px, hpx, hon, by
          rw [rowCovers_eq_halves hxs hpx, decide_eq_true hstraddles, decide_eq_true hbyte, hbit]; simp⟩
  rw [hcovers, ← xorByte_hit _ hmode hk, ← xorByte_hit _ hmode (Nat.mod_lt _ (by decide))]
  by_cases hbyte : xs % 8 = 0
  · rw [blitRowBytes_aligned row hbyte]
    simp [hbyte]
  · rw [blitRowBytes_straddling row hbyte]
    simp [hbyte]

/-- The bytes of a row are its pixels. -/
theorem blitRowBytes_eq_blit (hv : s.cfg.Valid) (hwf : Memory.wf s.cfg s.mem) (hpy : py < displayH) (row : Byte) :
    blitRowBytes xs py row s = blit (rowPixels xs py row) s := by
  have hdisplay : ∀ p ∈ rowPixels xs py row, p.1 < displayW ∧ p.2 < displayH := fun p hp =>
    ⟨(mem_rowPixels hp).1, by rw [(mem_rowPixels hp).2]; exact hpy⟩
  have hnodup := nodup_rowPixels xs py row
  refine Prod.ext (Bool.eq_iff_iff.mpr ?_) (Repainted.eq_of_pixels hmode
    (blitRowBytes_repainted hmode hxs hv hwf hpy row) (blit_repainted hv hmode hwf hdisplay) fun qx qy hqx _ => ?_)
  · rw [blitRowBytes_hit hmode hxs, blit_hit hdisplay hnodup]
    constructor
    · rintro ⟨px, hpx, hon, hcov⟩
      exact ⟨(px, py), (mem_rowPixels_iff hxs).2 ⟨hpx, rfl, hcov⟩, hon⟩
    · rintro ⟨⟨px, qy⟩, hp, hon⟩
      obtain ⟨hpx, rfl, hcov⟩ := (mem_rowPixels_iff hxs).1 hp
      exact ⟨px, hpx, hon, hcov⟩
  · rw [pixel_blitRowBytes hmode hxs row hqx, pixel_blit hdisplay hnodup hqx]
    simp [mem_rowPixels_iff hxs, hqx]

end

/-- Settles O53: row by row, each blit keeping the memory canonical for the next. -/
theorem byteBlitIsThePixelBlit : Obligations.ByteBlitIsThePixelBlit := by
  intro s xs ys rows hv hmode hwf hxs hys
  clear hys
  induction rows generalizing s ys with
  | nil => rfl
  | cons row rows ih =>
    have hpy : ys % displayH < displayH := Nat.mod_lt _ (by decide)
    have hrow := blitRowBytes_eq_blit hmode hxs hv hwf hpy row
    have hfirst := blitRowBytes_repainted hmode hxs hv hwf hpy row
    rw [hrow] at hfirst
    have hcfg := hfirst.places.cfg
    have hrest := ih (blit (rowPixels xs (ys % displayH) row) s).2 (ys + 1) (hcfg ▸ hv) (hcfg ▸ hmode)
      (hcfg ▸ hfirst.memWf)
    rw [spritePixels, blit_append, blitSpriteBytes, hrow, hrest]

end Sys2Proof.Proofs
